-- ==== Sys2Proof/Word.lean ====
section
/-! DEFINITION. The word types (spec/00_scope.md rules R9, R12, R13, R15). -/

namespace Sys2Proof

/-- A byte of data memory: a sample, a character or eight packed bits (20_memory.md R81). -/
abbrev Byte := BitVec 8

/-- A register of the register window (R9). -/
abbrev Word := BitVec 32

/-- A binary64 value, as its 64-bit IEEE 754 encoding (R15). -/
abbrev Binary64 := BitVec 64

/-- A bit sequence, first bit first (R13). -/
abbrev Bits := List Bool

/-- A `B` by `B` matrix of binary64 values, row then column: the argument and the result of the transform collaborator
(10_state.md R37). -/
abbrev BlockMatrix (B : Nat) := Fin B → Fin B → Binary64

end Sys2Proof
end

