-- ==== Sys2Proof/Syntax.lean ====
section
/-! DEFINITION. The instruction set: the thirteen commands of spec/30_encoding.md rule R113, one constructor per row of
opcode_table.json. A command word holds no operand (R110, R116), so no constructor has an argument. -/

namespace Sys2Proof

/-- The thirteen commands (R113). -/
inductive Instr where
  | lsbEmbed
  | lsbExtract
  | lsbCapacity
  | c2b
  | b2c
  | m2b
  | b2m
  | qembed
  | qextract
  | dctEmbed
  | dctExtract
  | dctCapacity
  | dctConfig
  deriving DecidableEq, Repr

/-- Every command, in the order of R113's table. -/
def Instr.all : List Instr :=
  [.lsbEmbed, .lsbExtract, .lsbCapacity, .c2b, .b2c, .m2b, .b2m, .qembed, .qextract, .dctEmbed, .dctExtract,
    .dctCapacity, .dctConfig]

end Sys2Proof
end

