-- ==== Sys2Proof/WellFormed.lean ====
section
/-! DEFINITION. Well-formedness of a command (spec/30_encoding.md rules R110 to R114). The constructors of `Instr` carry no
operand, so what can be ill-formed is a command's three fields. -/

namespace Sys2Proof

/-- The fields of the one format CMD32 (R110). -/
structure CmdFields where
  op : BitVec 4
  alg : BitVec 2
  rsv : BitVec 26
  deriving DecidableEq, Repr

/-- RSV "must be 0" (R110, R114). -/
def CmdFields.reservedClear (f : CmdFields) : Bool := f.rsv == 0

/-- OP is not one of the reserved values 0x0 and 0xB to 0xF (R111). -/
def CmdFields.opDefined (f : CmdFields) : Bool := decide (1 ≤ f.op.toNat ∧ f.op.toNat ≤ 0xA)

/-- ALG is not one of the reserved values 0b10 and 0b11 (R112). -/
def CmdFields.algDefined (f : CmdFields) : Bool := decide (f.alg.toNat ≤ 1)

/-- CONFIG exists only for DCT; C2B to QEXTRACT only with no algorithm (R112, R114). -/
def CmdFields.algSuitsOp (f : CmdFields) : Bool :=
  if f.op.toNat = 4 then f.alg == 1 else if 5 ≤ f.op.toNat then f.alg == 0 else true

/-- The fields of a legal command word: R114's list of what makes a word illegal, negated. -/
def CmdFields.wellFormed (f : CmdFields) : Bool :=
  f.reservedClear && f.opDefined && f.algDefined && f.algSuitsOp

/-- A command has no operand to check. -/
def Instr.wellFormed (i : Instr) : Bool := Instr.all.contains i

end Sys2Proof
end

