-- ==== Sys2Proof/Decode.lean ====
section
/-! DEFINITION. The decoder, total on all `2 ^ 32` words (spec/30_encoding.md R115), and the encoder, both from the tables of
R111 to R113. -/

namespace Sys2Proof

/-- Why a word is no command (R114). -/
inductive Reject where
  /-- RSV is not 0 -/
  | reservedBits
  /-- OP is 0x0 or 0xB to 0xF -/
  | reservedOp
  /-- ALG is 0b10 or 0b11 -/
  | reservedAlg
  /-- CONFIG with ALG = LSB, or C2B to QEXTRACT with ALG = DCT -/
  | algForOp
  deriving DecidableEq, Repr

/-- What the decoder reads from a word. -/
inductive Decoded where
  | instr (i : Instr)
  | reject (r : Reject)
  deriving DecidableEq, Repr

/-- The fields of a word: OP in bits 3:0, ALG in bits 5:4, RSV in bits 31:6 (R110). -/
def fieldsOf (w : Word) : CmdFields where
  op := w.extractLsb' 0 4
  alg := w.extractLsb' 4 2
  rsv := w.extractLsb' 6 26

/-- The word with the given fields (R110). -/
def wordOfFields (f : CmdFields) : Word := f.rsv ++ f.alg ++ f.op

/-- OP values (R111). -/
def Instr.op : Instr → BitVec 4
  | .lsbEmbed => 0x1
  | .dctEmbed => 0x1
  | .lsbExtract => 0x2
  | .dctExtract => 0x2
  | .lsbCapacity => 0x3
  | .dctCapacity => 0x3
  | .dctConfig => 0x4
  | .c2b => 0x5
  | .b2c => 0x6
  | .m2b => 0x7
  | .b2m => 0x8
  | .qembed => 0x9
  | .qextract => 0xA

/-- ALG values: 0b00 LSB or no algorithm, 0b01 DCT (R112). -/
def Instr.alg : Instr → BitVec 2
  | .lsbEmbed => 0b00
  | .lsbExtract => 0b00
  | .lsbCapacity => 0b00
  | .c2b => 0b00
  | .b2c => 0b00
  | .m2b => 0b00
  | .b2m => 0b00
  | .qembed => 0b00
  | .qextract => 0b00
  | .dctEmbed => 0b01
  | .dctExtract => 0b01
  | .dctCapacity => 0b01
  | .dctConfig => 0b01

/-- A row of the opcode map (R113; opcode_table.json). -/
structure OpcodeRow where
  pattern : Word
  mask : Word
  instr : Instr
  deriving DecidableEq, Repr

/-- The 13 legal command words; the mask is `0xFFFFFFFF` in every row (R113). -/
def opcodeTable : List OpcodeRow :=
  [⟨0x00000001, 0xFFFFFFFF, .lsbEmbed⟩, ⟨0x00000002, 0xFFFFFFFF, .lsbExtract⟩, ⟨0x00000003, 0xFFFFFFFF, .lsbCapacity⟩,
    ⟨0x00000005, 0xFFFFFFFF, .c2b⟩, ⟨0x00000006, 0xFFFFFFFF, .b2c⟩, ⟨0x00000007, 0xFFFFFFFF, .m2b⟩,
    ⟨0x00000008, 0xFFFFFFFF, .b2m⟩, ⟨0x00000009, 0xFFFFFFFF, .qembed⟩, ⟨0x0000000A, 0xFFFFFFFF, .qextract⟩,
    ⟨0x00000011, 0xFFFFFFFF, .dctEmbed⟩, ⟨0x00000012, 0xFFFFFFFF, .dctExtract⟩,
    ⟨0x00000013, 0xFFFFFFFF, .dctCapacity⟩, ⟨0x00000014, 0xFFFFFFFF, .dctConfig⟩]

/-- Why the word, which is in no row of the table, is illegal: the first of R114's reasons that holds. -/
def rejectReason (f : CmdFields) : Reject :=
  if f.reservedClear = false then .reservedBits
  else if f.opDefined = false then .reservedOp
  else if f.algDefined = false then .reservedAlg
  else .algForOp

/-- The decoder: the row of the opcode map the word equals, or a named rejection (R113, R114, R120). -/
def decode (w : Word) : Decoded :=
  match opcodeTable.find? (fun r => w &&& r.mask == r.pattern) with
  | some r => .instr r.instr
  | none => .reject (rejectReason (fieldsOf w))

/-- The command word of a command, from its OP and ALG (R110 to R112). -/
def encode (i : Instr) : Word := wordOfFields ⟨i.op, i.alg, 0⟩

/-- A command word is one 32-bit register write, so its `nbits` low bits are the word's own and every bit above is 0. -/
def tableWord (nbits w : Nat) : Word := BitVec.ofNat 32 (w % 2 ^ nbits)

/-- The instruction the decoder reads from a row's word (`none` where it refuses). -/
def decodeTableWord (nbits w : Nat) : Option Instr :=
  match decode (tableWord nbits w) with
  | .instr i => some i
  | .reject _ => none

end Sys2Proof
end

