-- ==== Sys2Proof/Config.lean ====
section
/-! DEFINITION. What an implementation fixes (spec/00_scope.md rule R8) and the free values: constants without a body, of
which nothing can be proved. -/

namespace Sys2Proof

/-- Rounding of exact halves (R8, R16). -/
inductive TieMode where
  | halfEven
  | halfAway
  deriving DecidableEq, Repr

/-- How a mismatched quantized parity is fixed (R8, 43_dct_quantizer.md R222). -/
inductive ParityAdjust where
  | setLsb
  | alwaysDown
  deriving DecidableEq, Repr

/-- DCT output outside whole blocks (R8, 44_dct_engine.md R270). -/
inductive BorderMode where
  | preserve
  | truncate
  deriving DecidableEq, Repr

/-- The build parameters of R8. The machine is written for all values of them ("The model takes the parameters below as
arguments"): `execIn`, `stepIn` and `coreIn` of Machine/Build.lean; `exec`, `step` and `core` run `Config.params`. -/
structure Params where
  /-- width in bits of a data-memory byte address -/
  addrW : Nat
  /-- platform predicate: the byte address is backed by memory -/
  memOk : Nat → Bool
  /-- a channel holds fewer than `2 ^ sizeW` samples -/
  sizeW : Nat
  /-- largest accepted channel rank -/
  maxRank : Nat
  /-- largest accepted DCT block size -/
  maxBlock : Nat
  tieMode : TieMode
  parityAdjust : ParityAdjust
  borderMode : BorderMode
  /-- the collaborator's forward transform -/
  fwd2D : (B : Nat) → BlockMatrix B → BlockMatrix B
  /-- the collaborator's inverse transform -/
  inv2D : (B : Nat) → BlockMatrix B → BlockMatrix B
  /-- bus address of the register window -/
  regBase : Nat
  /-- value of the ID register -/
  idValue : Word

/-- FREE VALUE (log 8): the collaborator's forward 2-D transform, a function of the block size and the matrix alone
(10_state.md R37, R38: "keep `Fwd2D_B`/`Inv2D_B` as configuration fields", R39). -/
opaque Config.fwd2D (B : Nat) (M : BlockMatrix B) : BlockMatrix B

/-- FREE VALUE (log 8): the collaborator's inverse 2-D transform. -/
opaque Config.inv2D (B : Nat) (C : BlockMatrix B) : BlockMatrix B

/-- FREE VALUE (log 1): the bus address of the register window, which R8 and 92_eei_decisions.md D41 leave OPEN. -/
opaque Config.regBase : Nat

/-- FREE VALUE (log 6): what the platform gives a data-memory byte that nobody has written (70_reset_and_hazards.md R356;
93_implementation_defined.md: "any value"). -/
opaque Config.platformByte (a : Nat) : Byte

/-- FREE VALUE (log 5): the byte at address `a` that the `n`-th race or abort leaves (20_memory.md R98,
70_reset_and_hazards.md R352). -/
opaque Config.freeByte (n a : Nat) : Byte

/-- The build the machine runs with: the default column of R8's table (log 1, DESIGN CHOICE of the spec). -/
def Config.params : Params where
  addrW := 32
  memOk := fun _ => true
  sizeW := 32
  maxRank := 4
  maxBlock := 64
  tieMode := .halfEven
  parityAdjust := .setLsb
  borderMode := .preserve
  fwd2D := Config.fwd2D
  inv2D := Config.inv2D
  regBase := Config.regBase
  idValue := 0x53544743#32

/-- The constant shared by the codec and the capacity calculator (R10). -/
def Config.charWidth : Nat := 7

end Sys2Proof
end

