-- ==== Sys2Proof/Machine/State.lean ====
section
/-! DEFINITION. The state of STEGCODEC (spec/10_state.md), of the data memory and host program around it, and the machine
right after reset. Plain data throughout. -/

namespace Sys2Proof.Machine

/-- The registers of the register window, by name (R40). Offset 0x7C is reserved and has no name. -/
inductive Reg where
  | id | ctrl | status | cmd
  | srcAddr | dstAddr | msgAddr | msgLen | bitsAddr | bitsLen
  | rank | dim0 | dim1 | dim2 | dim3
  | blockSize | coefIndex | quant
  | actBlockSize | actCoefIndex | actQuant
  | arg0 | arg1 | arg2 | arg3
  | result0 | result1 | errInfo0 | errInfo1 | outDim0 | outDim1
  deriving DecidableEq, Repr

/-- The operand registers, 32 bits each (R44 to R48, R57). -/
structure OperandRegs where
  srcAddr : Word
  dstAddr : Word
  msgAddr : Word
  msgLen : Word
  bitsAddr : Word
  bitsLen : Word
  rank : Word
  dim0 : Word
  dim1 : Word
  dim2 : Word
  dim3 : Word
  blockSize : Word
  coefIndex : Word
  quant : Word
  arg0 : Word
  arg1 : Word
  arg2 : Word
  arg3 : Word
  deriving DecidableEq, Repr

/-- The ACT registers: the DCT active configuration (R47). -/
structure DctConfig where
  blockSize : Word
  coefIndex : Word
  quant : Word
  deriving DecidableEq, Repr

/-- The snapshot a command takes at issue, its only operands (R55). -/
structure Snapshot where
  regs : OperandRegs
  act : DctConfig
  dctValid : Bool
  deriving DecidableEq, Repr

/-- The error codes of 60_exceptions.md R311. A reserved code is "never reported" and cannot be written down. -/
inductive ErrCode where
  | none
  | capacityExceeded
  | capacityExceededBits
  | invalidParameter
  | invalidShape
  | invalidCharacter
  | notConfigured
  | illegalCommand
  | addressFault
  | bufferOverlap
  | invalidOperand
  | collaboratorFault
  deriving DecidableEq, Repr

/-- The STATUS register but for BUSY, which is the engine's state (R43, R54). Its reserved fields read 0. -/
structure Status where
  done : Bool
  err : Bool
  dctValid : Bool
  outbufFull : Bool
  cmdOverrun : Bool
  errCode : ErrCode
  deriving DecidableEq, Repr

/-- A command in progress: the recorded word and its snapshot (R54, R55). `raced` is the model's own: the host has touched
the command's regions since the issue (20_memory.md R98, log 7). -/
structure Job where
  word : Word
  snap : Snapshot
  raced : Bool
  deriving DecidableEq, Repr

/-- The engine is IDLE or BUSY with one command; STATUS.BUSY is this (R54). -/
inductive Engine where
  | idle
  | busy (job : Job)
  deriving DecidableEq, Repr

/-- Region ids 1 to 4 (20_memory.md R87). -/
inductive RegionId where
  | src
  | dst
  | msg
  | bits
  deriving DecidableEq, Repr

/-- A region of a command: the bytes `base` to `base + len - 1`, read, or written if `output` (20_memory.md R87). -/
structure Region where
  id : RegionId
  base : Nat
  len : Nat
  output : Bool
  deriving DecidableEq, Repr

/-- Data memory: the bytes that have been written, by address, addresses strictly rising (`Memory.wf`). An unlisted address
is a byte nobody has written (70_reset_and_hazards.md R356, log 6). -/
abbrev Memory := List Host.Cell

/-- A value a host statement writes: a number or a host variable (30_encoding.md R122). -/
inductive HostVal where
  | lit (v : Word)
  | var (x : Nat)
  deriving DecidableEq, Repr

/-- A statement of a host program (30_encoding.md R122, R123, R125), a host access to data memory (20_memory.md R98) or the
reset input (10_state.md R36). The pseudo-instructions CMD, ACK, SETF64 and SETSHAPE2 expand to these. -/
inductive HostStmt where
  /-- one write transaction of `width` bits at a byte offset of the register window -/
  | wr (width offset : Nat) (v : HostVal)
  /-- one read transaction into a host variable -/
  | rd (width offset : Nat) (x : Nat)
  /-- `loop: RD STATUS -> x; if x[0] = 1 goto loop` -/
  | wait (x : Nat)
  /-- wait until `IRQ` is high -/
  | waitIrq
  /-- `if x[bit] = 1 goto target` -/
  | branchIf (x bit target : Nat)
  /-- the host writes a byte of data memory -/
  | store (addr : Nat) (b : Byte)
  /-- the host reads a byte of data memory into a host variable -/
  | load (addr : Nat) (x : Nat)
  /-- the reset input is asserted and released -/
  | resetPin
  deriving DecidableEq, Repr

/-- The host: its program, its statement index and its variables (30_encoding.md R125). The variables are a list by name in
the canonical form of memory. -/
structure HostState where
  program : List HostStmt
  pc : Nat
  vars : List (Nat × Word)
  deriving DecidableEq, Repr

/-- The two agents that take steps (00_scope.md R7). -/
inductive Agent where
  | host
  | engine
  deriving DecidableEq, Repr

/-- The machine. -/
structure State where
  /-- CTRL.IRQ_EN (R42) -/
  irqEn : Bool
  /-- STATUS but for BUSY (R43) -/
  status : Status
  regs : OperandRegs
  act : DctConfig
  result0 : Word
  result1 : Word
  errInfo0 : Word
  errInfo1 : Word
  outDim0 : Word
  outDim1 : Word
  engine : Engine
  mem : Memory
  /-- the model's own: the regions of each finished or aborted command that the host has not yet seen finish
  (20_memory.md R98, log 7) -/
  unobserved : List (List Region)
  /-- the model's own: how many times free bytes have been drawn (log 5) -/
  freeCount : Nat
  host : HostState
  /-- the model's own: who takes the next steps; once it is empty a BUSY engine moves, else the host (log 4) -/
  turns : List Agent
  deriving DecidableEq, Repr

/-- Why a step stops with a fault. -/
inductive Fault where
  /-- Raised by `perform` when a command's meaning is asked for while the engine is IDLE, when there is no recorded command
  (R54). `step` never does so (log 11). Safe. -/
  | noCommandInProgress
  /-- Raised by a host access to a data-memory address that does not exist (20_memory.md R80, log 15). Safe. -/
  | absentAddress
  deriving DecidableEq, Repr

/-- Why a step has no meaning. -/
inductive Refusal where
  /-- Raised by `exec` for an instruction that has no meaning yet; no arm does so. Safe. -/
  | notModelled (mnemonic : String)
  /-- Raised by a register transaction that is not 32 bits wide or not at a multiple of 4: "has no meaning in this spec; a
  model refuses it" (R32). Safe. -/
  | badTransaction
  /-- Raised by a register transaction at an offset past 0x7C, outside the window: no transaction of this block (R31). Safe. -/
  | outsideWindow
  /-- Raised by a host statement that uses a host variable no statement has assigned (30_encoding.md R122 gives it no
  value). Safe. -/
  | unassignedHostVar
  deriving DecidableEq, Repr

/-- Every operand register at its reset value (R40). -/
def OperandRegs.zero : OperandRegs :=
  ⟨0, 0, 0, 0, 0, 0, 0, 0, 0, 0, 0, 0, 0, 0, 0, 0, 0, 0⟩

/-- The machine right after reset (R60, 70_reset_and_hazards.md R350): every register of R40 at its reset value, the engine
IDLE, no byte of memory written. The host's program is empty and the schedule too (logs 3, 4). -/
def State.reset : State where
  irqEn := false
  status := ⟨false, false, false, false, false, .none⟩
  regs := OperandRegs.zero
  act := ⟨0, 0, 0⟩
  result0 := 0
  result1 := 0
  errInfo0 := 0
  errInfo1 := 0
  outDim0 := 0
  outDim1 := 0
  engine := .idle
  mem := []
  unobserved := []
  freeCount := 0
  host := ⟨[], 0, []⟩
  turns := []

end Sys2Proof.Machine
end

