-- ==== Sys2Proof/Machine/Flags.lean ====
section
/-! DEFINITION. The flags: the STATUS register as a word, its write-1-to-clear bits, what each event does to it, and the
interrupt output (spec/10_state.md R35, R43, R58; 60_exceptions.md R300 to R304, R320). -/

namespace Sys2Proof.Machine

/-- The number of an error code (60_exceptions.md R311). -/
def errCodeBits : ErrCode → BitVec 8
  | .none => 0x00
  | .capacityExceeded => 0x01
  | .capacityExceededBits => 0x02
  | .invalidParameter => 0x03
  | .invalidShape => 0x04
  | .invalidCharacter => 0x05
  | .notConfigured => 0x06
  | .illegalCommand => 0x07
  | .addressFault => 0x08
  | .bufferOverlap => 0x09
  | .invalidOperand => 0x0A
  | .collaboratorFault => 0x0B

/-- STATUS.BUSY: the engine state (R54). -/
def engineBusy : Engine → Bool
  | .idle => false
  | .busy _ => true

/-- STATUS.BUSY of a state (R43). -/
def isBusy (s : State) : Bool := engineBusy s.engine

/-- The STATUS register as a read returns it: R43's table from bit 31 down to bit 0. -/
def statusWord (busy : Bool) (f : Status) : Word :=
  0#16 ++ errCodeBits f.errCode ++ 0#2 ++ BitVec.ofBool f.cmdOverrun ++ BitVec.ofBool f.outbufFull ++
    BitVec.ofBool f.dctValid ++ BitVec.ofBool f.err ++ BitVec.ofBool f.done ++ BitVec.ofBool busy

/-- A write to STATUS clears DONE, ERR and CMD_OVERRUN where the written bit is 1, and nothing else (R43). -/
def statusWrite (v : Word) (f : Status) : Status :=
  { f with
    done := f.done && !v.getLsbD 1
    err := f.err && !v.getLsbD 2
    cmdOverrun := f.cmdOverrun && !v.getLsbD 5 }

/-- What an issue does to STATUS beside setting BUSY (60_exceptions.md R300). -/
def statusIssue (f : Status) : Status :=
  { f with done := false, err := false, outbufFull := false, errCode := .none }

/-- What a completion without error does to STATUS beside clearing BUSY (60_exceptions.md R302): OUTBUF_FULL and DCT_VALID as
the command's rule says, then DONE. -/
def statusDone (outbufFull : Option Bool) (configured : Bool) (f : Status) : Status :=
  { f with done := true, outbufFull := outbufFull.getD f.outbufFull, dctValid := f.dctValid || configured }

/-- What a completion with an error does to STATUS beside clearing BUSY (60_exceptions.md R303). -/
def statusError (code : ErrCode) (f : Status) : Status := { f with err := true, errCode := code }

/-- What a dropped CMD write does to STATUS (60_exceptions.md R304). -/
def statusOverrun (f : Status) : Status := { f with cmdOverrun := true }

/-- The interrupt output: IRQ_EN and, DONE or ERR (R35; 60_exceptions.md R320). -/
def irq (s : State) : Bool := s.irqEn && (s.status.done || s.status.err)

/-- CTRL as a read returns it: SOFT_RESET and the reserved bits read 0 (R42). -/
def ctrlWord (s : State) : Word := 0#30 ++ BitVec.ofBool s.irqEn ++ 0#1

end Sys2Proof.Machine
end

