-- ==== Sys2Proof/Machine/Operands.lean ====
section
/-! DEFINITION. Every operand form a command reads from its snapshot (spec/30_encoding.md R116 to R119, 10_state.md R44 to
R48, 20_memory.md R82 to R86), and the shape checks of 41_capacity.md R176, R177. -/

namespace Sys2Proof.Machine

/-- `raise Error(CODE, info0, info1)` (00_scope.md R18). -/
structure CmdError where
  code : ErrCode
  info0 : Word
  info1 : Word
  deriving DecidableEq, Repr

/-- A register of 32 bits holding a count (R12). A count of `2 ^ 32` or more, which the default build reports only where M2B's rule
states the low word (40_codec.md R154), leaves its low 32 bits: DESIGN CHOICE for builds with SIZE_W above 32, unsafe (log 19). -/
def wordOf (n : Nat) : Word := BitVec.ofNat 32 n

/-- The register value read as two's complement (00_scope.md R12; R118). -/
def s32 (w : Word) : Int := w.toInt

/-- A binary64 operand: the high word holds bits 63:32, the low word bits 31:0 (R48, R117). -/
def f64OfWords (hi lo : Word) : Binary64 := hi ++ lo

/-- Bits 31:0 of a binary64 encoding (R117). -/
def f64Low (x : Binary64) : Word := x.extractLsb' 0 32

/-- Bits 63:32 of a binary64 encoding (R117). -/
def f64High (x : Binary64) : Word := x.extractLsb' 32 32

/-- The bit-vector operand: bit `b_j` is bit `31 - j` of the register, for `j < k` (R119). -/
def leftAlignedBits (k : Nat) (w : Word) : Bits := (List.range k).map fun j => w.getLsbD (31 - j)

/-- The left-aligned register form of a bit sequence: the sum of `g_j * 2 ^ (31 - j)` (40_codec.md R150). -/
def leftAlignedWord (g : Bits) : Word :=
  wordOf ((g.zipIdx.map fun bj => if bj.1 then 2 ^ (31 - bj.2) else 0).sum)

/-- The dimension registers, in order (R44). -/
def dimensions (o : Snapshot) : List Nat :=
  [o.regs.dim0.toNat, o.regs.dim1.toNat, o.regs.dim2.toNat, o.regs.dim3.toNat]

/-- The number of samples of the channel, exact; dimensions at and past the rank are ignored (R44). At a rank of 5 or more, which
only a build with MAX_RANK above 4 accepts, there is no register for the dimensions past DIM3 and the product is that of the four:
DESIGN CHOICE, unsafe (log 20). -/
def sampleCount (o : Snapshot) : Nat := ((dimensions o).take o.regs.rank.toNat).prod

/-- The rank names dimensions, so that R44 defines the number of samples: 1 to 4, the dimension registers there are, or as far
as a build accepts (log 9). -/
def hasSampleCount (p : Params) (o : Snapshot) : Bool := decide (1 ≤ o.regs.rank.toNat ∧ o.regs.rank.toNat ≤ max 4 p.maxRank)

/-- Rows of a rank-2 channel (R44). -/
def height (o : Snapshot) : Nat := o.regs.dim0.toNat

/-- Columns of a rank-2 channel (R44). -/
def width (o : Snapshot) : Nat := o.regs.dim1.toNat

/-- The raster index of the sample with the given indices in a channel of the given dimensions: the last index varies
fastest (20_memory.md R82). Folds the pairs of index and dimension from the first on. -/
def flatIndex (indexDims : List (Nat × Nat)) : Nat := indexDims.foldl (fun acc id => acc * id.2 + id.1) 0

/-- Shape acceptance: the rank, then the number of samples (41_capacity.md R177). -/
def shapeError (p : Params) (o : Snapshot) : Option CmdError :=
  if o.regs.rank.toNat = 0 ∨ p.maxRank < o.regs.rank.toNat then some ⟨.invalidShape, o.regs.rank, 1⟩
  else if 2 ^ p.sizeW ≤ sampleCount o then some ⟨.invalidShape, o.regs.rank, 2⟩
  else none

/-- A DCT command before any DCT.CONFIG succeeded (60_exceptions.md R311). -/
def configError (o : Snapshot) : Option CmdError :=
  if o.dctValid = false then some ⟨.notConfigured, 0, 0⟩ else none

/-- The DCT shape requirement: rank exactly 2, then the number of samples (41_capacity.md R176, R177). -/
def dctShapeError (p : Params) (o : Snapshot) : Option CmdError :=
  if o.regs.rank.toNat ≠ 2 then some ⟨.invalidShape, o.regs.rank, 1⟩
  else if 2 ^ p.sizeW ≤ height o * width o then some ⟨.invalidShape, 2, 2⟩
  else none

/-- Whole block rows (44_dct_engine.md R260). -/
def blockRows (o : Snapshot) : Nat := height o / o.act.blockSize.toNat

/-- Whole blocks in a block row (44_dct_engine.md R260). -/
def blockCols (o : Snapshot) : Nat := width o / o.act.blockSize.toNat

/-- Rows of the output channel of DCT.EMBED (44_dct_engine.md R266, R270). -/
def outRows (p : Params) (o : Snapshot) : Nat :=
  match p.borderMode with
  | .preserve => height o
  | .truncate => blockRows o * o.act.blockSize.toNat

/-- Columns of the output channel of DCT.EMBED (44_dct_engine.md R266, R270). -/
def outCols (p : Params) (o : Snapshot) : Nat :=
  match p.borderMode with
  | .preserve => width o
  | .truncate => blockCols o * o.act.blockSize.toNat

/-- Bytes of a packed sequence of `n` bits: the ceiling of `n / 8` (20_memory.md R85). -/
def packedBytes (n : Nat) : Nat := (n + 7) / 8

end Sys2Proof.Machine
end

