-- ==== Sys2Proof/Machine/Ops.lean ====
section
/-! DEFINITION. The shared operations: data memory, regions, issue, completion with and without an error, abort and reset
(spec/20_memory.md, 60_exceptions.md, 70_reset_and_hazards.md). -/

namespace Sys2Proof.Machine

/-! ### Canonical lists by key -/

/-- The value listed for a key. -/
def tableGet {α : Type} : List (Nat × α) → Nat → Option α
  | [], _ => none
  | (k, v) :: rest, a => if a = k then some v else tableGet rest a

/-- The list with the key's value set, keys still strictly rising. -/
def tableSet {α : Type} : List (Nat × α) → Nat → α → List (Nat × α)
  | [], a, b => [(a, b)]
  | (k, v) :: rest, a, b =>
    if a < k then (a, b) :: (k, v) :: rest
    else if a = k then (a, b) :: rest
    else (k, v) :: tableSet rest a b

/-- Keys strictly rising. -/
def tableWf {α : Type} (t : List (Nat × α)) : Bool := (t.map Prod.fst).Pairwise (· < ·)

/-! ### Data memory -/

/-- The canonical form of memory: addresses strictly rising. An unlisted address holds no written byte, so no entry equals
what an unlisted address reads as (log 6). -/
def Memory.wf (m : Memory) : Bool := tableWf m

/-- `MemRead(a, 1)`: the byte last written, or, where nobody has written, whatever the platform gives (00_scope.md R18,
70_reset_and_hazards.md R356). -/
def memRead (m : Memory) (a : Nat) : Byte := (tableGet m a).getD (Config.platformByte a)

/-- `MemWrite(a, 1, b)`. -/
def memWrite (m : Memory) (a : Nat) (b : Byte) : Memory := tableSet m a b

/-- `MemRead(a, n)`: the bytes at `a` to `a + n - 1` in address order (00_scope.md R18). -/
def memReadBytes (m : Memory) (a n : Nat) : List Byte := (List.range n).map fun i => memRead m (a + i)

/-- `MemWrite(a, n, v)`: the bytes of the list at `a` on (00_scope.md R18). -/
def memWriteBytes (m : Memory) (a : Nat) : List Byte → Memory
  | [] => m
  | b :: bs => memWriteBytes (memWrite m a b) (a + 1) bs

/-- The address exists and is backed by memory (20_memory.md R80). -/
def addressExists (p : Params) (a : Nat) : Bool := decide (a < 2 ^ p.addrW) && p.memOk a

/-! ### Regions -/

/-- Region ids (20_memory.md R87). -/
def regionCode : RegionId → Word
  | .src => 1
  | .dst => 2
  | .msg => 3
  | .bits => 4

/-- The address is one of the region's bytes. -/
def regionHas (r : Region) (a : Nat) : Bool := decide (r.base ≤ a ∧ a < r.base + r.len)

/-- The region's addresses in order. -/
def regionAddrs (r : Region) : List Nat := (List.range r.len).map (r.base + ·)

/-- Region admission: an empty region always; else no byte past the end of memory, every byte backed (20_memory.md R88). -/
def admitted (p : Params) (r : Region) : Bool :=
  r.len == 0 || (decide (r.base + r.len ≤ 2 ^ p.addrW) && (regionAddrs r).all p.memOk)

/-- Two non-empty regions that share a byte (20_memory.md R89). -/
def regionsOverlap (r q : Region) : Bool :=
  decide (0 < r.len ∧ 0 < q.len ∧ r.base < q.base + q.len ∧ q.base < r.base + r.len)

/-- ADDRESS_FAULT for the first region, by ascending id, that is not admitted (20_memory.md R88; 60_exceptions.md R310). -/
def addressError (p : Params) (rs : List Region) : Option CmdError :=
  (rs.find? fun r => !admitted p r).map fun r => ⟨.addressFault, regionCode r.id, wordOf r.base⟩

/-- BUFFER_OVERLAP for an output region that overlaps another region of the command, the lowest such id reported
(20_memory.md R89). -/
def overlapError (rs : List Region) : Option CmdError :=
  (rs.filter (·.output)).findSome? fun out =>
    (rs.find? fun r => decide (r.id ≠ out.id) && regionsOverlap out r).map fun r =>
      ⟨.bufferOverlap, regionCode out.id, regionCode r.id⟩

/-- Both region checks of a memory command, in order (60_exceptions.md R310, 5 and 6). -/
def regionError (p : Params) (rs : List Region) : Option CmdError :=
  (addressError p rs).or (overlapError rs)

/-- The sample region a shape gives at a base: one byte a sample (20_memory.md R81, R87). None at a rank that names no
dimensions, where R44 defines no number of samples (log 9). -/
def sampleRegion (p : Params) (o : Snapshot) (id : RegionId) (base : Word) (output : Bool) : List Region :=
  if hasSampleCount p o then [⟨id, base.toNat, sampleCount o, output⟩] else []

/-- The message buffer: MSG_LEN bytes at MSG_ADDR (20_memory.md R86, R87). -/
def messageRegion (o : Snapshot) (output : Bool) : Region := ⟨.msg, o.regs.msgAddr.toNat, o.regs.msgLen.toNat, output⟩

/-- The regions each command's rule lists, by ascending id, from the issue on and whatever error the command will end with
(20_memory.md R87; 40_codec.md R154, R156; 42_lsb.md R200, R203; 44_dct_engine.md R266, R274). -/
def regionsOf (p : Params) (i : Instr) (o : Snapshot) : List Region :=
  match i with
  | .lsbEmbed =>
    sampleRegion p o .src o.regs.srcAddr false ++ sampleRegion p o .dst o.regs.dstAddr true ++ [messageRegion o false]
  | .lsbExtract => sampleRegion p o .src o.regs.srcAddr false ++ [messageRegion o true]
  | .m2b =>
    [messageRegion o false,
      ⟨.bits, o.regs.bitsAddr.toNat, packedBytes (Config.charWidth * o.regs.msgLen.toNat), true⟩]
  | .b2m => [messageRegion o true, ⟨.bits, o.regs.bitsAddr.toNat, packedBytes o.regs.bitsLen.toNat, false⟩]
  | .dctEmbed =>
    [⟨.src, o.regs.srcAddr.toNat, height o * width o, false⟩,
      ⟨.dst, o.regs.dstAddr.toNat, outRows p o * outCols p o, true⟩, messageRegion o false]
  | .dctExtract => [⟨.src, o.regs.srcAddr.toNat, height o * width o, false⟩, messageRegion o true]
  | .lsbCapacity => []
  | .c2b => []
  | .b2c => []
  | .qembed => []
  | .qextract => []
  | .dctCapacity => []
  | .dctConfig => []

/-- The regions of a command in progress: none for an illegal word (30_encoding.md R114). -/
def jobRegions (p : Params) (job : Job) : List Region :=
  match decode job.word with
  | .instr i => regionsOf p i job.snap
  | .reject _ => []

/-- The addresses of the command's output regions. -/
def outputAddrs (rs : List Region) : List Nat := (rs.filter (·.output)).flatMap regionAddrs

/-- The address lies in one of the regions. -/
def touches (rs : List Region) (a : Nat) : Bool := rs.any (regionHas · a)

/-- The address lies in one of the output regions. -/
def touchesOutput (rs : List Region) (a : Nat) : Bool := rs.any fun r => r.output && regionHas r a

/-- The address lies in one of the input regions. -/
def touchesInput (rs : List Region) (a : Nat) : Bool := rs.any fun r => !r.output && regionHas r a

/-! ### Free bytes -/

/-- Every given address that exists now holds any value: the free byte of this draw (20_memory.md R98,
70_reset_and_hazards.md R352, log 5). -/
def scramble (p : Params) (addrs : List Nat) (s : State) : State :=
  { s with
    mem := (addrs.filter (addressExists p)).foldl (fun m a => memWrite m a (Config.freeByte s.freeCount a)) s.mem
    freeCount := s.freeCount + 1 }

/-! ### Issue -/

/-- The snapshot of the operand registers (10_state.md R55). -/
def takeSnapshot (s : State) : Snapshot := ⟨s.regs, s.act, s.status.dctValid⟩

/-- Issue of a command word, legal or not (60_exceptions.md R300). -/
def issue (s : State) (w : Word) : State :=
  { s with
    status := statusIssue s.status
    result0 := 0
    result1 := 0
    errInfo0 := 0
    errInfo1 := 0
    outDim0 := 0
    outDim1 := 0
    engine := .busy ⟨w, takeSnapshot s, false⟩ }

/-- A CMD write while BUSY is dropped and flagged (60_exceptions.md R304). -/
def overrun (s : State) : State := { s with status := statusOverrun s.status }

/-- The command word the engine is to perform. -/
def fetch (s : State) : Option Word :=
  match s.engine with
  | .idle => none
  | .busy job => some job.word

/-! ### Completion -/

/-- What a command without error does: one run of bytes written, its results, OUTBUF_FULL where it writes it, the output
dimensions and the configuration it sets (60_exceptions.md R302). A result it does not name is 0 (10_state.md R50, R52). -/
structure Effect where
  base : Nat := 0
  bytes : List Byte := []
  result0 : Word := 0
  result1 : Word := 0
  outbufFull : Option Bool := none
  outDim0 : Word := 0
  outDim1 : Word := 0
  config : Option DctConfig := none
  deriving DecidableEq, Repr

/-- Completion without error, but for BUSY (60_exceptions.md R302). -/
def succeed (e : Effect) (s : State) : State :=
  { s with
    mem := memWriteBytes s.mem e.base e.bytes
    result0 := e.result0
    result1 := e.result1
    outDim0 := e.outDim0
    outDim1 := e.outDim1
    act := e.config.getD s.act
    status := statusDone e.outbufFull e.config.isSome s.status }

/-- Error entry: completion with an error, but for BUSY (60_exceptions.md R303, R325). It saves the code and two information
words; OUT_DIM0 and OUT_DIM1 become 0 (10_state.md R52: every completion but DCT.EMBED's; log 12). -/
def raiseError (x : CmdError) (s : State) : State :=
  { s with
    errInfo0 := x.info0
    errInfo1 := x.info1
    outDim0 := 0
    outDim1 := 0
    status := statusError x.code s.status }

/-- Error return: there is no return-from-trap, the host writes 1 to STATUS.ERR (60_exceptions.md R326). The word is the
pseudo-instruction ACK's (30_encoding.md R123). -/
def acknowledge (s : State) : State := { s with status := statusWrite 0x00000026 s.status }

/-- The engine is IDLE again (60_exceptions.md R302, R303); the command's regions stay exclusive until the host observes it
(20_memory.md R98). -/
def retire (rs : List Region) (s : State) : State :=
  { s with engine := .idle, unobserved := s.unobserved ++ (if rs.isEmpty then [] else [rs]) }

/-- If the host interfered, every byte of the output regions is any value when the command completes (20_memory.md R98). -/
def settleRace (p : Params) (rs : List Region) (raced : Bool) (s : State) : State :=
  if raced then scramble p (outputAddrs rs) s else s

/-- What a command computes from its snapshot and the data memory: an error or an effect (00_scope.md R19). -/
abbrev CmdResult := Except CmdError Effect

/-- The completion step of a command with the given regions and result (60_exceptions.md R301 to R303). -/
def complete (p : Params) (rs : List Region) (raced : Bool) (r : CmdResult) (s : State) : State :=
  settleRace p rs raced (retire rs (match r with
    | .ok e => succeed e s
    | .error x => raiseError x s))

/-- The perform step of command `i`: the recorded command on its snapshot, as one atomic transaction
(60_exceptions.md R301). -/
def perform (p : Params) (i : Instr) (cmd : Snapshot → Memory → CmdResult) (s : State) :
    Host.Outcome State Fault Refusal :=
  match s.engine with
  | .idle => .fault .noCommandInProgress
  | .busy job => .next (complete p (regionsOf p i job.snap) job.raced (cmd job.snap s.mem) s)

/-- The perform step of an illegal word (30_encoding.md R114): ILLEGAL_COMMAND with the word, and no other effect. -/
def performIllegal (p : Params) (s : State) : Host.Outcome State Fault Refusal :=
  match s.engine with
  | .idle => .fault .noCommandInProgress
  | .busy job => .next (complete p [] job.raced (.error ⟨.illegalCommand, job.word, 0⟩) s)

/-- The first check that fails ends the command, else it has its effect (00_scope.md R19; 60_exceptions.md R310). -/
def unlessError (x : Option CmdError) (e : Effect) : CmdResult :=
  match x with
  | some err => .error err
  | none => .ok e

/-! ### Reset -/

/-- The bytes an abort leaves unspecified: the output regions of the command in progress less its input regions, which "are
unchanged" (70_reset_and_hazards.md R352). -/
def abortedAddrs (p : Params) (job : Job) : List Nat :=
  (outputAddrs (jobRegions p job)).filter fun a => !touchesInput (jobRegions p job) a

/-- Abort of the command in progress, if any (70_reset_and_hazards.md R352). -/
def abort (p : Params) (s : State) : State :=
  match s.engine with
  | .idle => s
  | .busy job => retire (jobRegions p job) (scramble p (abortedAddrs p job) s)

/-- Hardware and soft reset: every register at its reset value and the engine IDLE; data memory and the host are not part of
STEGCODEC (10_state.md R36, R60; 70_reset_and_hazards.md R350 to R352). -/
def resetMachine (p : Params) (s : State) : State :=
  { State.reset with
    mem := (abort p s).mem
    unobserved := (abort p s).unobserved
    freeCount := (abort p s).freeCount
    host := s.host
    turns := s.turns }

end Sys2Proof.Machine
end

