-- ==== Sys2Proof/Machine/Capacity.lean ====
section
/-! DEFINITION. The Capacity Calculator and the commands LSB.CAPACITY, DCT.CAPACITY (spec/41_capacity.md). -/

namespace Sys2Proof.Machine

/-- LSB capacity (R170). -/
def capLsb (n : Nat) : Nat := n / Config.charWidth

/-- DCT block count (R172). -/
def totalBlocks (h w b : Nat) : Nat := (h / b) * (w / b)

/-- DCT capacity: 7 slots are reserved for the terminator (R174). -/
def capDct (h w b : Nat) : Nat := (totalBlocks h w b - Config.charWidth) / Config.charWidth

/-- The block count of a snapshot's channel under its configuration (44_dct_engine.md R260). -/
def blockCount (o : Snapshot) : Nat := totalBlocks (height o) (width o) o.act.blockSize.toNat

/-- CAPACITY_EXCEEDED with the required and the available characters (60_exceptions.md R312). -/
def capacityError (o : Snapshot) (cap : Nat) : Option CmdError :=
  if cap < o.regs.msgLen.toNat then some ⟨.capacityExceeded, o.regs.msgLen, wordOf cap⟩ else none

/-- LSB.CAPACITY (R178). -/
def lsbCapacity (p : Params) (o : Snapshot) : CmdResult :=
  unlessError (shapeError p o) { result0 := wordOf (capLsb (sampleCount o)) }

/-- DCT.CAPACITY (R180). -/
def dctCapacity (p : Params) (o : Snapshot) : CmdResult :=
  unlessError ((configError o).or (dctShapeError p o))
    { result0 := wordOf (capDct (height o) (width o) o.act.blockSize.toNat), result1 := wordOf (blockCount o) }

/-- The meaning of LSB.CAPACITY. -/
def execLsbCapacity (s : State) : Host.Outcome State Fault Refusal :=
  perform Config.params .lsbCapacity (fun o _ => lsbCapacity Config.params o) s

/-- The meaning of DCT.CAPACITY. -/
def execDctCapacity (s : State) : Host.Outcome State Fault Refusal :=
  perform Config.params .dctCapacity (fun o _ => dctCapacity Config.params o) s

end Sys2Proof.Machine
end

