-- ==== Sys2Proof/Machine/Codec.lean ====
section
/-! DEFINITION. The Bit/Character Codec: its four functions and the commands C2B, B2C, M2B, B2M (spec/40_codec.md). -/

namespace Sys2Proof.Machine

/-- `charToBits(c)`: the 7-bit group `g_j = c[6 - j]` (R140). -/
def charToBits (c : Byte) : Bits := (List.range 7).map fun j => c.getLsbD (6 - j)

/-- `messageToBits(m)` (R142). -/
def messageToBits (m : List Byte) : Bits := m.flatMap charToBits

/-- `bitsToChar(s)`: up to 7 bits as a big-endian number (R143). -/
def bitsToChar (s : Bits) : Byte :=
  BitVec.ofNat 8 ((s.take 7).foldl (fun v b => 2 * v + b.toNat) 0)

/-- `bitsToMessage(s)`: groups of 7 up to the first zero group or an incomplete group (R144). -/
def bitsToMessage : Bits → List Byte
  | b0 :: b1 :: b2 :: b3 :: b4 :: b5 :: b6 :: rest =>
    if bitsToChar [b0, b1, b2, b3, b4, b5, b6] = 0 then []
    else bitsToChar [b0, b1, b2, b3, b4, b5, b6] :: bitsToMessage rest
  | _ => []

/-- Bit `b_j` is bit `7 - (j mod 8)` of byte `floor(j / 8)`; unused low bits of the last byte are 0 (20_memory.md R85). -/
def packBits (s : Bits) : List Byte :=
  (List.range (packedBytes s.length)).map fun i =>
    BitVec.ofNat 8 ((List.range 8).foldl (fun v t => 2 * v + ((s[8 * i + t]?).getD false).toNat) 0)

/-- The first `n` bits of packed bytes (20_memory.md R85). -/
def unpackBits (n : Nat) (bytes : List Byte) : Bits :=
  (List.range n).map fun j => ((bytes[j / 8]?).getD 0).getLsbD (7 - j % 8)

/-- Character check: the smallest index whose code point is above 127 (R141). -/
def characterError (m : List Byte) : Option CmdError :=
  (m.zipIdx.find? fun ck => decide (127 < ck.1.toNat)).map fun ck =>
    ⟨.invalidCharacter, wordOf ck.2, wordOf ck.1.toNat⟩

/-- What every command that decodes a message does with it: as many characters as the buffer of `c` bytes at `a` holds are
written, both counts are reported, OUTBUF_FULL says whether some did not fit (R156; 42_lsb.md R203; 44_dct_engine.md R274). -/
def storeMessage (a c : Nat) (m : List Byte) : Effect where
  base := a
  bytes := m.take c
  result0 := wordOf (min m.length c)
  result1 := wordOf m.length
  outbufFull := some (decide (c < m.length))

/-- C2B (R150). -/
def c2b (o : Snapshot) : CmdResult :=
  unlessError (if 127 < o.regs.arg0.toNat then some ⟨.invalidCharacter, 0, o.regs.arg0⟩ else none)
    { result0 := leftAlignedWord (charToBits (BitVec.ofNat 8 o.regs.arg0.toNat)), result1 := 7 }

/-- B2C (R152). -/
def b2c (o : Snapshot) : CmdResult :=
  unlessError (if 32 < o.regs.arg0.toNat then some ⟨.invalidOperand, 0, o.regs.arg0⟩ else none)
    { result0 := wordOf (bitsToChar (leftAlignedBits o.regs.arg0.toNat o.regs.arg1)).toNat }

/-- The message a command reads: MSG_LEN characters at MSG_ADDR (20_memory.md R86). -/
def messageOf (o : Snapshot) (m : Memory) : List Byte := memReadBytes m o.regs.msgAddr.toNat o.regs.msgLen.toNat

/-- M2B (R154). -/
def m2b (p : Params) (o : Snapshot) (m : Memory) : CmdResult :=
  unlessError ((regionError p (regionsOf p .m2b o)).or (characterError (messageOf o m)))
    { base := o.regs.bitsAddr.toNat
      bytes := packBits (messageToBits (messageOf o m))
      result0 := wordOf (Config.charWidth * o.regs.msgLen.toNat)
      result1 := wordOf (Config.charWidth * o.regs.msgLen.toNat / 2 ^ 32) }

/-- The bit sequence B2M reads: BITS_LEN bits packed at BITS_ADDR (R156). -/
def bitsOf (o : Snapshot) (m : Memory) : Bits :=
  unpackBits o.regs.bitsLen.toNat (memReadBytes m o.regs.bitsAddr.toNat (packedBytes o.regs.bitsLen.toNat))

/-- B2M (R156). -/
def b2m (p : Params) (o : Snapshot) (m : Memory) : CmdResult :=
  unlessError (regionError p (regionsOf p .b2m o))
    (storeMessage o.regs.msgAddr.toNat o.regs.msgLen.toNat (bitsToMessage (bitsOf o m)))

/-- The meaning of C2B. -/
def execC2b (s : State) : Host.Outcome State Fault Refusal :=
  perform Config.params .c2b (fun o _ => c2b o) s

/-- The meaning of B2C. -/
def execB2c (s : State) : Host.Outcome State Fault Refusal :=
  perform Config.params .b2c (fun o _ => b2c o) s

/-- The meaning of M2B. -/
def execM2b (s : State) : Host.Outcome State Fault Refusal :=
  perform Config.params .m2b (m2b Config.params) s

/-- The meaning of B2M. -/
def execB2m (s : State) : Host.Outcome State Fault Refusal :=
  perform Config.params .b2m (b2m Config.params) s

end Sys2Proof.Machine
end

