-- ==== Sys2Proof/Machine/Float.lean ====
section
/-! DEFINITION. binary64 and rounding, exactly (spec/00_scope.md R15 to R17). Every finite binary64 is a whole number of units
of `2 ^ -1074`, so its magnitude is a `Nat` and every operation is exact integer arithmetic and one rounding. -/

namespace Sys2Proof.Machine

/-- How many units of `2 ^ -1074` make 1. -/
def f64One : Nat := 2 ^ 1074

/-- The sign bit. -/
def f64Neg (x : Binary64) : Bool := x.getLsbD 63

/-- The biased exponent field, bits 62:52. -/
def f64Exponent (x : Binary64) : Nat := (x.extractLsb' 52 11).toNat

/-- The fraction field, bits 51:0. -/
def f64Fraction (x : Binary64) : Nat := (x.extractLsb' 0 52).toNat

/-- `isfinite(x)`: neither an infinity nor a NaN (R15). -/
def f64Finite (x : Binary64) : Bool := f64Exponent x != 2047

/-- The magnitude of a finite value, in units of `2 ^ -1074`. -/
def f64Units (x : Binary64) : Nat :=
  if f64Exponent x = 0 then f64Fraction x else (2 ^ 52 + f64Fraction x) * 2 ^ (f64Exponent x - 1)

/-- A finite value in units of `2 ^ -1074`, with its sign. -/
def f64Int (x : Binary64) : Int := if f64Neg x then -(f64Units x : Int) else f64Units x

/-- The integer nearest `num / den`; an exact half goes to the even one or away from zero (R16). -/
def roundNat (mode : TieMode) (num den : Nat) : Nat :=
  let q := num / den
  let twice := 2 * (num % den)
  if twice < den then q
  else if den < twice then q + 1
  else match mode with
    | .halfEven => if q % 2 = 0 then q else q + 1
    | .halfAway => q + 1

/-- The encoding of an infinity's magnitude. -/
def f64InfBits : Nat := 2047 * 2 ^ 52

/-- The binary64 nearest `num / den` units, ties to even, overflowing to infinity (R15). The last place kept is `2 ^ j` units
so that the significand has 53 bits, or fewer below the normal range; a significand that rounds up to `2 ^ 53` carries into
the exponent field by itself. -/
def f64OfUnits (neg : Bool) (num den : Nat) : Binary64 :=
  let j := Nat.log2 (num / den) - 52
  let mag := min (j * 2 ^ 52 + roundNat .halfEven num (den * 2 ^ j)) f64InfBits
  BitVec.ofNat 64 ((if neg then 2 ^ 63 else 0) + mag)

/-- `fp(v)` for an integer (R15). -/
def fp (v : Int) : Binary64 := f64OfUnits (decide (v < 0)) (v.natAbs * f64One) 1

/-- `fdiv(x, y)` for finite `x` and finite non-zero `y` (R15): the only operands a command divides (43_dct_quantizer.md
R220; log 13). -/
def fdiv (x y : Binary64) : Binary64 := f64OfUnits (f64Neg x ^^ f64Neg y) (f64Units x * f64One) (f64Units y)

/-- The integer nearest `num / den`, the magnitude rounded and the sign kept (R16). -/
def roundInt (mode : TieMode) (num : Int) (den : Nat) : Int :=
  if num < 0 then -(roundNat mode num.natAbs den : Int) else roundNat mode num.natAbs den

/-- `rnd(d)` of a finite value (R16). -/
def rnd (mode : TieMode) (x : Binary64) : Int := roundInt mode (f64Int x) f64One

/-- `clip(v, lo, hi)` (R17). -/
def clip (v lo hi : Int) : Int := if v < lo then lo else if hi < v then hi else v

/-- `toSample(v)` of a finite value: `rnd(clip(v, 0, 255))`, clipped in units of `2 ^ -1074` (44_dct_engine.md R263). -/
def toSample (mode : TieMode) (x : Binary64) : Byte :=
  BitVec.ofInt 8 (roundInt mode (clip (f64Int x) 0 (255 * f64One)) f64One)

end Sys2Proof.Machine
end

