-- ==== Sys2Proof/Machine/Quantizer.lean ====
section
/-! DEFINITION. The DCT quantizer and configuration: the commands DCT.CONFIG, QEMBED, QEXTRACT
(spec/43_dct_quantizer.md). -/

namespace Sys2Proof.Machine

/-- `quant(c, q)` for a finite coefficient and `q >= 1` (R220). -/
def quant (mode : TieMode) (c : Binary64) (q : Int) : Int := rnd mode (fdiv c (fp q))

/-- `parity(n)`, 0 or 1 for negative `n` too (R221). -/
def parity (n : Int) : Nat := (n % 2).toNat

/-- `adjust(n, b)` (R222). -/
def adjust (pa : ParityAdjust) (n : Int) (b : Nat) : Int :=
  if parity n = b then n
  else match pa with
    | .setLsb => if parity n = 1 then n - 1 else n + 1
    | .alwaysDown => n - 1

/-- `embedBitInCoefficient(c, b, q)` (R223). -/
def embedBitInCoefficient (p : Params) (c : Binary64) (b : Nat) (q : Int) : Binary64 :=
  fp (adjust p.parityAdjust (quant p.tieMode c q) b * q)

/-- `extractBitFromCoefficient(c, q)` (R224). -/
def extractBitFromCoefficient (p : Params) (c : Binary64) (q : Int) : Nat := parity (quant p.tieMode c q)

/-- `pos(k, B)`: row and column of the target coefficient, (0, 0) redirected to (0, 1) (R225). -/
def coefPos (k b : Nat) : Nat × Nat := if (k / b, k % b) = (0, 0) then (0, 1) else (k / b, k % b)

/-- The checks of DCT.CONFIG: block size, coefficient, factor (R226). -/
def parameterError (p : Params) (o : Snapshot) : Option CmdError :=
  if o.regs.blockSize = 0 ∨ o.regs.blockSize &&& (o.regs.blockSize - 1) ≠ 0 ∨ p.maxBlock < o.regs.blockSize.toNat then
    some ⟨.invalidParameter, 1, o.regs.blockSize⟩
  else if o.regs.coefIndex.toNat < 1 ∨ o.regs.blockSize.toNat * o.regs.blockSize.toNat - 1 < o.regs.coefIndex.toNat then
    some ⟨.invalidParameter, 2, o.regs.coefIndex⟩
  else if s32 o.regs.quant ≤ 0 then some ⟨.invalidParameter, 3, o.regs.quant⟩
  else none

/-- DCT.CONFIG (R226). -/
def dctConfig (p : Params) (o : Snapshot) : CmdResult :=
  unlessError (parameterError p o)
    { config := some ⟨o.regs.blockSize, o.regs.coefIndex, o.regs.quant⟩ }

/-- The binary64 operand in ARG1:ARG0 (10_state.md R48). -/
def coefOperand (o : Snapshot) : Binary64 := f64OfWords o.regs.arg1 o.regs.arg0

/-- A non-positive factor in ARG3 (R230, R232). -/
def factorError (o : Snapshot) : Option CmdError :=
  if s32 o.regs.arg3 ≤ 0 then some ⟨.invalidOperand, 3, o.regs.arg3⟩ else none

/-- A NaN or infinite value, reported as the pair ARG1:ARG0 (R230, R232). -/
def finiteError (o : Snapshot) (x : Binary64) : Option CmdError :=
  if f64Finite x = false then some ⟨.invalidOperand, 0, o.regs.arg1⟩ else none

/-- What QEMBED computes (R230). -/
def qembedValue (p : Params) (o : Snapshot) : Binary64 :=
  embedBitInCoefficient p (coefOperand o) o.regs.arg2.toNat (s32 o.regs.arg3)

/-- The checks of QEMBED in R230's order. -/
def qembedError (p : Params) (o : Snapshot) : Option CmdError :=
  (if 1 < o.regs.arg2.toNat then some ⟨.invalidOperand, 2, o.regs.arg2⟩ else none).or <|
  (factorError o).or <|
  (finiteError o (coefOperand o)).or <|
  finiteError o (qembedValue p o)

/-- QEMBED (R230). -/
def qembed (p : Params) (o : Snapshot) : CmdResult :=
  unlessError (qembedError p o)
    { result0 := f64Low (qembedValue p o), result1 := f64High (qembedValue p o) }

/-- QEXTRACT (R232). -/
def qextract (p : Params) (o : Snapshot) : CmdResult :=
  unlessError ((factorError o).or (finiteError o (coefOperand o)))
    { result0 := wordOf (extractBitFromCoefficient p (coefOperand o) (s32 o.regs.arg3)) }

/-- The meaning of DCT.CONFIG. -/
def execDctConfig (s : State) : Host.Outcome State Fault Refusal :=
  perform Config.params .dctConfig (fun o _ => dctConfig Config.params o) s

/-- The meaning of QEMBED. -/
def execQembed (s : State) : Host.Outcome State Fault Refusal :=
  perform Config.params .qembed (fun o _ => qembed Config.params o) s

/-- The meaning of QEXTRACT. -/
def execQextract (s : State) : Host.Outcome State Fault Refusal :=
  perform Config.params .qextract (fun o _ => qextract Config.params o) s

end Sys2Proof.Machine
end

