-- ==== Sys2Proof/Machine/Dct.lean ====
section
/-! DEFINITION. The DCT Engine: the commands DCT.EMBED and DCT.EXTRACT (spec/44_dct_engine.md). -/

namespace Sys2Proof.Machine

/-- The active block size `B` of the snapshot. -/
def blockSize (o : Snapshot) : Nat := o.act.blockSize.toNat

/-- The active factor `q` of the snapshot. -/
def quantFactor (o : Snapshot) : Int := s32 o.act.quant

/-- The target position `(u*, v*)` (43_dct_quantizer.md R225). -/
def targetPos (o : Snapshot) : Nat × Nat := coefPos o.act.coefIndex.toNat (blockSize o)

/-- The entry of a matrix at a position; 0 outside it, which a legal configuration never asks for (43_dct_quantizer.md R225,
log 10). -/
def entryAt {B : Nat} (M : BlockMatrix B) (uv : Nat × Nat) : Binary64 :=
  if h : uv.1 < B ∧ uv.2 < B then M ⟨uv.1, h.1⟩ ⟨uv.2, h.2⟩ else 0

/-- The matrix with the entry at a position replaced. -/
def setEntry {B : Nat} (M : BlockMatrix B) (uv : Nat × Nat) (x : Binary64) : BlockMatrix B :=
  fun u v => if (u.val, v.val) = uv then x else M u v

/-- The block that covers sample `(y, x)`, in scan order (R260). -/
def blockIndex (o : Snapshot) (y x : Nat) : Nat := (y / blockSize o) * blockCols o + x / blockSize o

/-- A block of samples as the collaborator receives it: each converted to binary64, no offset subtracted (R262). -/
def ofSamples {B : Nat} (X : Fin B → Fin B → Byte) : BlockMatrix B := fun u v => fp (X u v).toNat

/-- The block matrix `M_i` of the channel at SRC_ADDR (R262; the address by 20_memory.md R84). -/
def blockMatrix (o : Snapshot) (m : Memory) (i : Nat) : BlockMatrix (blockSize o) :=
  ofSamples fun u v => memRead m (o.regs.srcAddr.toNat + ((i / blockCols o) * blockSize o + u) * width o +
    ((i % blockCols o) * blockSize o + v))

/-- Every entry of a matrix is finite. -/
def allFinite {B : Nat} (M : BlockMatrix B) : Bool :=
  (List.finRange B).all fun u => (List.finRange B).all fun v => f64Finite (M u v)

/-- The target coefficient `C[u*][v*]` of a block (R264). -/
def targetCoef (p : Params) {B : Nat} (uv : Nat × Nat) (M : BlockMatrix B) : Binary64 := entryAt (p.fwd2D B M) uv

/-- `C'`, what the inverse transform is given: the forward transform, with the target coefficient replaced if the block
carries a bit (R264, R265). -/
def blockCoefs (p : Params) {B : Nat} (uv : Nat × Nat) (q : Int) (M : BlockMatrix B) (bit : Option Bool) :
    BlockMatrix B :=
  match bit with
  | none => p.fwd2D B M
  | some b => setEntry (p.fwd2D B M) uv (embedBitInCoefficient p (targetCoef p uv M) b.toNat q)

/-- `O`, the inverse transform of a block's coefficients (R264, R265). -/
def blockOutput (p : Params) {B : Nat} (uv : Nat × Nat) (q : Int) (M : BlockMatrix B) (bit : Option Bool) :
    BlockMatrix B :=
  p.inv2D B (blockCoefs p uv q M bit)

/-- The samples `embedBlock(M, b)` (a bit) or `passBlock(M)` (no bit) returns (R264, R265). -/
def blockSamples (p : Params) {B : Nat} (uv : Nat × Nat) (q : Int) (M : BlockMatrix B) (bit : Option Bool) :
    Fin B → Fin B → Byte :=
  fun u v => toSample p.tieMode (blockOutput p uv q M bit u v)

/-- A bit-carrying block's target coefficient, or its re-quantized value, is not finite: `fault(forward)` (R264; log 14). -/
def forwardFault (p : Params) {B : Nat} (uv : Nat × Nat) (q : Int) (M : BlockMatrix B) (bit : Option Bool) : Bool :=
  match bit with
  | none => false
  | some b => !f64Finite (targetCoef p uv M) || !f64Finite (embedBitInCoefficient p (targetCoef p uv M) b.toNat q)

/-- The fault of block `i` of DCT.EMBED, forward before inverse (R264, R265, R268). -/
def embedBlockFault (p : Params) {B : Nat} (uv : Nat × Nat) (q : Int) (i : Nat) (M : BlockMatrix B)
    (bit : Option Bool) : Option CmdError :=
  if forwardFault p uv q M bit then some ⟨.collaboratorFault, wordOf i, 0⟩
  else if allFinite (blockOutput p uv q M bit) then none
  else some ⟨.collaboratorFault, wordOf i, 1⟩

/-- The bit sequence DCT.EMBED embeds: the message and its terminator (R266). -/
def framedBits (o : Snapshot) (m : Memory) : Bits := messageToBits (messageOf o m ++ [0])

/-- How many bits are embedded: those beyond the blocks are dropped (R266, R272). -/
def embeddedCount (o : Snapshot) : Nat := min (Config.charWidth * (o.regs.msgLen.toNat + 1)) (blockCount o)

/-- The bit block `i` carries, if any (R266). -/
def bitOfBlock (o : Snapshot) (m : Memory) (i : Nat) : Option Bool :=
  if i < embeddedCount o then (framedBits o m)[i]? else none

/-- COLLABORATOR_FAULT for the smallest block that faults (R268). -/
def embedCollaboratorError (p : Params) (o : Snapshot) (m : Memory) : Option CmdError :=
  (List.range (blockCount o)).findSome? fun i =>
    embedBlockFault p (targetPos o) (quantFactor o) i (blockMatrix o m i) (bitOfBlock o m i)

/-- A sample of a block by row and column inside it. -/
def sampleAt {B : Nat} (S : Fin B → Fin B → Byte) (u v : Nat) : Byte :=
  if h : u < B ∧ v < B then S ⟨u, h.1⟩ ⟨v, h.2⟩ else 0

/-- The output sample at row `y`, column `x`: its block's, or the input sample in the border (R266, R270). -/
def outSample (p : Params) (o : Snapshot) (m : Memory) (y x : Nat) : Byte :=
  if y < blockRows o * blockSize o ∧ x < blockCols o * blockSize o then
    sampleAt (blockSamples p (targetPos o) (quantFactor o) (blockMatrix o m (blockIndex o y x))
      (bitOfBlock o m (blockIndex o y x))) (y % blockSize o) (x % blockSize o)
  else memRead m (o.regs.srcAddr.toNat + y * width o + x)

/-- The output channel in the raster order of its own shape (R266). -/
def outChannel (p : Params) (o : Snapshot) (m : Memory) : List Byte :=
  (List.range (outRows p o * outCols p o)).map fun j => outSample p o m (j / outCols p o) (j % outCols p o)

/-- The DCT capacity of the snapshot's channel (41_capacity.md R174). -/
def dctCap (o : Snapshot) : Nat := capDct (height o) (width o) (blockSize o)

/-- The checks of DCT.EMBED in R266's order. -/
def dctEmbedError (p : Params) (o : Snapshot) (m : Memory) : Option CmdError :=
  (configError o).or <|
  (dctShapeError p o).or <|
  (regionError p (regionsOf p .dctEmbed o)).or <|
  (capacityError o (dctCap o)).or <|
  (characterError (messageOf o m)).or <|
  embedCollaboratorError p o m

/-- DCT.EMBED (R266). -/
def dctEmbed (p : Params) (o : Snapshot) (m : Memory) : CmdResult :=
  unlessError (dctEmbedError p o m)
    { base := o.regs.dstAddr.toNat
      bytes := outChannel p o m
      result0 := wordOf (embeddedCount o)
      result1 := wordOf (dctCap o)
      outDim0 := wordOf (outRows p o)
      outDim1 := wordOf (outCols p o) }

/-- The target coefficient of block `i` as DCT.EXTRACT reads it (R274). -/
def blockTarget (p : Params) (o : Snapshot) (m : Memory) (i : Nat) : Binary64 :=
  targetCoef p (targetPos o) (blockMatrix o m i)

/-- COLLABORATOR_FAULT for the smallest block with a non-finite target coefficient, every block transformed (R276). -/
def extractCollaboratorError (p : Params) (o : Snapshot) (m : Memory) : Option CmdError :=
  (List.range (blockCount o)).findSome? fun i =>
    if f64Finite (blockTarget p o m i) = false then some ⟨.collaboratorFault, wordOf i, 0⟩ else none

/-- The bits of all blocks in scan order (R274). -/
def blockBits (p : Params) (o : Snapshot) (m : Memory) : Bits :=
  (List.range (blockCount o)).map fun i => extractBitFromCoefficient p (blockTarget p o m i) (quantFactor o) == 1

/-- DCT.EXTRACT (R274). -/
def dctExtract (p : Params) (o : Snapshot) (m : Memory) : CmdResult :=
  unlessError
    ((configError o).or <| (dctShapeError p o).or <| (regionError p (regionsOf p .dctExtract o)).or <|
      extractCollaboratorError p o m)
    (storeMessage o.regs.msgAddr.toNat o.regs.msgLen.toNat (bitsToMessage (blockBits p o m)))

/-- The meaning of DCT.EMBED. -/
def execDctEmbed (s : State) : Host.Outcome State Fault Refusal :=
  perform Config.params .dctEmbed (dctEmbed Config.params) s

/-- The meaning of DCT.EXTRACT. -/
def execDctExtract (s : State) : Host.Outcome State Fault Refusal :=
  perform Config.params .dctExtract (dctExtract Config.params) s

end Sys2Proof.Machine
end

