-- ==== Sys2Proof/Machine/HostPort.lean ====
section
/-! DEFINITION. The host register port, the host's accesses to data memory and the host program (spec/10_state.md R31 to R33,
R40 to R53; 20_memory.md R97, R98; 30_encoding.md R122 to R125). -/

namespace Sys2Proof.Machine

/-! ### Register map -/

/-- The offset of a register in the window (R40). -/
def regOffset : Reg → Nat
  | .id => 0x00
  | .ctrl => 0x04
  | .status => 0x08
  | .cmd => 0x0C
  | .srcAddr => 0x10
  | .dstAddr => 0x14
  | .msgAddr => 0x18
  | .msgLen => 0x1C
  | .bitsAddr => 0x20
  | .bitsLen => 0x24
  | .rank => 0x28
  | .dim0 => 0x2C
  | .dim1 => 0x30
  | .dim2 => 0x34
  | .dim3 => 0x38
  | .blockSize => 0x3C
  | .coefIndex => 0x40
  | .quant => 0x44
  | .actBlockSize => 0x48
  | .actCoefIndex => 0x4C
  | .actQuant => 0x50
  | .arg0 => 0x54
  | .arg1 => 0x58
  | .arg2 => 0x5C
  | .arg3 => 0x60
  | .result0 => 0x64
  | .result1 => 0x68
  | .errInfo0 => 0x6C
  | .errInfo1 => 0x70
  | .outDim0 => 0x74
  | .outDim1 => 0x78

/-- Every register of the map, by offset (R40). -/
def allRegs : List Reg :=
  [.id, .ctrl, .status, .cmd, .srcAddr, .dstAddr, .msgAddr, .msgLen, .bitsAddr, .bitsLen, .rank, .dim0, .dim1, .dim2,
    .dim3, .blockSize, .coefIndex, .quant, .actBlockSize, .actCoefIndex, .actQuant, .arg0, .arg1, .arg2, .arg3,
    .result0, .result1, .errInfo0, .errInfo1, .outDim0, .outDim1]

/-- The register at an offset; none at the reserved offset 0x7C (R40). -/
def regAt (offset : Nat) : Option Reg := allRegs.find? fun r => regOffset r == offset

/-- The bus address of an offset of the window (R31). -/
def busAddress (p : Params) (offset : Nat) : Nat := p.regBase + offset

/-- What a read of a register returns (R33, R40 to R53). -/
def readReg (p : Params) (s : State) : Reg → Word
  | .id => p.idValue
  | .ctrl => ctrlWord s
  | .status => statusWord (isBusy s) s.status
  | .cmd => 0
  | .srcAddr => s.regs.srcAddr
  | .dstAddr => s.regs.dstAddr
  | .msgAddr => s.regs.msgAddr
  | .msgLen => s.regs.msgLen
  | .bitsAddr => s.regs.bitsAddr
  | .bitsLen => s.regs.bitsLen
  | .rank => s.regs.rank
  | .dim0 => s.regs.dim0
  | .dim1 => s.regs.dim1
  | .dim2 => s.regs.dim2
  | .dim3 => s.regs.dim3
  | .blockSize => s.regs.blockSize
  | .coefIndex => s.regs.coefIndex
  | .quant => s.regs.quant
  | .actBlockSize => s.act.blockSize
  | .actCoefIndex => s.act.coefIndex
  | .actQuant => s.act.quant
  | .arg0 => s.regs.arg0
  | .arg1 => s.regs.arg1
  | .arg2 => s.regs.arg2
  | .arg3 => s.regs.arg3
  | .result0 => s.result0
  | .result1 => s.result1
  | .errInfo0 => s.errInfo0
  | .errInfo1 => s.errInfo1
  | .outDim0 => s.outDim0
  | .outDim1 => s.outDim1

/-- What a write to a register does: RW registers take the value, RO ones ignore it, CTRL may reset, STATUS clears, CMD issues
or overruns (R33, R40, R42, R43, R53; 60_exceptions.md R300, R304; 70_reset_and_hazards.md R351). -/
def writeReg (p : Params) (s : State) (r : Reg) (v : Word) : State :=
  match r with
  | .ctrl => if v.getLsbD 0 then resetMachine p s else { s with irqEn := v.getLsbD 1 }
  | .status => { s with status := statusWrite v s.status }
  | .cmd => if isBusy s then overrun s else issue s v
  | .srcAddr => { s with regs := { s.regs with srcAddr := v } }
  | .dstAddr => { s with regs := { s.regs with dstAddr := v } }
  | .msgAddr => { s with regs := { s.regs with msgAddr := v } }
  | .msgLen => { s with regs := { s.regs with msgLen := v } }
  | .bitsAddr => { s with regs := { s.regs with bitsAddr := v } }
  | .bitsLen => { s with regs := { s.regs with bitsLen := v } }
  | .rank => { s with regs := { s.regs with rank := v } }
  | .dim0 => { s with regs := { s.regs with dim0 := v } }
  | .dim1 => { s with regs := { s.regs with dim1 := v } }
  | .dim2 => { s with regs := { s.regs with dim2 := v } }
  | .dim3 => { s with regs := { s.regs with dim3 := v } }
  | .blockSize => { s with regs := { s.regs with blockSize := v } }
  | .coefIndex => { s with regs := { s.regs with coefIndex := v } }
  | .quant => { s with regs := { s.regs with quant := v } }
  | .arg0 => { s with regs := { s.regs with arg0 := v } }
  | .arg1 => { s with regs := { s.regs with arg1 := v } }
  | .arg2 => { s with regs := { s.regs with arg2 := v } }
  | .arg3 => { s with regs := { s.regs with arg3 := v } }
  | .id => s
  | .actBlockSize => s
  | .actCoefIndex => s
  | .actQuant => s
  | .result0 => s
  | .result1 => s
  | .errInfo0 => s
  | .errInfo1 => s
  | .outDim0 => s
  | .outDim1 => s

/-! ### Transactions -/

/-- The host has seen BUSY = 0 or taken the interrupt: every earlier command's exclusion window is over (20_memory.md R97,
R98). -/
def observeIdle (s : State) : State := { s with unobserved := [] }

/-- What reading a register does beside returning its value: STATUS read with BUSY = 0 is an observation
(20_memory.md R97); no other read has an effect. -/
def afterRead (s : State) (r : Reg) : State :=
  if r = .status ∧ isBusy s = false then observeIdle s else s

/-- Why a register transaction is none of this block's (R31, R32), if it is not. -/
def transactionRefusal (width offset : Nat) : Option Refusal :=
  if width ≠ 32 ∨ offset % 4 ≠ 0 then some .badTransaction
  else if 0x7C < offset then some .outsideWindow
  else none

/-- The value a read transaction returns: 0 at the reserved offset (R33). -/
def readAt (p : Params) (s : State) (offset : Nat) : Word :=
  match regAt offset with
  | some r => readReg p s r
  | none => 0

/-- The state after a read transaction. -/
def readEffect (s : State) (offset : Nat) : State :=
  match regAt offset with
  | some r => afterRead s r
  | none => s

/-- The state after a write transaction: ignored at the reserved offset (R33). -/
def writeAt (p : Params) (s : State) (offset : Nat) (v : Word) : State :=
  match regAt offset with
  | some r => writeReg p s r v
  | none => s

/-! ### Host accesses to data memory -/

/-- The host touches a byte it must stay off (20_memory.md R98): the command in progress will leave any bytes in its output
regions, and every finished command whose window is still open leaves any bytes in its own at once. `hits` says whether a
command with the given regions is interfered with. -/
def interfere (p : Params) (hits : List Region → Bool) (s : State) : State :=
  let s := match s.engine with
    | .idle => s
    | .busy job => { s with engine := .busy { job with raced := job.raced || hits (jobRegions p job) } }
  if s.unobserved.any hits then scramble p ((s.unobserved.filter hits).flatMap outputAddrs) s else s

/-- A host write of one byte; a byte of any region of a command still in its window is a race (20_memory.md R98). -/
def hostStore (p : Params) (s : State) (a : Nat) (b : Byte) : State :=
  interfere p (touches · a) { s with mem := memWrite s.mem a b }

/-- The address is in an output region the host must not read (20_memory.md R98; 70_reset_and_hazards.md R362). -/
def readForbidden (p : Params) (s : State) (a : Nat) : Bool :=
  (match s.engine with
    | .idle => false
    | .busy job => touchesOutput (jobRegions p job) a) || s.unobserved.any (touchesOutput · a)

/-- The byte a host read returns: any value in a forbidden output region (20_memory.md R98). -/
def hostLoadValue (p : Params) (s : State) (a : Nat) : Byte :=
  if readForbidden p s a then Config.freeByte s.freeCount a else memRead s.mem a

/-- What a host read does beside returning a value: nothing, unless it is forbidden; then it has drawn a free byte and
interfered (20_memory.md R98). -/
def hostLoadEffect (p : Params) (s : State) (a : Nat) : State :=
  if readForbidden p s a then interfere p (touchesOutput · a) { s with freeCount := s.freeCount + 1 } else s

/-! ### Host program -/

/-- The host moves on to its next statement (30_encoding.md R125). -/
def advance (s : State) : State := { s with host := { s.host with pc := s.host.pc + 1 } }

/-- The host's statement index is set (30_encoding.md R125). -/
def jump (target : Nat) (s : State) : State := { s with host := { s.host with pc := target } }

/-- A host variable is assigned (30_encoding.md R122). -/
def assign (x : Nat) (v : Word) (s : State) : State :=
  { s with host := { s.host with vars := tableSet s.host.vars x v } }

/-- The value of a host value (30_encoding.md R122). -/
def hostValue (s : State) : HostVal → Option Word
  | .lit v => some v
  | .var x => tableGet s.host.vars x

/-- One host statement as one step (30_encoding.md R122, R123; log 15). -/
def hostExec (p : Params) (st : HostStmt) (s : State) : Host.Outcome State Fault Refusal :=
  match st with
  | .wr width offset v =>
    match transactionRefusal width offset with
    | some r => .refused r
    | none =>
      match hostValue s v with
      | none => .refused .unassignedHostVar
      | some w => .next (advance (writeAt p s offset w))
  | .rd width offset x =>
    match transactionRefusal width offset with
    | some r => .refused r
    | none => .next (advance (assign x (readAt p s offset) (readEffect s offset)))
  | .wait x =>
    if isBusy s then .next (assign x (readReg p s .status) s)
    else .next (advance (assign x (readReg p s .status) (observeIdle s)))
  | .waitIrq => if irq s then .next (advance (observeIdle s)) else .next s
  | .branchIf x bit target =>
    match tableGet s.host.vars x with
    | none => .refused .unassignedHostVar
    | some v => .next (if v.getLsbD bit then jump target s else advance s)
  | .store a b =>
    if addressExists p a then .next (advance (hostStore p s a b)) else .fault .absentAddress
  | .load a x =>
    if addressExists p a then
      .next (advance (assign x ((hostLoadValue p s a).setWidth 32) (hostLoadEffect p s a)))
    else .fault .absentAddress
  | .resetPin => .next (advance (resetMachine p s))

/-- The host's turn: its next statement, or nothing at the end of its program. -/
def hostStep (p : Params) (s : State) : Host.Outcome State Fault Refusal :=
  match s.host.program[s.host.pc]? with
  | none => .next s
  | some st => hostExec p st s

/-! ### Pseudo-instructions (30_encoding.md R123) -/

/-- `WR <REG>, <value>`. -/
def stmtWr (r : Reg) (v : Word) : HostStmt := .wr 32 (regOffset r) (.lit v)

/-- `RD <REG> -> x`. -/
def stmtRd (r : Reg) (x : Nat) : HostStmt := .rd 32 (regOffset r) x

/-- `CMD <MNEMONIC>` = `WR CMD, <word>`. -/
def stmtCmd (i : Instr) : HostStmt := stmtWr .cmd (encode i)

/-- `ACK` = `WR STATUS, 0x00000026`. -/
def stmtAck : HostStmt := stmtWr .status 0x00000026

/-- `SETF64 <value>`: ARG0 the low word, ARG1 the high word. -/
def stmtSetF64 (x : Binary64) : List HostStmt := [stmtWr .arg0 (f64Low x), stmtWr .arg1 (f64High x)]

/-- `SETSHAPE2 <H>, <W>`. -/
def stmtSetShape2 (h w : Word) : List HostStmt := [stmtWr .rank 2, stmtWr .dim0 h, stmtWr .dim1 w]

/-- A bus transaction `(kind, offset, value)`: a write, or a read (30_encoding.md R124). -/
abbrev BusTransaction := Bool × Nat × Word

/-- The transaction a statement puts on the bus, if it is one, with the value written or read in the given state
(30_encoding.md R124). One that `hostExec` refuses is none of this block's. -/
def busTransaction (p : Params) (s : State) : HostStmt → Option BusTransaction
  | .wr width offset v =>
    match transactionRefusal width offset with
    | some _ => none
    | none => (hostValue s v).map fun w => (true, offset, w)
  | .rd width offset _ =>
    match transactionRefusal width offset with
    | some _ => none
    | none => some (false, offset, readAt p s offset)
  | .wait _ => some (false, regOffset .status, readReg p s .status)
  | .waitIrq => none
  | .branchIf _ _ _ => none
  | .store _ _ => none
  | .load _ _ => none
  | .resetPin => none

end Sys2Proof.Machine
end

