-- ==== Sys2Proof/Machine/Lsb.lean ====
section
/-! DEFINITION. The LSB Engine: the commands LSB.EMBED and LSB.EXTRACT (spec/42_lsb.md). -/

namespace Sys2Proof.Machine

/-- `lsbEmbedSamples(s, bits)`: bit 0 of every sample cleared, the bits added to the first samples (R190). -/
def lsbEmbedSamples : List Byte → Bits → List Byte
  | [], _ => []
  | x :: xs, [] => (x &&& 0xFE) :: lsbEmbedSamples xs []
  | x :: xs, b :: bs => ((x &&& 0xFE) + BitVec.ofNat 8 b.toNat) :: lsbEmbedSamples xs bs

/-- `lsbExtractBits(s)`: each sample modulo 2 (R192). -/
def lsbExtractBits (s : List Byte) : Bits := s.map fun x => x.toNat % 2 == 1

/-- The channel's samples in raster order (20_memory.md R83). -/
def samplesOf (o : Snapshot) (m : Memory) : List Byte := memReadBytes m o.regs.srcAddr.toNat (sampleCount o)

/-- The second capacity check, bits against samples (R194). -/
def bitBudgetError (o : Snapshot) : Option CmdError :=
  if sampleCount o < Config.charWidth * o.regs.msgLen.toNat then
    some ⟨.capacityExceededBits, wordOf (min (Config.charWidth * o.regs.msgLen.toNat) (2 ^ 32 - 1)),
      wordOf (sampleCount o)⟩
  else none

/-- The checks of LSB.EMBED in R200's order. -/
def lsbEmbedError (p : Params) (o : Snapshot) (m : Memory) : Option CmdError :=
  (shapeError p o).or <|
  (regionError p (regionsOf p .lsbEmbed o)).or <|
  (capacityError o (capLsb (sampleCount o))).or <|
  (characterError (messageOf o m)).or <|
  bitBudgetError o

/-- LSB.EMBED (R200). -/
def lsbEmbed (p : Params) (o : Snapshot) (m : Memory) : CmdResult :=
  unlessError (lsbEmbedError p o m)
    { base := o.regs.dstAddr.toNat
      bytes := lsbEmbedSamples (samplesOf o m) (messageToBits (messageOf o m))
      result0 := wordOf (Config.charWidth * o.regs.msgLen.toNat)
      result1 := wordOf (capLsb (sampleCount o)) }

/-- LSB.EXTRACT (R203). -/
def lsbExtract (p : Params) (o : Snapshot) (m : Memory) : CmdResult :=
  unlessError ((shapeError p o).or (regionError p (regionsOf p .lsbExtract o)))
    (storeMessage o.regs.msgAddr.toNat o.regs.msgLen.toNat (bitsToMessage (lsbExtractBits (samplesOf o m))))

/-- The meaning of LSB.EMBED. -/
def execLsbEmbed (s : State) : Host.Outcome State Fault Refusal :=
  perform Config.params .lsbEmbed (lsbEmbed Config.params) s

/-- The meaning of LSB.EXTRACT. -/
def execLsbExtract (s : State) : Host.Outcome State Fault Refusal :=
  perform Config.params .lsbExtract (lsbExtract Config.params) s

end Sys2Proof.Machine
end

