-- ==== Sys2Proof/Machine/Build.lean ====
section
/-! DEFINITION. The machine as a function of its build parameters: "the model takes the parameters below as arguments"
(spec/00_scope.md R8). `step` of Step.lean is this machine at `Config.params`, its commands dispatched by `exec`. -/

namespace Sys2Proof.Machine

/-! ### Commands -/

/-- What each command computes from its snapshot and the data memory, in the given build. -/
def command (p : Params) (i : Instr) : Snapshot → Memory → CmdResult :=
  match i with
  | .lsbEmbed => lsbEmbed p
  | .lsbExtract => lsbExtract p
  | .lsbCapacity => fun o _ => lsbCapacity p o
  | .c2b => fun o _ => c2b o
  | .b2c => fun o _ => b2c o
  | .m2b => m2b p
  | .b2m => b2m p
  | .qembed => fun o _ => qembed p o
  | .qextract => fun o _ => qextract p o
  | .dctEmbed => dctEmbed p
  | .dctExtract => dctExtract p
  | .dctCapacity => fun o _ => dctCapacity p o
  | .dctConfig => fun o _ => dctConfig p o

/-- The meaning of a command in the given build; `exec` is the one of `Config.params`. -/
def execIn (p : Params) (i : Instr) (s : State) : Host.Outcome State Fault Refusal := perform p i (command p i) s

/-! ### The step -/

/-- Who moves next: the head of the schedule; once it is empty a BUSY engine, so that every issued command completes
(60_exceptions.md R305), else the host (log 4). -/
def nextAgent (s : State) : Agent :=
  match s.turns with
  | a :: _ => a
  | [] => if isBusy s then .engine else .host

/-- The turn is used up. -/
def takeTurn (s : State) : State := { s with turns := s.turns.tail }

/-- The engine's turn, the commands' meanings given: the recorded command is performed; an IDLE engine does nothing
(60_exceptions.md R301, R332). -/
def engineStepWith (p : Params) (run : Instr → State → Host.Outcome State Fault Refusal) (s : State) :
    Host.Outcome State Fault Refusal :=
  match fetch s with
  | none => .next s
  | some w =>
    match decode w with
    | .instr i => run i s
    | .reject _ => performIllegal p s

/-- One step, the commands' meanings given: the next agent takes its turn (00_scope.md R7). -/
def stepWith (p : Params) (run : Instr → State → Host.Outcome State Fault Refusal) (s : State) :
    Host.Outcome State Fault Refusal :=
  match nextAgent s with
  | .engine => engineStepWith p run (takeTurn s)
  | .host => hostStep p (takeTurn s)

/-- One step of the machine in the given build. -/
def stepIn (p : Params) (s : State) : Host.Outcome State Fault Refusal := stepWith p (execIn p) s

/-- The machine in the given build; every build has the same state after reset, ID apart, which no field holds (R41). -/
def coreIn (p : Params) : Host.Core where
  State := State
  Fault := Fault
  Refusal := Refusal
  step := stepIn p
  reset := State.reset

/-! ### The encoding of a host program (30_encoding.md R124) -/

/-- The transaction the next step puts on the bus: the host's, if it is its turn. -/
def stepTransaction (p : Params) (s : State) : Option BusTransaction :=
  match nextAgent s with
  | .engine => none
  | .host => (s.host.program[s.host.pc]?).bind (busTransaction p s)

/-- The next step is a poll of a WAIT that sees BUSY = 1, which 95_test_vectors.md section 10 does not show. -/
def isPoll (s : State) : Bool :=
  match s.host.program[s.host.pc]? with
  | some (.wait _) => isBusy s
  | _ => false

/-- The transactions of the first `k` steps that `shown` picks, in program order, up to the first step that stops. -/
def transactions (p : Params) (shown : State → Bool) : Nat → State → List BusTransaction
  | 0, _ => []
  | k + 1, s =>
    (if shown s then (stepTransaction p s).toList else []) ++
      match stepIn p s with
      | .next t => transactions p shown k t
      | .fault _ => []
      | .refused _ => []

/-- The list of bus transactions of the host program over `k` steps, every poll of a WAIT included. -/
def busTrace (p : Params) : Nat → State → List BusTransaction := transactions p fun _ => true

/-- The same list as 95_test_vectors.md gives it: a WAIT is its final read. -/
def encodingOf (p : Params) : Nat → State → List BusTransaction := transactions p fun s => !isPoll s

end Sys2Proof.Machine
end

