-- ==== Sys2Proof/Machine/Dispatch.lean ====
section
/-! DEFINITION. One arm per command: each is one direct call of its meaning. -/

namespace Sys2Proof.Machine

def exec (i : Instr) (s : State) : Host.Outcome State Fault Refusal :=
  match i with
  | .lsbEmbed => Sys2Proof.Machine.execLsbEmbed s
  | .lsbExtract => Sys2Proof.Machine.execLsbExtract s
  | .lsbCapacity => Sys2Proof.Machine.execLsbCapacity s
  | .c2b => Sys2Proof.Machine.execC2b s
  | .b2c => Sys2Proof.Machine.execB2c s
  | .m2b => Sys2Proof.Machine.execM2b s
  | .b2m => Sys2Proof.Machine.execB2m s
  | .qembed => Sys2Proof.Machine.execQembed s
  | .qextract => Sys2Proof.Machine.execQextract s
  | .dctEmbed => Sys2Proof.Machine.execDctEmbed s
  | .dctExtract => Sys2Proof.Machine.execDctExtract s
  | .dctCapacity => Sys2Proof.Machine.execDctCapacity s
  | .dctConfig => Sys2Proof.Machine.execDctConfig s

end Sys2Proof.Machine
end

