-- ==== Sys2Proof/Machine/Step.lean ====
section
/-! DEFINITION. The step of the machine: `stepWith` of Build.lean at the default build, its commands dispatched by `exec`
(spec/00_scope.md R7; 60_exceptions.md R301, R305). -/

namespace Sys2Proof.Machine

/-- The engine's turn. -/
def engineStep (s : State) : Host.Outcome State Fault Refusal := engineStepWith Config.params exec s

/-- One step. -/
def step (s : State) : Host.Outcome State Fault Refusal := stepWith Config.params exec s

/-- `s` just after the host has issued the word, with the engine to move: the issue is where a command word comes from, there
is no program counter (10_state.md R49, R53; log 3). -/
def State.withFetchWord (s : State) (nbits w : Nat) : State :=
  { issue s (tableWord nbits w) with turns := .engine :: s.turns }

end Sys2Proof.Machine
end

