-- ==== Sys2Proof/Safety.lean ====
section
/-! DEFINITION. What claims are stated in terms of: the invariant of the machine, race-free states, and the named assumptions
about the transform collaborator, which are hypotheses and never facts of the machine (spec/44_dct_engine.md R282,
10_state.md R39). -/

namespace Sys2Proof.Machine

/-- The source's invariant of a DCT configuration (10_state.md R47). -/
structure LegalConfig (p : Params) (c : DctConfig) : Prop where
  powerOfTwo : ∃ n, c.blockSize.toNat = 2 ^ n
  blockBound : c.blockSize.toNat ≤ p.maxBlock
  coefLow : 1 ≤ c.coefIndex.toNat
  coefHigh : c.coefIndex.toNat ≤ c.blockSize.toNat * c.blockSize.toNat - 1
  factorPositive : 1 ≤ s32 c.quant

/-- While BUSY every result, DONE, ERR, OUTBUF_FULL and ERR_CODE read 0 (70_reset_and_hazards.md R361). -/
structure ResultsClear (s : State) : Prop where
  done : s.status.done = false
  err : s.status.err = false
  outbufFull : s.status.outbufFull = false
  errCode : s.status.errCode = .none
  result0 : s.result0 = 0
  result1 : s.result1 = 0
  errInfo0 : s.errInfo0 = 0
  errInfo1 : s.errInfo1 = 0
  outDim0 : s.outDim0 = 0
  outDim1 : s.outDim1 = 0

/-- The invariant of the machine: memory and the host's variables in canonical form, never both DONE and ERR, an error only
with a code, nothing to read while BUSY, the ACT registers legal once configured and 0 before, and the snapshot's
configuration the registers' own (10_state.md R43, R47; 70_reset_and_hazards.md R361, R365). -/
structure Inv (s : State) : Prop where
  memCanonical : Memory.wf s.mem = true
  varsCanonical : tableWf s.host.vars = true
  notDoneAndErr : (s.status.done && s.status.err) = false
  errHasCode : s.status.err = true → s.status.errCode ≠ .none
  busyClear : isBusy s = true → ResultsClear s
  configLegal : s.status.dctValid = true → LegalConfig Config.params s.act
  unconfigured : s.status.dctValid = false → s.act = ⟨0, 0, 0⟩
  snapshotConfig : ∀ job, s.engine = .busy job → job.snap.act = s.act ∧ job.snap.dctValid = s.status.dctValid

/-- Every byte of memory that has been written exists (20_memory.md R80, R88). -/
def MemoryExists (s : State) : Prop := ∀ a, (tableGet s.mem a).isSome → addressExists Config.params a = true

/-- The host has kept off the regions of the command in progress (20_memory.md R98). -/
def RaceFree (s : State) : Prop := ∀ job, s.engine = .busy job → job.raced = false

/-- `embedBlock(X, b)` (a bit) or `passBlock(X)` (no bit) returns samples: neither a forward nor an inverse fault
(44_dct_engine.md R264, R265). -/
def BlockReturns (p : Params) {B : Nat} (uv : Nat × Nat) (q : Int) (X : Fin B → Fin B → Byte) (bit : Option Bool) : Prop :=
  forwardFault p uv q (ofSamples X) bit = false ∧ allFinite (blockOutput p uv q (ofSamples X) bit) = true

/-- `ROUNDTRIP_EXACT(B)`: a block passed through returns, and comes back unchanged (44_dct_engine.md R282). -/
def RoundtripExact (p : Params) (B : Nat) : Prop :=
  ∀ (X : Fin B → Fin B → Byte) (uv : Nat × Nat) (q : Int),
    BlockReturns p uv q X none ∧ blockSamples p uv q (ofSamples X) none = X

/-- The target coefficient read back from the samples a block embeds a bit into. -/
def reextracted (p : Params) {B : Nat} (k : Nat) (q : Int) (X : Fin B → Fin B → Byte) (b : Bool) : Binary64 :=
  targetCoef p (coefPos k B) (ofSamples (blockSamples p (coefPos k B) q (ofSamples X) (some b)))

/-- `BIT_SURVIVES(B, k, q, M, b)`: the block returns, its coefficient reads back finite, and the bit extracted from it is the
bit embedded (44_dct_engine.md R282, with R276's finiteness). -/
def BitSurvives (p : Params) {B : Nat} (k : Nat) (q : Int) (X : Fin B → Fin B → Byte) (b : Bool) : Prop :=
  BlockReturns p (coefPos k B) q X (some b) ∧ f64Finite (reextracted p k q X b) = true ∧
    extractBitFromCoefficient p (reextracted p k q X b) q = b.toNat

/-- A matrix of finite entries of magnitude at most `255 * B ^ 2` (44_dct_engine.md R282). -/
def BoundedFinite {B : Nat} (M : BlockMatrix B) : Prop :=
  ∀ u v, f64Finite (M u v) = true ∧ f64Units (M u v) ≤ 255 * B ^ 2 * f64One

/-- `FINITE(B)`: the collaborator returns finite values for bounded finite input (44_dct_engine.md R282). -/
def FiniteResults (p : Params) (B : Nat) : Prop :=
  ∀ M : BlockMatrix B, BoundedFinite M → allFinite (p.fwd2D B M) = true ∧ allFinite (p.inv2D B M) = true

/-- The default collaborator: the orthonormal 2-D DCT-II and its inverse, "evaluated in binary64", here to within `ε` of the
exact sums (10_state.md R39, which gives no evaluation order). -/
def ComputesDct (p : Params) (B : Nat) (ε : ℝ) : Prop :=
  let value : Binary64 → ℝ := fun x => (f64Int x : ℝ) / (f64One : ℝ)
  let a : Fin B → ℝ := fun k => if k.val = 0 then Real.sqrt (1 / B) else Real.sqrt (2 / B)
  let c : Fin B → Fin B → ℝ := fun y u => Real.cos ((2 * y.val + 1) * u.val * Real.pi / (2 * B))
  ∀ M : BlockMatrix B, BoundedFinite M →
    (∀ u v, |value (p.fwd2D B M u v) - a u * a v * ∑ y, ∑ x, value (M y x) * c y u * c x v| ≤ ε) ∧
    (∀ y x, |value (p.inv2D B M y x) - ∑ u, ∑ v, a u * a v * value (M u v) * c y u * c x v| ≤ ε)

end Sys2Proof.Machine
end

