-- ==== Sys2Proof/Certificates/Slice0/Obligations.lean ====
section
/-! DEFINITION. The statements for the provers. The helpers say in the spec's own terms what a completion keeps and writes;
they use the machine's state, its one-byte memory read and `exec`, not its checks. -/

namespace Sys2Proof.Claim

open Sys2Proof.Machine

/-! ### What a completion keeps and writes -/

/-- What no command writes: CTRL, the operand registers, CMD_OVERRUN, the host and the schedule. -/
structure Kept (s t : State) : Prop where
  irqEn : t.irqEn = s.irqEn
  regs : t.regs = s.regs
  cmdOverrun : t.status.cmdOverrun = s.status.cmdOverrun
  host : t.host = s.host
  turns : t.turns = s.turns

/-- The ACT registers and DCT_VALID are unchanged. -/
structure KeepsConfig (s t : State) : Prop where
  act : t.act = s.act
  dctValid : t.status.dctValid = s.status.dctValid

/-- Every byte of memory reads as before. -/
def SameMemory (s t : State) : Prop := ∀ a, memRead t.mem a = memRead s.mem a

/-- Every byte outside the `n` bytes at `base` reads as before. -/
def SameOutside (s t : State) (base n : Nat) : Prop :=
  ∀ a, a < base ∨ base + n ≤ a → memRead t.mem a = memRead s.mem a

/-- Completion without error with the given results (60_exceptions.md R302); what an error writes is unchanged. -/
structure Succeeds (s t : State) (r0 r1 : Word) : Prop where
  kept : Kept s t
  idle : t.engine = .idle
  done : t.status.done = true
  err : t.status.err = s.status.err
  errCode : t.status.errCode = s.status.errCode
  errInfo0 : t.errInfo0 = s.errInfo0
  errInfo1 : t.errInfo1 = s.errInfo1
  result0 : t.result0 = r0
  result1 : t.result1 = r1

/-- What a command that writes only its results leaves alone: the configuration, OUTBUF_FULL and all of memory; OUT_DIM0 and
OUT_DIM1 become 0 (10_state.md R52). -/
structure RegisterOnly (s t : State) : Prop where
  config : KeepsConfig s t
  outbufFull : t.status.outbufFull = s.status.outbufFull
  outDim0 : t.outDim0 = 0
  outDim1 : t.outDim1 = 0
  memory : SameMemory s t

/-- Completion with an error (60_exceptions.md R303, R313): no byte of memory and no other register changes. -/
structure Fails (s t : State) (code : ErrCode) (info0 info1 : Word) : Prop where
  kept : Kept s t
  config : KeepsConfig s t
  idle : t.engine = .idle
  err : t.status.err = true
  errCode : t.status.errCode = code
  errInfo0 : t.errInfo0 = info0
  errInfo1 : t.errInfo1 = info1
  done : t.status.done = s.status.done
  outbufFull : t.status.outbufFull = s.status.outbufFull
  result0 : t.result0 = s.result0
  result1 : t.result1 = s.result1
  outDim0 : t.outDim0 = 0
  outDim1 : t.outDim1 = 0
  memory : SameMemory s t

/-- The command ends with the error. -/
def EndsWith (i : Instr) (s : State) (code : ErrCode) (info0 info1 : Word) : Prop :=
  ∃ t, exec i s = .next t ∧ Fails s t code info0 info1

/-- A decoded message is stored: as many characters as the buffer of `c` bytes at `a` holds, both counts in the results,
OUTBUF_FULL if some did not fit (40_codec.md R156, 42_lsb.md R203, 44_dct_engine.md R274). -/
structure Stores (s t : State) (a c : Nat) (m : List Byte) : Prop where
  ends : Succeeds s t (wordOf (min m.length c)) (wordOf m.length)
  config : KeepsConfig s t
  outbufFull : t.status.outbufFull = decide (c < m.length)
  outDim0 : t.outDim0 = 0
  outDim1 : t.outDim1 = 0
  written : ∀ k (h : k < m.length), k < c → memRead t.mem (a + k) = m[k]
  outside : SameOutside s t a (min m.length c)

/-! ### Regions and messages -/

/-- The region is admitted: empty, or inside the `2 ^ 32` bytes of memory (20_memory.md R88). -/
def Fits (base len : Nat) : Prop := len = 0 ∨ base + len ≤ 2 ^ 32

/-- The two regions share no byte (20_memory.md R89). -/
def Apart (b l b' l' : Nat) : Prop := l = 0 ∨ l' = 0 ∨ b + l ≤ b' ∨ b' + l' ≤ b

/-- The `n` bytes at `a` are characters: none is above 127 (40_codec.md R141). -/
def Characters (s : State) (a n : Nat) : Prop := ∀ k < n, (memRead s.mem (a + k)).toNat ≤ 127

/-- Byte `k` of the `n` bytes at `a` is the first above 127 (40_codec.md R141). -/
def FirstBad (s : State) (a n k : Nat) : Prop :=
  k < n ∧ 127 < (memRead s.mem (a + k)).toNat ∧ ∀ j < k, (memRead s.mem (a + j)).toNat ≤ 127

/-- Bit `j` of the message at `a`: its character `j / 7`, most significant of 7 bits first (40_codec.md R140, R142). -/
def messageBit (s : State) (a j : Nat) : Bool := (memRead s.mem (a + j / 7)).getLsbD (6 - j % 7)

/-- Bit `j` of the packed sequence at `a` (20_memory.md R85). -/
def packedBit (s : State) (a j : Nat) : Bool := (memRead s.mem (a + j / 8)).getLsbD (7 - j % 8)

/-! ### Shapes and blocks -/

/-- The number of samples of the channel: the product of its first RANK dimensions (10_state.md R44). -/
def samples (o : Snapshot) : Nat :=
  ([o.regs.dim0.toNat, o.regs.dim1.toNat, o.regs.dim2.toNat, o.regs.dim3.toNat].take o.regs.rank.toNat).prod

/-- The shape is accepted by the LSB commands (41_capacity.md R177). -/
def ShapeOk (o : Snapshot) : Prop := 1 ≤ o.regs.rank.toNat ∧ o.regs.rank.toNat ≤ 4 ∧ samples o < 2 ^ 32

/-- Rows, columns and block size of a DCT command. -/
def rows (o : Snapshot) : Nat := o.regs.dim0.toNat
def cols (o : Snapshot) : Nat := o.regs.dim1.toNat
def bsize (o : Snapshot) : Nat := o.act.blockSize.toNat

/-- Configured, rank 2 and few enough samples (41_capacity.md R176, R177). -/
def DctReady (o : Snapshot) : Prop :=
  o.dctValid = true ∧ o.regs.rank.toNat = 2 ∧ rows o * cols o < 2 ^ 32

/-- The number of blocks `T` (44_dct_engine.md R260). -/
def blocks (o : Snapshot) : Nat := (rows o / bsize o) * (cols o / bsize o)

/-- The DCT capacity (41_capacity.md R174). -/
def dctCapacityOf (o : Snapshot) : Nat := (blocks o - 7) / 7

/-- Block `i` of the channel at `base`: row and column inside the block to the sample (44_dct_engine.md R260, R262). -/
def block (s : State) (o : Snapshot) (base i : Nat) : Fin (bsize o) → Fin (bsize o) → Byte := fun u v =>
  memRead s.mem (base + (i / (cols o / bsize o) * bsize o + u) * cols o + (i % (cols o / bsize o) * bsize o + v))

/-- The target position and the factor of the snapshot's configuration (43_dct_quantizer.md R225). -/
def target (o : Snapshot) : Nat × Nat := coefPos o.act.coefIndex.toNat (bsize o)
def factor (o : Snapshot) : Int := s32 o.act.quant

/-- Bit `i` of the message of `n` characters at `a` with its terminator appended (44_dct_engine.md R266). -/
def framedBit (s : State) (a n i : Nat) : Bool := decide (i < 7 * n) && messageBit s a i

/-- How many bits DCT.EMBED embeds (44_dct_engine.md R266, R272). -/
def embedded (o : Snapshot) : Nat := min (7 * (o.regs.msgLen.toNat + 1)) (blocks o)

/-- The bit block `i` carries in DCT.EMBED, if any (44_dct_engine.md R266). -/
def carried (s : State) (o : Snapshot) (i : Nat) : Option Bool :=
  if i < embedded o then some (framedBit s o.regs.msgAddr.toNat o.regs.msgLen.toNat i) else none

/-- The machine's build with another collaborator: every property of the transform is a hypothesis about these two functions
(10_state.md R37 to R39). -/
def withTransform (fwd inv : (B : Nat) → BlockMatrix B → BlockMatrix B) : Params :=
  { Config.params with fwd2D := fwd, inv2D := inv }

/-- The perform step of DCT.EMBED with that collaborator: `exec .dctEmbed` is the one with `Config.fwd2D`, `Config.inv2D`. -/
def embedWith (fwd inv : (B : Nat) → BlockMatrix B → BlockMatrix B) (s : State) : Host.Outcome State Fault Refusal :=
  perform (withTransform fwd inv) .dctEmbed (dctEmbed (withTransform fwd inv)) s

/-- The perform step of DCT.EXTRACT with that collaborator. -/
def extractWith (fwd inv : (B : Nat) → BlockMatrix B → BlockMatrix B) (s : State) : Host.Outcome State Fault Refusal :=
  perform (withTransform fwd inv) .dctExtract (dctExtract (withTransform fwd inv)) s

/-- The target coefficient of block `i` of the channel at `base`. -/
def targetOf (p : Params) (s : State) (o : Snapshot) (base i : Nat) : Binary64 :=
  targetCoef p (target o) (ofSamples (block s o base i))

/-- What the collaborator returns for block `i` of DCT.EMBED before the conversion to samples. -/
def inverseOf (p : Params) (s : State) (o : Snapshot) (i : Nat) : BlockMatrix (bsize o) :=
  blockOutput p (target o) (factor o) (ofSamples (block s o o.regs.srcAddr.toNat i)) (carried s o i)

/-- Block `i` faults forward in DCT.EMBED (44_dct_engine.md R264, R268). -/
def ForwardFaults (p : Params) (s : State) (o : Snapshot) (i : Nat) : Prop :=
  ∃ b, carried s o i = some b ∧
    (f64Finite (targetOf p s o o.regs.srcAddr.toNat i) = false ∨
      f64Finite (embedBitInCoefficient p (targetOf p s o o.regs.srcAddr.toNat i) b.toNat (factor o)) = false)

/-- Block `i` faults in the inverse transform in DCT.EMBED (44_dct_engine.md R264, R265, R268). -/
def InverseFaults (p : Params) (s : State) (o : Snapshot) (i : Nat) : Prop :=
  ∃ u v, f64Finite (inverseOf p s o i u v) = false

/-- The bit DCT.EXTRACT reads from block `i` of the channel at `base` (44_dct_engine.md R274). -/
def extractedBit (p : Params) (s : State) (o : Snapshot) (base i : Nat) : Bool :=
  extractBitFromCoefficient p (targetOf p s o base i) (factor o) == 1

/-- The regions of LSB.EMBED are admitted and its output is apart from both inputs. -/
def LsbEmbedRegions (o : Snapshot) : Prop :=
  Fits o.regs.srcAddr.toNat (samples o) ∧ Fits o.regs.dstAddr.toNat (samples o) ∧
    Fits o.regs.msgAddr.toNat o.regs.msgLen.toNat ∧
    Apart o.regs.dstAddr.toNat (samples o) o.regs.srcAddr.toNat (samples o) ∧
    Apart o.regs.dstAddr.toNat (samples o) o.regs.msgAddr.toNat o.regs.msgLen.toNat

/-- The regions of DCT.EMBED are admitted and its output is apart from both inputs. -/
def DctEmbedRegions (o : Snapshot) : Prop :=
  Fits o.regs.srcAddr.toNat (rows o * cols o) ∧ Fits o.regs.dstAddr.toNat (rows o * cols o) ∧
    Fits o.regs.msgAddr.toNat o.regs.msgLen.toNat ∧
    Apart o.regs.dstAddr.toNat (rows o * cols o) o.regs.srcAddr.toNat (rows o * cols o) ∧
    Apart o.regs.dstAddr.toNat (rows o * cols o) o.regs.msgAddr.toNat o.regs.msgLen.toNat

/-- An extraction of `n` samples: its regions are admitted and its buffer is apart from the channel. -/
def ExtractRegions (o : Snapshot) (n : Nat) : Prop :=
  Fits o.regs.srcAddr.toNat n ∧ Fits o.regs.msgAddr.toNat o.regs.msgLen.toNat ∧
    Apart o.regs.msgAddr.toNat o.regs.msgLen.toNat o.regs.srcAddr.toNat n

/-- ADDRESS_FAULT and BUFFER_OVERLAP of an embedding of `n` samples: regions 1, 2, 3 in order, then the output 2 against 1
and 3 (20_memory.md R88, R89). -/
def EmbedRegionErrors (i : Instr) (s : State) (o : Snapshot) (n : Nat) : Prop :=
  (¬ Fits o.regs.srcAddr.toNat n → EndsWith i s .addressFault 1 o.regs.srcAddr) ∧
  (Fits o.regs.srcAddr.toNat n → ¬ Fits o.regs.dstAddr.toNat n → EndsWith i s .addressFault 2 o.regs.dstAddr) ∧
  (Fits o.regs.srcAddr.toNat n → Fits o.regs.dstAddr.toNat n → ¬ Fits o.regs.msgAddr.toNat o.regs.msgLen.toNat →
    EndsWith i s .addressFault 3 o.regs.msgAddr) ∧
  (Fits o.regs.srcAddr.toNat n → Fits o.regs.dstAddr.toNat n → Fits o.regs.msgAddr.toNat o.regs.msgLen.toNat →
    (¬ Apart o.regs.dstAddr.toNat n o.regs.srcAddr.toNat n → EndsWith i s .bufferOverlap 2 1) ∧
    (Apart o.regs.dstAddr.toNat n o.regs.srcAddr.toNat n →
      ¬ Apart o.regs.dstAddr.toNat n o.regs.msgAddr.toNat o.regs.msgLen.toNat → EndsWith i s .bufferOverlap 2 3))

/-- ADDRESS_FAULT and BUFFER_OVERLAP of an extraction of `n` samples: regions 1, 3, then the output 3 against 1. -/
def ExtractRegionErrors (i : Instr) (s : State) (o : Snapshot) (n : Nat) : Prop :=
  (¬ Fits o.regs.srcAddr.toNat n → EndsWith i s .addressFault 1 o.regs.srcAddr) ∧
  (Fits o.regs.srcAddr.toNat n → ¬ Fits o.regs.msgAddr.toNat o.regs.msgLen.toNat →
    EndsWith i s .addressFault 3 o.regs.msgAddr) ∧
  (Fits o.regs.srcAddr.toNat n → Fits o.regs.msgAddr.toNat o.regs.msgLen.toNat →
    ¬ Apart o.regs.msgAddr.toNat o.regs.msgLen.toNat o.regs.srcAddr.toNat n → EndsWith i s .bufferOverlap 3 1)

/-- The regions the rules of the commands list, as id, base, length and whether written: 42_lsb.md R200, R203; 40_codec.md R154,
R156; 44_dct_engine.md R266, R274; ids by 20_memory.md R87. -/
def listedRegions (i : Instr) (o : Snapshot) : List (Nat × Word × Nat × Bool) :=
  let r := o.regs
  match i with
  | .lsbEmbed => [(1, r.srcAddr, samples o, false), (2, r.dstAddr, samples o, true), (3, r.msgAddr, r.msgLen.toNat, false)]
  | .lsbExtract => [(1, r.srcAddr, samples o, false), (3, r.msgAddr, r.msgLen.toNat, true)]
  | .m2b => [(3, r.msgAddr, r.msgLen.toNat, false), (4, r.bitsAddr, (7 * r.msgLen.toNat + 7) / 8, true)]
  | .b2m => [(3, r.msgAddr, r.msgLen.toNat, true), (4, r.bitsAddr, (r.bitsLen.toNat + 7) / 8, false)]
  | .dctEmbed =>
    [(1, r.srcAddr, rows o * cols o, false), (2, r.dstAddr, rows o * cols o, true), (3, r.msgAddr, r.msgLen.toNat, false)]
  | .dctExtract => [(1, r.srcAddr, rows o * cols o, false), (3, r.msgAddr, r.msgLen.toNat, true)]
  | .lsbCapacity => []
  | .c2b => []
  | .b2c => []
  | .qembed => []
  | .qextract => []
  | .dctCapacity => []
  | .dctConfig => []

/-- A region as `listedRegions` writes it. -/
def asListed (r : Region) : Nat × Word × Nat × Bool := ((regionCode r.id).toNat, BitVec.ofNat 32 r.base, r.len, r.output)

/-- The address is a byte of one of the regions. -/
def InRegions (rs : List Region) (a : Nat) : Prop := ∃ r ∈ rs, r.base ≤ a ∧ a < r.base + r.len

/-- The address is a byte of one of the output regions. -/
def InOutputs (rs : List Region) (a : Nat) : Prop := ∃ r ∈ rs, r.output = true ∧ r.base ≤ a ∧ a < r.base + r.len

/-- The address is a byte of one of the input regions. -/
def InInputs (rs : List Region) (a : Nat) : Prop := ∃ r ∈ rs, r.output = false ∧ r.base ≤ a ∧ a < r.base + r.len

/-! ### Registers -/

/-- The register map: offsets as 10_state.md R40 numbers them. -/
def registerMap : List (Nat × Reg) :=
  [(0x00, .id), (0x04, .ctrl), (0x08, .status), (0x0C, .cmd), (0x10, .srcAddr), (0x14, .dstAddr), (0x18, .msgAddr),
    (0x1C, .msgLen), (0x20, .bitsAddr), (0x24, .bitsLen), (0x28, .rank), (0x2C, .dim0), (0x30, .dim1), (0x34, .dim2),
    (0x38, .dim3), (0x3C, .blockSize), (0x40, .coefIndex), (0x44, .quant), (0x48, .actBlockSize), (0x4C, .actCoefIndex),
    (0x50, .actQuant), (0x54, .arg0), (0x58, .arg1), (0x5C, .arg2), (0x60, .arg3), (0x64, .result0), (0x68, .result1),
    (0x6C, .errInfo0), (0x70, .errInfo1), (0x74, .outDim0), (0x78, .outDim1)]

/-- What the register window reads as, by offset: each register's own field of the state; ID, CTRL and CMD by 10_state.md R41,
R42, R53; STATUS by its layout, which `Obligations.StatusReadsAndClearsByBit` states. -/
def window (s : State) : List (Nat × Word) :=
  [(0x00, 0x53544743), (0x04, if s.irqEn then 2 else 0), (0x08, readReg Config.params s .status), (0x0C, 0),
    (0x10, s.regs.srcAddr), (0x14, s.regs.dstAddr), (0x18, s.regs.msgAddr), (0x1C, s.regs.msgLen), (0x20, s.regs.bitsAddr),
    (0x24, s.regs.bitsLen), (0x28, s.regs.rank), (0x2C, s.regs.dim0), (0x30, s.regs.dim1), (0x34, s.regs.dim2),
    (0x38, s.regs.dim3), (0x3C, s.regs.blockSize), (0x40, s.regs.coefIndex), (0x44, s.regs.quant), (0x48, s.act.blockSize),
    (0x4C, s.act.coefIndex), (0x50, s.act.quant), (0x54, s.regs.arg0), (0x58, s.regs.arg1), (0x5C, s.regs.arg2),
    (0x60, s.regs.arg3), (0x64, s.result0), (0x68, s.result1), (0x6C, s.errInfo0), (0x70, s.errInfo1), (0x74, s.outDim0),
    (0x78, s.outDim1)]

/-- The offsets of the operand registers, the RW rows of 10_state.md R40 but for CTRL. -/
def operandOffsets : List Nat :=
  [0x10, 0x14, 0x18, 0x1C, 0x20, 0x24, 0x28, 0x2C, 0x30, 0x34, 0x38, 0x3C, 0x40, 0x44, 0x54, 0x58, 0x5C, 0x60]

/-- The host-writable operand registers (10_state.md R57). -/
def operandRegs : List Reg :=
  [.srcAddr, .dstAddr, .msgAddr, .msgLen, .bitsAddr, .bitsLen, .rank, .dim0, .dim1, .dim2, .dim3, .blockSize,
    .coefIndex, .quant, .arg0, .arg1, .arg2, .arg3]

/-- The registers a host write does not change (10_state.md R33, R40). -/
def readOnlyRegs : List Reg :=
  [.id, .actBlockSize, .actCoefIndex, .actQuant, .result0, .result1, .errInfo0, .errInfo1, .outDim0, .outDim1]

/-- It is the host's turn and its next statement is `st`. -/
def HostRuns (s : State) (st : HostStmt) : Prop := nextAgent s = .host ∧ s.host.program[s.host.pc]? = some st

/-- The state after a host statement that changes nothing but the statement index and used the turn up. -/
def passed (s : State) : State :=
  { s with turns := s.turns.tail, host := { s.host with pc := s.host.pc + 1 } }

/-! ### Reset and races -/

/-- The command in progress is abandoned (70_reset_and_hazards.md R352): no DONE, no ERR, no interrupt; its input regions and
every byte outside its output regions read as before; every other byte of an output region is free (the model's form of "any byte
value", log 5). -/
structure Abandoned (s t : State) (job : Job) : Prop where
  idle : t.engine = .idle
  done : t.status.done = false
  err : t.status.err = false
  irqLow : irq t = false
  inputs : ∀ r ∈ jobRegions Config.params job, r.output = false → ∀ a, r.base ≤ a → a < r.base + r.len →
    memRead t.mem a = memRead s.mem a
  outputs : ∀ a < 2 ^ 32, InOutputs (jobRegions Config.params job) a → ¬ InInputs (jobRegions Config.params job) a →
    memRead t.mem a = Config.freeByte s.freeCount a
  outside : ∀ a, (∀ r ∈ jobRegions Config.params job, r.output = true → ¬ (r.base ≤ a ∧ a < r.base + r.len)) →
    memRead t.mem a = memRead s.mem a

/-- No command in its window has address `a` in a region that `mem` picks. -/
def Clear (mem : List Region → Nat → Prop) (s : State) (a : Nat) : Prop :=
  (∀ job, s.engine = .busy job → ¬ mem (jobRegions Config.params job) a) ∧ ∀ rs ∈ s.unobserved, ¬ mem rs a

/-- Address `c` is an output byte of a finished command still in its window that has `a` in a region that `mem` picks. -/
def Spoiled (mem : List Region → Nat → Prop) (s : State) (a c : Nat) : Prop :=
  c < 2 ^ 32 ∧ ∃ rs ∈ s.unobserved, mem rs a ∧ InOutputs rs c

/-- A host write (20_memory.md R98, 70_reset_and_hazards.md R362). Off every region in a window it is a plain write. One to a
region of the command in progress is remembered. One to a region of a finished command in its window leaves that command's output
bytes free; every other byte is as the plain write leaves it. -/
def HostWriteRule : Prop :=
  ∀ (s : State) (a : Nat) (b : Byte),
    let t := hostStore Config.params s a b
    (Clear InRegions s a → t = { s with mem := memWrite s.mem a b } ∧
      memRead t.mem a = b ∧ ∀ c, c ≠ a → memRead t.mem c = memRead s.mem c) ∧
    (∀ job, s.engine = .busy job → ∃ raced, t.engine = .busy ⟨job.word, job.snap, raced⟩ ∧
      (raced = true ↔ job.raced = true ∨ InRegions (jobRegions Config.params job) a)) ∧
    ∀ c, (Spoiled InRegions s a c → memRead t.mem c = Config.freeByte s.freeCount c) ∧
      (¬ Spoiled InRegions s a c → memRead t.mem c = if c = a then b else memRead s.mem c)

/-- A host read (20_memory.md R98, 70_reset_and_hazards.md R362). Off every output region in a window it returns the byte and
changes nothing. In an output region it returns a free byte; if the command is in progress that is remembered, and the output bytes
of a finished one in its window are left free; every other byte is unchanged. -/
def HostReadRule : Prop :=
  ∀ (s : State) (a : Nat),
    let t := hostLoadEffect Config.params s a
    (Clear InOutputs s a → hostLoadValue Config.params s a = memRead s.mem a ∧ t = s) ∧
    (¬ Clear InOutputs s a → hostLoadValue Config.params s a = Config.freeByte s.freeCount a ∧ s.freeCount < t.freeCount ∧
      (∀ job, s.engine = .busy job → ∃ raced, t.engine = .busy ⟨job.word, job.snap, raced⟩ ∧
        (raced = true ↔ job.raced = true ∨ InOutputs (jobRegions Config.params job) a)) ∧
      ∀ c, (Spoiled InOutputs s a c → memRead t.mem c = Config.freeByte (s.freeCount + 1) c) ∧
        (¬ Spoiled InOutputs s a c → memRead t.mem c = memRead s.mem c))

/-- The window (20_memory.md R97, R98): a completion leaves the command's regions in it; it is over once the host has read STATUS
with BUSY = 0 or taken the interrupt, and not by a STATUS read with BUSY = 1. -/
def WindowRule : Prop :=
  (∀ (i : Instr) (s t : State) (job : Job), s.engine = .busy job → exec i s = .next t → ∀ rs,
    rs ∈ t.unobserved ↔ rs ∈ s.unobserved ∨ (rs = regionsOf Config.params i job.snap ∧ rs ≠ [])) ∧
  (∀ (s : State) (x : Nat), HostRuns s (.rd 32 0x08 x) ∨ HostRuns s (.wait x) → ∃ t, step s = .next t ∧
    t.unobserved = if isBusy s then s.unobserved else []) ∧
  ∀ s : State, HostRuns s .waitIrq → ∃ t, step s = .next t ∧ t.unobserved = if irq s then [] else s.unobserved

/-- The host's statements that access data memory do what the two rules say. -/
def HostAccessSteps : Prop :=
  ∀ (s : State) (a : Nat), a < 2 ^ 32 →
    let s' := { s with turns := s.turns.tail }
    (∀ b, HostRuns s (.store a b) → step s = .next { hostStore Config.params s' a b with host := (passed s).host }) ∧
    ∀ x, HostRuns s (.load a x) → ∃ t, step s = .next t ∧
      tableGet t.host.vars x = some ((hostLoadValue Config.params s a).setWidth 32) ∧ t.host.pc = s.host.pc + 1 ∧
      { t with host := s.host } = hostLoadEffect Config.params s' a

end Sys2Proof.Claim

open Sys2Proof Sys2Proof.Machine Sys2Proof.Claim

/-! ### Encoding -/

/-- 30_encoding.md R113: the thirteen legal words, and no other word is legal. -/
def Obligations.OpcodeMapIsExact : Prop :=
  ∀ (w : Word) (i : Instr), decode w = .instr i ↔
    (w, i) ∈ [(0x00000001#32, Instr.lsbEmbed), (0x00000002#32, .lsbExtract), (0x00000003#32, .lsbCapacity),
      (0x00000005#32, .c2b), (0x00000006#32, .b2c), (0x00000007#32, .m2b), (0x00000008#32, .b2m),
      (0x00000009#32, .qembed), (0x0000000A#32, .qextract), (0x00000011#32, .dctEmbed),
      (0x00000012#32, .dctExtract), (0x00000013#32, .dctCapacity), (0x00000014#32, .dctConfig)]

/-- Decode and encode agree, both ways: a word decodes to a command exactly if it is that command's encoding
(30_encoding.md R110 to R113, R120). -/
def Obligations.DecodeAndEncodeAgree : Prop :=
  ∀ (w : Word) (i : Instr), decode w = .instr i ↔ encode i = w

/-- A few words written out from R113 decode to the commands they stand for. -/
def Obligations.WordsDecodeToTheirCommands : Prop :=
  decode 0b00000000000000000000000000000001#32 = .instr .lsbEmbed ∧
    decode 0b00000000000000000000000000000101#32 = .instr .c2b ∧
    decode 0b00000000000000000000000000001001#32 = .instr .qembed ∧
    decode 0b00000000000000000000000000010011#32 = .instr .dctCapacity ∧
    decode 0b00000000000000000000000000010100#32 = .instr .dctConfig

/-- 30_encoding.md R114: which words are illegal, and what an issued illegal word does: ILLEGAL_COMMAND with the word, and no
other effect. -/
def Obligations.IllegalWordsEndWithIllegalCommand : Prop :=
  (∀ w : Word, (∃ r, decode w = .reject r) ↔
    (w.extractLsb' 6 26 ≠ 0 ∨ w.extractLsb' 0 4 = 0 ∨ 0xB ≤ (w.extractLsb' 0 4).toNat ∨
      2 ≤ (w.extractLsb' 4 2).toNat ∨ (w.extractLsb' 0 4 = 4 ∧ w.extractLsb' 4 2 = 0) ∨
      (5 ≤ (w.extractLsb' 0 4).toNat ∧ (w.extractLsb' 0 4).toNat ≤ 0xA ∧ w.extractLsb' 4 2 = 1))) ∧
  (∀ (s : State) (w : Word), isBusy s = false → (writeReg Config.params s .cmd w).engine =
    .busy ⟨w, ⟨s.regs, s.act, s.status.dctValid⟩, false⟩) ∧
  ∀ (s : State) (job : Job) (r : Reject), s.engine = .busy job → decode job.word = .reject r → job.raced = false →
    nextAgent s = .engine →
    ∃ t, step s = .next t ∧ t.turns = s.turns.tail ∧
      Fails s { t with turns := s.turns } .illegalCommand job.word 0

/-! ### The step -/

/-- When the engine moves and the recorded word decodes to a command, the step is that command's meaning (60_exceptions.md
R301). So it is in every build of 00_scope.md R8, where every command in progress completes too; `exec` and `step` are the default
build's. -/
def Obligations.StepRunsTheDecodedCommand : Prop :=
  (∀ (s : State) (job : Job) (i : Instr), s.engine = .busy job → nextAgent s = .engine → decode job.word = .instr i →
    step s = exec i { s with turns := s.turns.tail } ∧
      ∀ p : Params, stepIn p s = execIn p i { s with turns := s.turns.tail } ∧ ∃ t, stepIn p s = .next t ∧ t.engine = .idle) ∧
  (∀ (i : Instr) (s : State), exec i s = execIn Config.params i s) ∧
  ∀ s : State, step s = stepIn Config.params s

/-- The word stored by `withFetchWord` is the one the very next step runs, on a snapshot of the registers. -/
def Obligations.FetchWordIsRunNext : Prop :=
  ∀ (s : State) (i : Instr), ∃ t,
    step (s.withFetchWord 32 (encode i).toNat) = exec i t ∧
      t.engine = .busy ⟨encode i, ⟨s.regs, s.act, s.status.dctValid⟩, false⟩ ∧ t.mem = s.mem ∧ t.turns = s.turns

/-- Whose turn it is: the head of the schedule; with no schedule left a BUSY engine, else the host (the model's own choice, log
4, which realises 60_exceptions.md R305). -/
def Obligations.TurnIsTakenAsScheduled : Prop :=
  (∀ s : State, s.turns = [] → isBusy s = true → nextAgent s = .engine) ∧
  (∀ s : State, s.turns = [] → isBusy s = false → nextAgent s = .host) ∧
  (∀ (s : State) (a : Agent) (as : List Agent), s.turns = a :: as → nextAgent s = a) ∧
  (∀ s : State, nextAgent s = .engine → s.engine = .idle → step s = .next { s with turns := s.turns.tail }) ∧
  ∀ s : State, nextAgent s = .host → s.host.program[s.host.pc]? = none →
    step s = .next { s with turns := s.turns.tail }

/-- 60_exceptions.md R305: from every state with a command in progress, within one step more than the schedule is long, either
a step has stopped at a host statement that has no meaning, or the engine is IDLE: the command completed, or a reset intervened. -/
def Obligations.EveryIssuedCommandEnds : Prop :=
  ∀ s : State, isBusy s = true → ∃ k ≤ s.turns.length + 1,
    match Host.Core.run Sys2Proof.core k s with
    | .next t => t.engine = .idle
    | .fault r => r = Fault.absentAddress
    | .refused r => r = Refusal.badTransaction ∨ r = .outsideWindow ∨ r = .unassignedHostVar

/-! ### Issue and completion -/

/-- 60_exceptions.md R300: the issue of any word, legal or not, by a host write to CMD while the engine is IDLE. -/
def Obligations.CmdWriteIssuesTheCommand : Prop :=
  ∀ (s : State) (v : HostVal) (w : Word), s.engine = .idle → HostRuns s (.wr 32 0x0C v) → hostValue s v = some w →
    ∃ t, step s = .next t ∧
      t.engine = .busy ⟨w, ⟨s.regs, s.act, s.status.dctValid⟩, false⟩ ∧
      isBusy t = true ∧ t.status.done = false ∧ t.status.err = false ∧ t.status.outbufFull = false ∧
      t.status.errCode = .none ∧ t.result0 = 0 ∧ t.result1 = 0 ∧ t.errInfo0 = 0 ∧ t.errInfo1 = 0 ∧
      t.outDim0 = 0 ∧ t.outDim1 = 0 ∧ irq t = false ∧
      t.status.cmdOverrun = s.status.cmdOverrun ∧ t.status.dctValid = s.status.dctValid ∧ t.act = s.act ∧
      t.irqEn = s.irqEn ∧ t.regs = s.regs ∧ t.mem = s.mem ∧ t.host = (passed s).host ∧ t.turns = s.turns.tail

/-- 60_exceptions.md R304: a CMD write while BUSY is dropped and changes nothing but CMD_OVERRUN. -/
def Obligations.CmdWriteWhileBusyOnlyOverruns : Prop :=
  (∀ (s : State) (v : HostVal) (w : Word) (job : Job), s.engine = .busy job → HostRuns s (.wr 32 0x0C v) →
    hostValue s v = some w →
    step s = .next { passed s with status := { s.status with cmdOverrun := true } } ∧
      irq { s with status := { s.status with cmdOverrun := true } } = irq s) ∧
  ∀ s t : State, step s = .next t → s.status.cmdOverrun = true → t.status.cmdOverrun = false →
    (∃ v w, HostRuns s (.wr 32 0x08 v) ∧ hostValue s v = some w ∧ w.getLsbD 5 = true) ∨
    (nextAgent s = .host ∧ t.engine = .idle ∧ t.regs = OperandRegs.zero ∧ t.status = State.reset.status)

/-- 60_exceptions.md R302, R303 and 10_state.md R43, over every command: a command in progress completes, and with exactly one of
DONE and ERR; the engine is IDLE. -/
def Obligations.EveryCommandCompletesWithDoneOrErr : Prop :=
  ∀ (i : Instr) (s : State) (job : Job), s.engine = .busy job → s.status.done = false → s.status.err = false →
    ∃ t, exec i s = .next t ∧ t.engine = .idle ∧ isBusy t = false ∧
      ((t.status.done = true ∧ t.status.err = false) ∨ (t.status.done = false ∧ t.status.err = true))

/-- 60_exceptions.md R313, over every command and illegal word: an error leaves data memory and every register except STATUS and
the error information as they were after issue (`ResultsClear` is what issue leaves in the results, R300). -/
def Obligations.ErrorsArePrecise : Prop :=
  ∀ (i : Instr) (s t : State), RaceFree s → ResultsClear s →
    exec i s = .next t ∨ performIllegal Config.params s = .next t → t.status.err = true →
    Fails s t t.status.errCode t.errInfo0 t.errInfo1 ∧ t.status.errCode ≠ .none ∧
      t.result0 = 0 ∧ t.result1 = 0 ∧ t.mem = s.mem

/-- 60_exceptions.md R311: the numbers of the error codes, and that the code STATUS shows after a command is 0 or one of those the
table lists for that command. -/
def Obligations.CommandsReportOnlyTheirErrorCodes : Prop :=
  (∀ (s : State) (c : ErrCode), s.status.errCode = c → ((readReg Config.params s .status).extractLsb' 8 8).toNat =
    match c with
    | .none => 0x00
    | .capacityExceeded => 0x01
    | .capacityExceededBits => 0x02
    | .invalidParameter => 0x03
    | .invalidShape => 0x04
    | .invalidCharacter => 0x05
    | .notConfigured => 0x06
    | .illegalCommand => 0x07
    | .addressFault => 0x08
    | .bufferOverlap => 0x09
    | .invalidOperand => 0x0A
    | .collaboratorFault => 0x0B) ∧
  ∀ (i : Instr) (s t : State), s.status.errCode = .none → exec i s = .next t →
    let code := ((readReg Config.params t .status).extractLsb' 8 8).toNat
    code = 0 ∨ code ∈
      match i with
      | .lsbEmbed => [0x01, 0x02, 0x04, 0x05, 0x08, 0x09]
      | .lsbExtract => [0x04, 0x08, 0x09]
      | .lsbCapacity => [0x04]
      | .c2b => [0x05]
      | .b2c => [0x0A]
      | .m2b => [0x05, 0x08, 0x09]
      | .b2m => [0x08, 0x09]
      | .qembed => [0x0A]
      | .qextract => [0x0A]
      | .dctEmbed => [0x01, 0x04, 0x05, 0x06, 0x08, 0x09, 0x0B]
      | .dctExtract => [0x04, 0x06, 0x08, 0x09, 0x0B]
      | .dctCapacity => [0x04, 0x06]
      | .dctConfig => [0x03]

/-- 10_state.md R55: a command reads only its snapshot: whatever the host has written to the operand registers since the
issue, the completion is the same. -/
def Obligations.OperandWritesWhileBusyDoNotReachTheCommand : Prop :=
  ∀ (i : Instr) (s t : State) (job : Job) (regs : OperandRegs), s.engine = .busy job → exec i s = .next t →
    exec i { s with regs := regs } = .next { t with regs := regs }

/-- 20_memory.md R90: a command writes only inside its output regions, nothing at all if it ends with an error, and never a
byte of an input region. Its regions are those its rule lists (R87), from the issue on and whatever its outcome; at a rank of 0 or
above 4, where R44 defines no sample count, the message buffer alone (the model's reading, log 9). -/
def Obligations.CommandsWriteOnlyTheirOutputRegions : Prop :=
  (∀ (i : Instr) (s t : State) (job : Job), s.engine = .busy job → job.raced = false → s.status.err = false →
    exec i s = .next t →
    (∀ a, (∀ r ∈ regionsOf Config.params i job.snap, r.output = true → ¬ (r.base ≤ a ∧ a < r.base + r.len)) →
      memRead t.mem a = memRead s.mem a) ∧
    (t.status.err = true → SameMemory s t) ∧
    ∀ r ∈ regionsOf Config.params i job.snap, r.output = false → ∀ a, r.base ≤ a → a < r.base + r.len →
      memRead t.mem a = memRead s.mem a) ∧
  (∀ (i : Instr) (o : Snapshot),
    let counted := 1 ≤ o.regs.rank.toNat ∧ o.regs.rank.toNat ≤ 4
    (counted ∨ i ∉ [Instr.lsbEmbed, .lsbExtract] → (regionsOf Config.params i o).map asListed = listedRegions i o) ∧
    (¬ counted → i ∈ [Instr.lsbEmbed, .lsbExtract] →
      (regionsOf Config.params i o).map asListed = (listedRegions i o).filter (·.1 == 3)) ∧
    ∀ r ∈ regionsOf Config.params i o, r.base < 2 ^ 32) ∧
  ∀ job : Job,
    (∀ i, decode job.word = .instr i → jobRegions Config.params job = regionsOf Config.params i job.snap) ∧
    ∀ r, decode job.word = .reject r → jobRegions Config.params job = []

/-- The frame of the commands that store nothing, whether they succeed or fail: C2B, B2C, QEMBED, QEXTRACT and the two
capacity commands change nothing but STATUS, the results, the error information and the engine; DCT.CONFIG the configuration
too. -/
def Obligations.FrameOfRegisterCommands : Prop :=
  ∀ (i : Instr) (s t : State),
    i ∈ [Instr.c2b, .b2c, .qembed, .qextract, .lsbCapacity, .dctCapacity, .dctConfig] → exec i s = .next t →
      Kept s t ∧ SameMemory s t ∧ t.status.outbufFull = s.status.outbufFull ∧ t.outDim0 = 0 ∧ t.outDim1 = 0 ∧
        (i ≠ .dctConfig → KeepsConfig s t) ∧
        ((t.errInfo0 = s.errInfo0 ∧ t.errInfo1 = s.errInfo1 ∧ t.status.errCode = s.status.errCode ∧
            t.status.err = s.status.err ∧ t.status.done = true) ∨
          (t.result0 = s.result0 ∧ t.result1 = s.result1 ∧ KeepsConfig s t ∧ t.status.done = s.status.done ∧
            t.status.err = true))

/-- The frame of the storing commands: no register but STATUS, the results, the error information and the output dimensions
changes, and every byte outside the `n` bytes at the address the command's rule stores to reads as before: `n` is the sample
count for LSB.EMBED and DCT.EMBED at DST_ADDR, the packed length for M2B at BITS_ADDR, the buffer size for the three that
decode a message at MSG_ADDR. -/
def Obligations.FrameOfStoringCommands : Prop :=
  ∀ (i : Instr) (s t : State) (job : Job), s.engine = .busy job → job.raced = false → exec i s = .next t →
    let o := job.snap
    (i = .lsbEmbed → Kept s t ∧ KeepsConfig s t ∧ t.status.outbufFull = s.status.outbufFull ∧
      SameOutside s t o.regs.dstAddr.toNat (samples o)) ∧
    (i = .dctEmbed → Kept s t ∧ KeepsConfig s t ∧ t.status.outbufFull = s.status.outbufFull ∧
      SameOutside s t o.regs.dstAddr.toNat (rows o * cols o)) ∧
    (i = .m2b → Kept s t ∧ KeepsConfig s t ∧ t.status.outbufFull = s.status.outbufFull ∧
      SameOutside s t o.regs.bitsAddr.toNat ((7 * o.regs.msgLen.toNat + 7) / 8)) ∧
    (i ∈ [Instr.lsbExtract, .b2m, .dctExtract] → Kept s t ∧ KeepsConfig s t ∧
      SameOutside s t o.regs.msgAddr.toNat o.regs.msgLen.toNat)

/-- 10_state.md R47: only a successful DCT.CONFIG and reset change the ACT registers and DCT_VALID. -/
def Obligations.OnlyConfigAndResetChangeTheConfiguration : Prop :=
  ∀ s t : State, step s = .next t →
    KeepsConfig s t ∨
    (nextAgent s = .engine ∧ fetch s = some 0x00000014#32 ∧ t.status.done = true ∧ t.status.dctValid = true) ∨
    (nextAgent s = .host ∧ t.engine = .idle ∧ t.act = ⟨0, 0, 0⟩ ∧ t.status.dctValid = false ∧
      t.regs = OperandRegs.zero ∧ t.irqEn = false)

/-! ### The codec -/

/-- 40_codec.md R150, C2B. -/
def Obligations.C2bConvertsCharacter : Prop :=
  encode .c2b = 0x00000005 ∧
  ∀ (s : State) (job : Job), s.engine = .busy job →
    let c := job.snap.regs.arg0
    (c.toNat ≤ 127 → ∃ t, exec .c2b s = .next t ∧ Succeeds s t (wordOf (c.toNat * 2 ^ 25)) 7 ∧ RegisterOnly s t) ∧
    (127 < c.toNat → EndsWith .c2b s .invalidCharacter 0 c)

/-- 40_codec.md R152, B2C: the first `min(k, 7)` bits of ARG1 as a number. -/
def Obligations.B2cConvertsBits : Prop :=
  encode .b2c = 0x00000006 ∧
  ∀ (s : State) (job : Job), s.engine = .busy job →
    let k := job.snap.regs.arg0
    let bits := job.snap.regs.arg1
    (k.toNat ≤ 32 → ∃ t, exec .b2c s = .next t ∧
      Succeeds s t (wordOf (bits.toNat / 2 ^ (32 - min k.toNat 7))) 0 ∧ RegisterOnly s t) ∧
    (32 < k.toNat → EndsWith .b2c s .invalidOperand 0 k)

/-- 40_codec.md R154, M2B: bit `j` of the packed output is bit `j` of the message, the pad bits are 0, and its errors in
order. -/
def Obligations.M2bPacksTheMessage : Prop :=
  encode .m2b = 0x00000007 ∧
  ∀ (s : State) (job : Job), s.engine = .busy job → job.raced = false →
    let a := job.snap.regs.msgAddr
    let n := job.snap.regs.msgLen.toNat
    let p := job.snap.regs.bitsAddr
    let len := (7 * n + 7) / 8
    (Fits a.toNat n → Fits p.toNat len → Apart p.toNat len a.toNat n → Characters s a.toNat n →
      ∃ t, exec .m2b s = .next t ∧ Succeeds s t (wordOf (7 * n)) (wordOf (7 * n / 2 ^ 32)) ∧ KeepsConfig s t ∧
        t.status.outbufFull = s.status.outbufFull ∧ t.outDim0 = 0 ∧ t.outDim1 = 0 ∧
        (∀ j < 7 * n, packedBit t p.toNat j = messageBit s a.toNat j) ∧
        (∀ j, 7 * n ≤ j → j < 8 * len → packedBit t p.toNat j = false) ∧
        SameOutside s t p.toNat len) ∧
    (¬ Fits a.toNat n → EndsWith .m2b s .addressFault 3 a) ∧
    (Fits a.toNat n → ¬ Fits p.toNat len → EndsWith .m2b s .addressFault 4 p) ∧
    (Fits a.toNat n → Fits p.toNat len → ¬ Apart p.toNat len a.toNat n → EndsWith .m2b s .bufferOverlap 4 3) ∧
    ∀ k, Fits a.toNat n → Fits p.toNat len → Apart p.toNat len a.toNat n → FirstBad s a.toNat n k →
      EndsWith .m2b s .invalidCharacter (wordOf k) (wordOf (memRead s.mem (a.toNat + k)).toNat)

/-- 40_codec.md R156, B2M. -/
def Obligations.B2mDecodesTheBits : Prop :=
  encode .b2m = 0x00000008 ∧
  ∀ (s : State) (job : Job), s.engine = .busy job → job.raced = false →
    let p := job.snap.regs.bitsAddr
    let n := job.snap.regs.bitsLen.toNat
    let a := job.snap.regs.msgAddr
    let c := job.snap.regs.msgLen.toNat
    let len := (n + 7) / 8
    (Fits a.toNat c → Fits p.toNat len → Apart a.toNat c p.toNat len →
      ∃ t, exec .b2m s = .next t ∧
        Stores s t a.toNat c (bitsToMessage ((List.range n).map (packedBit s p.toNat)))) ∧
    (¬ Fits a.toNat c → EndsWith .b2m s .addressFault 3 a) ∧
    (Fits a.toNat c → ¬ Fits p.toNat len → EndsWith .b2m s .addressFault 4 p) ∧
    (Fits a.toNat c → Fits p.toNat len → ¬ Apart a.toNat c p.toNat len → EndsWith .b2m s .bufferOverlap 3 4)

/-- 40_codec.md R144: what `bitsToMessage` decodes, character by character: `m` is the result exactly if each of its characters
is the non-zero value of its 7 bits and what follows is fewer than 7 bits or a zero group. -/
def Obligations.BitsToMessageStopsAtTheTerminator : Prop :=
  ∀ (b : Bits) (m : List Byte), bitsToMessage b = m ↔
    7 * m.length ≤ b.length ∧
    (∀ k (h : k < m.length), m[k] = bitsToChar ((b.drop (7 * k)).take 7) ∧ m[k] ≠ 0 ∧ m[k].toNat ≤ 127) ∧
    (b.length < 7 * m.length + 7 ∨ bitsToChar ((b.drop (7 * m.length)).take 7) = 0)

/-- 40_codec.md R145, the framing laws. -/
def Obligations.FramingLaws : Prop :=
  (∀ (m : List Byte) (t : Bits), (∀ c ∈ m, c.toNat ≤ 127) → (∀ c ∈ m, c ≠ 0) →
    (bitsToMessage (messageToBits m) = m ∧
      (t.length < 7 ∨ t.take 7 = List.replicate 7 false → bitsToMessage (messageToBits m ++ t) = m))) ∧
  ∀ (m₁ m₂ : List Byte), (∀ c ∈ m₁ ++ 0 :: m₂, c.toNat ≤ 127) → (∀ c ∈ m₁, c ≠ 0) →
    bitsToMessage (messageToBits (m₁ ++ 0 :: m₂)) = m₁

/-- 20_memory.md R85: where each bit of a sequence lies in its packed bytes, that the pad bits are written 0, and that a reader
of packed bytes ignores them. -/
def Obligations.PackedBitsReadBack : Prop :=
  ∀ s : Bits, (packBits s).length = (s.length + 7) / 8 ∧
    (∀ j (hj : j < s.length) (h : j / 8 < (packBits s).length), ((packBits s)[j / 8]).getLsbD (7 - j % 8) = s[j]) ∧
    (∀ j, s.length ≤ j → (h : j / 8 < (packBits s).length) → ((packBits s)[j / 8]).getLsbD (7 - j % 8) = false) ∧
    ∀ bytes : List Byte, bytes.length = (s.length + 7) / 8 →
      (∀ j (hj : j < s.length) (h : j / 8 < bytes.length), (bytes[j / 8]).getLsbD (7 - j % 8) = s[j]) →
      unpackBits s.length bytes = s

/-! ### Capacity -/

/-- 41_capacity.md R178, LSB.CAPACITY. -/
def Obligations.LsbCapacityOfTheShape : Prop :=
  encode .lsbCapacity = 0x00000003 ∧
  ∀ (s : State) (job : Job), s.engine = .busy job →
    let o := job.snap
    (ShapeOk o → ∃ t, exec .lsbCapacity s = .next t ∧ Succeeds s t (wordOf (samples o / 7)) 0 ∧ RegisterOnly s t) ∧
    (o.regs.rank.toNat = 0 ∨ 4 < o.regs.rank.toNat → EndsWith .lsbCapacity s .invalidShape o.regs.rank 1) ∧
    (1 ≤ o.regs.rank.toNat → o.regs.rank.toNat ≤ 4 → 2 ^ 32 ≤ samples o →
      EndsWith .lsbCapacity s .invalidShape o.regs.rank 2)

/-- 41_capacity.md R180, DCT.CAPACITY. -/
def Obligations.DctCapacityOfTheShape : Prop :=
  encode .dctCapacity = 0x00000013 ∧
  ∀ (s : State) (job : Job), s.engine = .busy job →
    let o := job.snap
    (DctReady o → ∃ t, exec .dctCapacity s = .next t ∧
      Succeeds s t (wordOf ((blocks o - 7) / 7)) (wordOf (blocks o)) ∧ RegisterOnly s t) ∧
    (o.dctValid = false → EndsWith .dctCapacity s .notConfigured 0 0) ∧
    (o.dctValid = true → o.regs.rank.toNat ≠ 2 → EndsWith .dctCapacity s .invalidShape o.regs.rank 1) ∧
    (o.dctValid = true → o.regs.rank.toNat = 2 → 2 ^ 32 ≤ rows o * cols o →
      EndsWith .dctCapacity s .invalidShape 2 2)

/-- 41_capacity.md R182 and R184: the capacity never exceeds the usable bit slots and is non-decreasing. -/
def Obligations.CapacityIsBoundedAndMonotone : Prop :=
  (∀ n, 7 * capLsb n ≤ n) ∧
  (∀ h w b, 7 * capDct h w b ≤ max 0 (totalBlocks h w b - 7) ∧
    (7 ≤ totalBlocks h w b → 7 * (capDct h w b + 1) ≤ totalBlocks h w b)) ∧
  (∀ n n', n ≤ n' → capLsb n ≤ capLsb n') ∧
  ∀ h w h' w' b, totalBlocks h w b ≤ totalBlocks h' w' b → capDct h w b ≤ capDct h' w' b

/-! ### The LSB engine -/

/-- 42_lsb.md R200, LSB.EMBED: every sample evened, the message bits added to the first `7L`, and its errors in order. -/
def Obligations.LsbEmbedHidesTheMessage : Prop :=
  encode .lsbEmbed = 0x00000001 ∧
  ∀ (s : State) (job : Job), s.engine = .busy job → job.raced = false →
    let o := job.snap
    let n := samples o
    let src := o.regs.srcAddr.toNat
    let dst := o.regs.dstAddr.toNat
    let msg := o.regs.msgAddr.toNat
    let l := o.regs.msgLen.toNat
    (ShapeOk o → LsbEmbedRegions o → l ≤ n / 7 → Characters s msg l →
      ∃ t, exec .lsbEmbed s = .next t ∧ Succeeds s t (wordOf (7 * l)) (wordOf (n / 7)) ∧ KeepsConfig s t ∧
        t.status.outbufFull = s.status.outbufFull ∧ t.outDim0 = 0 ∧ t.outDim1 = 0 ∧
        (∀ i < n, memRead t.mem (dst + i) = (memRead s.mem (src + i) &&& 0xFE) +
          (if i < 7 * l then BitVec.ofNat 8 (messageBit s msg i).toNat else 0)) ∧
        SameOutside s t dst n) ∧
    (o.regs.rank.toNat = 0 ∨ 4 < o.regs.rank.toNat → EndsWith .lsbEmbed s .invalidShape o.regs.rank 1) ∧
    (1 ≤ o.regs.rank.toNat → o.regs.rank.toNat ≤ 4 → 2 ^ 32 ≤ n →
      EndsWith .lsbEmbed s .invalidShape o.regs.rank 2) ∧
    (ShapeOk o → EmbedRegionErrors .lsbEmbed s o n) ∧
    (ShapeOk o → LsbEmbedRegions o → n / 7 < l →
      EndsWith .lsbEmbed s .capacityExceeded o.regs.msgLen (wordOf (n / 7))) ∧
    ∀ k, ShapeOk o → LsbEmbedRegions o → l ≤ n / 7 → FirstBad s msg l k →
      EndsWith .lsbEmbed s .invalidCharacter (wordOf k) (wordOf (memRead s.mem (msg + k)).toNat)

/-- 42_lsb.md R203, LSB.EXTRACT. -/
def Obligations.LsbExtractReadsTheMessage : Prop :=
  encode .lsbExtract = 0x00000002 ∧
  ∀ (s : State) (job : Job), s.engine = .busy job → job.raced = false →
    let o := job.snap
    let n := samples o
    (ShapeOk o → ExtractRegions o n → ∃ t, exec .lsbExtract s = .next t ∧
      Stores s t o.regs.msgAddr.toNat o.regs.msgLen.toNat
        (bitsToMessage ((List.range n).map fun i => (memRead s.mem (o.regs.srcAddr.toNat + i)).toNat % 2 == 1))) ∧
    (o.regs.rank.toNat = 0 ∨ 4 < o.regs.rank.toNat → EndsWith .lsbExtract s .invalidShape o.regs.rank 1) ∧
    (1 ≤ o.regs.rank.toNat → o.regs.rank.toNat ≤ 4 → 2 ^ 32 ≤ n →
      EndsWith .lsbExtract s .invalidShape o.regs.rank 2) ∧
    (ShapeOk o → ExtractRegionErrors .lsbExtract s o n)

/-- 42_lsb.md R194: the two capacity checks are equivalent, so CAPACITY_EXCEEDED_BITS is never reported. -/
def Obligations.SecondLsbCheckNeverFails : Prop :=
  (∀ l n : Nat, l ≤ n / 7 ↔ 7 * l ≤ n) ∧
  ∀ (i : Instr) (s t : State), s.status.errCode ≠ .capacityExceededBits → exec i s = .next t →
    t.status.errCode ≠ .capacityExceededBits

/-- 42_lsb.md R206: LSB.EXTRACT of the output of LSB.EMBED returns exactly the message. -/
def Obligations.LsbRoundTrip : Prop :=
  ∀ (s t s' : State) (job job' : Job),
    s.engine = .busy job → job.raced = false → exec .lsbEmbed s = .next t → s.status.err = false →
    t.status.err = false →
    let o := job.snap
    let l := o.regs.msgLen.toNat
    (∀ k < l, memRead s.mem (o.regs.msgAddr.toNat + k) ≠ 0) →
    s'.engine = .busy job' → job'.raced = false → s'.mem = t.mem →
    job'.snap.regs.rank = o.regs.rank → samples job'.snap = samples o →
    job'.snap.regs.srcAddr = o.regs.dstAddr → l ≤ job'.snap.regs.msgLen.toNat →
    ExtractRegions job'.snap (samples o) →
    ∃ u, exec .lsbExtract s' = .next u ∧ u.status.done = true ∧ u.result0 = o.regs.msgLen ∧
      u.result1 = o.regs.msgLen ∧ u.status.outbufFull = false ∧
      ∀ k < l, memRead u.mem (job'.snap.regs.msgAddr.toNat + k) = memRead s.mem (o.regs.msgAddr.toNat + k)

/-! ### The quantizer -/

/-- 43_dct_quantizer.md R226, DCT.CONFIG. -/
def Obligations.DctConfigValidatesAndCopies : Prop :=
  encode .dctConfig = 0x00000014 ∧
  ∀ (s : State) (job : Job), s.engine = .busy job →
    let b := job.snap.regs.blockSize
    let k := job.snap.regs.coefIndex
    let q := job.snap.regs.quant
    let blockOk := (∃ n, b.toNat = 2 ^ n) ∧ b.toNat ≤ 64
    let coefOk := 1 ≤ k.toNat ∧ k.toNat ≤ b.toNat * b.toNat - 1
    (blockOk → coefOk → 0 < q.toInt → ∃ t, exec .dctConfig s = .next t ∧ Succeeds s t 0 0 ∧
      t.act = ⟨b, k, q⟩ ∧ t.status.dctValid = true ∧ t.status.outbufFull = s.status.outbufFull ∧
      t.outDim0 = 0 ∧ t.outDim1 = 0 ∧ SameMemory s t) ∧
    (¬ blockOk → EndsWith .dctConfig s .invalidParameter 1 b) ∧
    (blockOk → ¬ coefOk → EndsWith .dctConfig s .invalidParameter 2 k) ∧
    (blockOk → coefOk → q.toInt ≤ 0 → EndsWith .dctConfig s .invalidParameter 3 q)

/-- 43_dct_quantizer.md R230, QEMBED, with R220 and R223 written out. -/
def Obligations.QembedForcesTheParity : Prop :=
  encode .qembed = 0x00000009 ∧
  ∀ (s : State) (job : Job), s.engine = .busy job →
    let r := job.snap.regs
    let c : Binary64 := r.arg1 ++ r.arg0
    let q := r.arg3.toInt
    let y := fp (adjust .setLsb (rnd .halfEven (fdiv c (fp q))) r.arg2.toNat * q)
    (r.arg2.toNat ≤ 1 → 0 < q → f64Finite c = true → f64Finite y = true →
      ∃ t, exec .qembed s = .next t ∧ Succeeds s t (y.extractLsb' 0 32) (y.extractLsb' 32 32) ∧ RegisterOnly s t) ∧
    (1 < r.arg2.toNat → EndsWith .qembed s .invalidOperand 2 r.arg2) ∧
    (r.arg2.toNat ≤ 1 → q ≤ 0 → EndsWith .qembed s .invalidOperand 3 r.arg3) ∧
    (r.arg2.toNat ≤ 1 → 0 < q → f64Finite c = false ∨ f64Finite y = false →
      EndsWith .qembed s .invalidOperand 0 r.arg1)

/-- 43_dct_quantizer.md R232, QEXTRACT, with R220, R221 and R224 written out. -/
def Obligations.QextractReadsTheParity : Prop :=
  encode .qextract = 0x0000000A ∧
  ∀ (s : State) (job : Job), s.engine = .busy job →
    let r := job.snap.regs
    let c : Binary64 := r.arg1 ++ r.arg0
    let q := r.arg3.toInt
    (0 < q → f64Finite c = true → ∃ t, exec .qextract s = .next t ∧
      Succeeds s t (wordOf (rnd .halfEven (fdiv c (fp q)) % 2).toNat) 0 ∧ RegisterOnly s t) ∧
    (q ≤ 0 → EndsWith .qextract s .invalidOperand 3 r.arg3) ∧
    (0 < q → f64Finite c = false → EndsWith .qextract s .invalidOperand 0 r.arg1)

/-- 00_scope.md R16: `rnd` answers the nearest integer, and on an exact half the even one or the one farther from zero. -/
def Obligations.RoundingIsToTheNearest : Prop :=
  ∀ (mode : TieMode) (x : Binary64), f64Finite x = true →
    2 * (f64Int x - rnd mode x * f64One).natAbs ≤ f64One ∧
    (2 * (f64Int x - rnd mode x * f64One).natAbs = f64One →
      (mode = .halfEven → rnd mode x % 2 = 0) ∧
      (mode = .halfAway → (f64Int x).natAbs < (rnd mode x).natAbs * f64One))

/-- 43_dct_quantizer.md R222: the adjusted integer has the parity of the bit, is the integer itself if it already had, and else
moves by one: to the other member of its pair under SET_LSB, down under ALWAYS_DOWN. -/
def Obligations.AdjustForcesTheParity : Prop :=
  ∀ (pa : ParityAdjust) (n : Int) (b : Nat), b ≤ 1 →
    (adjust pa n b) % 2 = b ∧ (n % 2 = b → adjust pa n b = n) ∧
    (n % 2 ≠ b → adjust pa n b =
      match pa with
      | .setLsb => if n % 2 = 1 then n - 1 else n + 1
      | .alwaysDown => n - 1)

/-- 43_dct_quantizer.md R223: an integer of magnitude at most `2 ^ 53` is a binary64 value exactly. -/
def Obligations.SmallIntegersAreExact : Prop :=
  ∀ v : Int, v.natAbs ≤ 2 ^ 53 → f64Finite (fp v) = true ∧ f64Int (fp v) = v * f64One

/-- 43_dct_quantizer.md R234: the embedded bit is extracted again while the re-quantized product stays within `2 ^ 53`, in
every build. -/
def Obligations.EmbeddedParityIsStable : Prop :=
  ∀ (p : Params) (c : Binary64) (b : Nat) (q : Int), f64Finite c = true → b ≤ 1 → 1 ≤ q → q < 2 ^ 31 →
    (adjust p.parityAdjust (quant p.tieMode c q) b * q).natAbs ≤ 2 ^ 53 →
    extractBitFromCoefficient p (embedBitInCoefficient p c b q) q = b

/-- 43_dct_quantizer.md R224: beyond `2 ^ 53` every quotient is an even integer, so the extracted bit is 0. -/
def Obligations.HugeQuotientsExtractZero : Prop :=
  ∀ (p : Params) (c : Binary64) (q : Int), f64Finite c = true → 1 ≤ q → q < 2 ^ 31 →
    (extractBitFromCoefficient p c q : Int) = rnd p.tieMode (fdiv c (fp q)) % 2 ∧
    (2 ^ 53 * f64One ≤ f64Units (fdiv c (fp q)) → extractBitFromCoefficient p c q = 0)

/-- 43_dct_quantizer.md R236, the first clause: under SET_LSB a non-negative quotient embeds the same whichever way halves
round. -/
def Obligations.TiesDoNotMatterForNonNegativeQuotients : Prop :=
  ∀ (p p' : Params) (c : Binary64) (b : Nat) (q : Int), p.parityAdjust = .setLsb → p'.parityAdjust = .setLsb →
    f64Finite c = true → b ≤ 1 → 1 ≤ q → q < 2 ^ 31 → 0 ≤ f64Int (fdiv c (fp q)) →
    embedBitInCoefficient p c b q = embedBitInCoefficient p' c b q

/-- 44_dct_engine.md R263: a sample is the rounded clipped value, and clipping before or after rounding gives the same, in every
build. -/
def Obligations.ClippingCommutesWithRounding : Prop :=
  ∀ (mode : TieMode) (x : Binary64), f64Finite x = true →
    (toSample mode x).toNat = roundInt mode (clip (f64Int x) 0 (255 * f64One)) f64One ∧
      (toSample mode x).toNat = clip (rnd mode x) 0 255

/-! ### The DCT engine -/

/-- 44_dct_engine.md R266, DCT.EMBED with the default border: every block's samples, the border copied, and its errors in
order; the collaborator's faults come last (R268). That a block which carries no bit has no forward fault is the model's reading
of R265 beside R268's "some block i" (log 14, DEDUCED): `ForwardFaults` and the success clause rest on it. -/
def Obligations.DctEmbedHidesTheMessage : Prop :=
  encode .dctEmbed = 0x00000011 ∧
  ∀ (s : State) (job : Job), s.engine = .busy job → job.raced = false →
    let p := Config.params
    let o := job.snap
    let src := o.regs.srcAddr.toNat
    let dst := o.regs.dstAddr.toNat
    let msg := o.regs.msgAddr.toNat
    let l := o.regs.msgLen.toNat
    let n := rows o * cols o
    (DctReady o → DctEmbedRegions o → l ≤ dctCapacityOf o → Characters s msg l →
      ∃ t, exec .dctEmbed s = .next t ∧
        ((∀ i < blocks o, ¬ ForwardFaults p s o i ∧ ¬ InverseFaults p s o i) →
          Succeeds s t (wordOf (embedded o)) (wordOf (dctCapacityOf o)) ∧
          KeepsConfig s t ∧ t.status.outbufFull = s.status.outbufFull ∧
          t.outDim0 = o.regs.dim0 ∧ t.outDim1 = o.regs.dim1 ∧
          (∀ i < blocks o, ∀ u v, block t o dst i u v =
            blockSamples p (target o) (factor o) (ofSamples (block s o src i)) (carried s o i) u v) ∧
          (∀ y < rows o, ∀ x < cols o,
            rows o / bsize o * bsize o ≤ y ∨ cols o / bsize o * bsize o ≤ x →
            memRead t.mem (dst + y * cols o + x) = memRead s.mem (src + y * cols o + x)) ∧
          SameOutside s t dst n) ∧
        ∀ i < blocks o, (∀ j < i, ¬ ForwardFaults p s o j ∧ ¬ InverseFaults p s o j) →
          (ForwardFaults p s o i → Fails s t .collaboratorFault (wordOf i) 0) ∧
          (¬ ForwardFaults p s o i → InverseFaults p s o i → Fails s t .collaboratorFault (wordOf i) 1)) ∧
    (o.dctValid = false → EndsWith .dctEmbed s .notConfigured 0 0) ∧
    (o.dctValid = true → o.regs.rank.toNat ≠ 2 → EndsWith .dctEmbed s .invalidShape o.regs.rank 1) ∧
    (o.dctValid = true → o.regs.rank.toNat = 2 → 2 ^ 32 ≤ n → EndsWith .dctEmbed s .invalidShape 2 2) ∧
    (DctReady o → EmbedRegionErrors .dctEmbed s o n) ∧
    (DctReady o → DctEmbedRegions o → dctCapacityOf o < l →
      EndsWith .dctEmbed s .capacityExceeded o.regs.msgLen (wordOf (dctCapacityOf o))) ∧
    ∀ k, DctReady o → DctEmbedRegions o → l ≤ dctCapacityOf o → FirstBad s msg l k →
      EndsWith .dctEmbed s .invalidCharacter (wordOf k) (wordOf (memRead s.mem (msg + k)).toNat)

/-- 44_dct_engine.md R274, DCT.EXTRACT; the collaborator's faults come last (R276). -/
def Obligations.DctExtractReadsTheMessage : Prop :=
  encode .dctExtract = 0x00000012 ∧
  ∀ (s : State) (job : Job), s.engine = .busy job → job.raced = false →
    let p := Config.params
    let o := job.snap
    let src := o.regs.srcAddr.toNat
    let n := rows o * cols o
    (DctReady o → ExtractRegions o n →
      ∃ t, exec .dctExtract s = .next t ∧
        ((∀ i < blocks o, f64Finite (targetOf p s o src i) = true) →
          Stores s t o.regs.msgAddr.toNat o.regs.msgLen.toNat
            (bitsToMessage ((List.range (blocks o)).map (extractedBit p s o src)))) ∧
        ∀ i < blocks o, (∀ j < i, f64Finite (targetOf p s o src j) = true) → f64Finite (targetOf p s o src i) = false →
          Fails s t .collaboratorFault (wordOf i) 0) ∧
    (o.dctValid = false → EndsWith .dctExtract s .notConfigured 0 0) ∧
    (o.dctValid = true → o.regs.rank.toNat ≠ 2 → EndsWith .dctExtract s .invalidShape o.regs.rank 1) ∧
    (o.dctValid = true → o.regs.rank.toNat = 2 → 2 ^ 32 ≤ n → EndsWith .dctExtract s .invalidShape 2 2) ∧
    (DctReady o → ExtractRegionErrors .dctExtract s o n)

/-- 44_dct_engine.md R280 (with R276), for every collaborator: DCT.EXTRACT of the output of DCT.EMBED returns exactly the message
if and only if every embedded block keeps its bit and no block has a coefficient that is not finite. -/
def Obligations.DctRoundTripIffBitsSurvive : Prop :=
  exec .dctEmbed = embedWith Config.fwd2D Config.inv2D ∧ exec .dctExtract = extractWith Config.fwd2D Config.inv2D ∧
  ∀ (fwd inv : (B : Nat) → BlockMatrix B → BlockMatrix B) (s t s' : State) (job job' : Job),
    s.engine = .busy job → job.raced = false → s.status.err = false →
    embedWith fwd inv s = .next t → t.status.err = false →
    let p := withTransform fwd inv
    let o := job.snap
    let o' := job'.snap
    let l := o.regs.msgLen.toNat
    let src' := o'.regs.srcAddr.toNat
    7 ≤ blocks o → (∀ k < l, memRead s.mem (o.regs.msgAddr.toNat + k) ≠ 0) →
    s'.engine = .busy job' → job'.raced = false → s'.status.done = false → s'.mem = t.mem →
    o'.act = o.act → o'.dctValid = true → o'.regs.rank = o.regs.rank → o'.regs.dim0 = o.regs.dim0 →
    o'.regs.dim1 = o.regs.dim1 → o'.regs.srcAddr = o.regs.dstAddr → l ≤ o'.regs.msgLen.toNat →
    ExtractRegions o' (rows o * cols o) →
    ∃ u, extractWith fwd inv s' = .next u ∧
      ((u.status.done = true ∧ u.result1 = o.regs.msgLen ∧
          ∀ k < l, memRead u.mem (o'.regs.msgAddr.toNat + k) = memRead s.mem (o.regs.msgAddr.toNat + k)) ↔
        (∀ i < blocks o, f64Finite (targetOf p s' o' src' i) = true) ∧
          ∀ i < 7 * (l + 1), extractedBit p s' o' src' i = framedBit s o.regs.msgAddr.toNat l i)

/-- 44_dct_engine.md R265 under the named assumption ROUNDTRIP_EXACT of R282: blocks past the message come back unchanged. -/
def Obligations.PassedBlocksAreUnchangedIfTheTransformIsExact : Prop :=
  ∀ (fwd inv : (B : Nat) → BlockMatrix B → BlockMatrix B) (s t : State) (job : Job),
    s.engine = .busy job → job.raced = false → s.status.err = false →
    RoundtripExact (withTransform fwd inv) (bsize job.snap) → embedWith fwd inv s = .next t → t.status.err = false →
    ∀ i, embedded job.snap ≤ i → i < blocks job.snap →
      block t job.snap job.snap.regs.dstAddr.toNat i = block s job.snap job.snap.regs.srcAddr.toNat i

/-- 44_dct_engine.md R276 under the named assumption FINITE of R282: with a legal configuration DCT.EXTRACT never ends with
COLLABORATOR_FAULT. -/
def Obligations.FiniteCollaboratorNeverFaultsExtract : Prop :=
  ∀ (fwd inv : (B : Nat) → BlockMatrix B → BlockMatrix B) (s t : State) (job : Job),
    s.engine = .busy job → s.status.errCode ≠ .collaboratorFault → LegalConfig Config.params job.snap.act →
    FiniteResults (withTransform fwd inv) (bsize job.snap) → extractWith fwd inv s = .next t →
    t.status.errCode ≠ .collaboratorFault

/-! ### The register window -/

/-- 10_state.md R31, R40, R57: a register transaction of the host reads or writes the register at its offset, the offsets of all 31
as numbers, and moves the host on; every operand register reads back what was written, and that write changes no other register.
30_encoding.md R124: the transactions of a program, in program order; `encodingOf` is without the polls of a WAIT. -/
def Obligations.TransactionsReadAndWriteRegisters : Prop :=
  (∀ r, (regOffset r, r) ∈ registerMap) ∧ (registerMap.map (·.2)).Nodup ∧
  (∀ s, (window s).map (·.1) = registerMap.map (·.1)) ∧
  (∀ (s : State) (off : Nat) (r : Reg) (v : HostVal) (w : Word), (off, r) ∈ registerMap → HostRuns s (.wr 32 off v) →
    hostValue s v = some w →
    step s = .next { writeReg Config.params { s with turns := s.turns.tail } r w with host := (passed s).host } ∧
      busTransaction Config.params s (.wr 32 off v) = some (true, off, w)) ∧
  (∀ (s : State) (off : Nat) (r : Reg) (w : Word) (x : Nat), (off, r) ∈ registerMap → (off, w) ∈ window s →
    HostRuns s (.rd 32 off x) → ∃ t, step s = .next t ∧
    tableGet t.host.vars x = some w ∧ readReg Config.params s r = w ∧ t.host.pc = s.host.pc + 1 ∧
    (∀ r', readReg Config.params t r' = readReg Config.params s r') ∧ t.engine = s.engine ∧ t.mem = s.mem ∧
    busTransaction Config.params s (.rd 32 off x) = some (false, off, w)) ∧
  (∀ (s : State) (off : Nat) (v : HostVal) (w : Word), off ∈ operandOffsets → HostRuns s (.wr 32 off v) →
    hostValue s v = some w → ∃ t, step s = .next t ∧
    window t = (window s).map (fun e => if e.1 = off then (off, w) else e) ∧ t.engine = s.engine ∧ t.mem = s.mem) ∧
  (∀ (s : State) (r : Reg) (v : Word), r ∈ operandRegs →
    readReg Config.params (writeReg Config.params s r v) r = v ∧
    (∀ r', r' ≠ r → readReg Config.params (writeReg Config.params s r v) r' = readReg Config.params s r') ∧
    (writeReg Config.params s r v).engine = s.engine ∧ (writeReg Config.params s r v).mem = s.mem) ∧
  ∀ (s t : State) (k : Nat), step s = .next t →
    (nextAgent s = .engine → busTrace Config.params (k + 1) s = busTrace Config.params k t ∧
      encodingOf Config.params (k + 1) s = encodingOf Config.params k t) ∧
    ∀ st, HostRuns s st →
      busTrace Config.params (k + 1) s = (busTransaction Config.params s st).toList ++ busTrace Config.params k t ∧
      (∀ x, st = .wait x → busTransaction Config.params s st = some (false, 0x08, readReg Config.params s .status)) ∧
      encodingOf Config.params (k + 1) s =
        (match st with
          | .wait _ => if isBusy s then [] else (busTransaction Config.params s st).toList
          | _ => (busTransaction Config.params s st).toList) ++ encodingOf Config.params k t

/-- 10_state.md R33: reserved offsets, read-only registers and the read-only and reserved fields of STATUS ignore writes; CMD, the
reserved offset and reserved fields read 0. -/
def Obligations.ReadOnlyAndReservedIgnoreWrites : Prop :=
  ∀ (s : State) (v : Word),
    readAt Config.params s 0x7C = 0 ∧ writeAt Config.params s 0x7C v = s ∧
    (∀ r ∈ readOnlyRegs, writeReg Config.params s r v = s) ∧
    readReg Config.params s .cmd = 0 ∧
    (v.getLsbD 0 = false → readReg Config.params (writeReg Config.params s .ctrl v) .ctrl = v &&& 0x2) ∧
    readReg Config.params s .ctrl &&& 0xFFFFFFFD = 0 ∧
    readReg Config.params s .status &&& 0xFFFF00C0 = 0 ∧
    readReg Config.params (writeReg Config.params s .status v) .status &&& 0xFFFFFFD9 =
      readReg Config.params s .status &&& 0xFFFFFFD9 ∧
    readReg Config.params s .id = 0x53544743

/-- 10_state.md R32: a transaction of another size or at an unaligned offset is refused. -/
def Obligations.BadTransactionsAreRefused : Prop :=
  ∀ (s : State) (n off x : Nat) (v : HostVal), n ≠ 32 ∨ off % 4 ≠ 0 →
    (HostRuns s (.wr n off v) ∨ HostRuns s (.rd n off x)) → step s = .refused .badTransaction

/-- 10_state.md R43: the layout of STATUS, and that a write clears the W1C bits written 1 and changes nothing else. -/
def Obligations.StatusReadsAndClearsByBit : Prop :=
  ∀ (s : State) (v : Word),
    let w := readReg Config.params s .status
    let t := writeReg Config.params s .status v
    (w.getLsbD 0 = isBusy s ∧ w.getLsbD 1 = s.status.done ∧ w.getLsbD 2 = s.status.err ∧
      w.getLsbD 3 = s.status.dctValid ∧ w.getLsbD 4 = s.status.outbufFull ∧ w.getLsbD 5 = s.status.cmdOverrun ∧
      w.extractLsb' 8 8 = errCodeBits s.status.errCode) ∧
    t.status.done = (s.status.done && !v.getLsbD 1) ∧ t.status.err = (s.status.err && !v.getLsbD 2) ∧
    t.status.cmdOverrun = (s.status.cmdOverrun && !v.getLsbD 5) ∧ t.status.dctValid = s.status.dctValid ∧
    t.status.outbufFull = s.status.outbufFull ∧ t.status.errCode = s.status.errCode ∧
    { t with status := s.status } = s

/-- 10_state.md R35: the interrupt output, from the registers as they read. -/
def Obligations.IrqFollowsCtrlAndStatus : Prop :=
  ∀ s : State, irq s = ((readReg Config.params s .ctrl).getLsbD 1 &&
    ((readReg Config.params s .status).getLsbD 1 || (readReg Config.params s .status).getLsbD 2))

/-- 70_reset_and_hazards.md R366: acknowledging and masking lower IRQ within the transaction. -/
def Obligations.AcknowledgeLowersIrq : Prop :=
  ∀ (s : State) (v : Word),
    ((s.status.done = true → v.getLsbD 1 = true) → (s.status.err = true → v.getLsbD 2 = true) →
      irq (writeReg Config.params s .status v) = false) ∧
    (v.getLsbD 0 = false → v.getLsbD 1 = false → irq (writeReg Config.params s .ctrl v) = false) ∧
    irq (acknowledge s) = false ∧ acknowledge s = writeReg Config.params s .status 0x26

/-- The host's WAIT (30_encoding.md R123): it polls STATUS, stays while BUSY and moves on once it reads BUSY = 0. -/
def Obligations.WaitPollsUntilNotBusy : Prop :=
  ∀ (s : State) (x : Nat), HostRuns s (.wait x) → ∃ t, step s = .next t ∧
    tableGet t.host.vars x = some (readReg Config.params s .status) ∧
    t.host.pc = (if isBusy s then s.host.pc else s.host.pc + 1) ∧ t.engine = s.engine ∧ t.status = s.status ∧
    t.mem = s.mem ∧ t.regs = s.regs

/-! ### Reset -/

/-- 10_state.md R60 and 70_reset_and_hazards.md R350, R351: what every register reads after a hardware and after a soft reset,
from any state; a write to CTRL without bit 0 only updates IRQ_EN. -/
def Obligations.ResetValues : Prop :=
  ∀ (s : State) (v : Word), v.getLsbD 0 = true →
    let t := writeReg Config.params s .ctrl v
    (HostRuns s .resetPin → ∃ u, step s = .next u ∧
      (∀ r, readReg Config.params u r = readReg Config.params State.reset r) ∧ u.engine = .idle ∧ irq u = false ∧
      (s.engine = .idle → u.mem = s.mem)) ∧
    (∀ r, readReg Config.params t r = if r = .id then 0x53544743 else 0) ∧
    (∀ r, readReg Config.params State.reset r = if r = .id then 0x53544743 else 0) ∧
    t.engine = .idle ∧ irq t = false ∧ State.reset.engine = .idle ∧ irq State.reset = false ∧
    (s.engine = .idle → t.mem = s.mem) ∧
    ∀ v' : Word, v'.getLsbD 0 = false → writeReg Config.params s .ctrl v' = { s with irqEn := v'.getLsbD 1 }

/-- 70_reset_and_hazards.md R352: a soft reset, and the reset input, while BUSY abandon the command. -/
def Obligations.ResetAbandonsTheCommand : Prop :=
  ∀ (s : State) (job : Job), s.engine = .busy job →
    (∀ v : Word, v.getLsbD 0 = true → Abandoned s (writeReg Config.params s .ctrl v) job) ∧
    (HostRuns s .resetPin → ∃ u, step s = .next u ∧ Abandoned s u job)

/-! ### Host and engine sharing memory -/

/-- 20_memory.md R98 (with R97 and 70_reset_and_hazards.md R362), the host's exclusion window, which the model holds in State
(log 7; free values, log 5): what a host write and a host read do in it and off it, what opens and what closes it, and that the completion of a raced
command leaves every byte of its output regions at a free value and every other byte as the command alone would. -/
def Obligations.RacedCompletionLeavesFreeOutputBytes : Prop :=
  HostWriteRule ∧ HostReadRule ∧ WindowRule ∧ HostAccessSteps ∧
  (∀ (s : State) (job : Job) (a : Nat) (b : Byte), s.engine = .busy job → s.unobserved = [] →
    (hostStore Config.params s a b).engine =
      .busy ⟨job.word, job.snap,
        job.raced || (jobRegions Config.params job).any (fun r => decide (r.base ≤ a ∧ a < r.base + r.len))⟩ ∧
      memRead (hostStore Config.params s a b).mem a = b) ∧
  ∀ (i : Instr) (s t : State) (job : Job), s.engine = .busy job → job.raced = true → exec i s = .next t →
    (∀ a < 2 ^ 32, (∃ r ∈ regionsOf Config.params i job.snap, r.output = true ∧ r.base ≤ a ∧ a < r.base + r.len) →
      memRead t.mem a = Config.freeByte s.freeCount a) ∧
    ∀ a, (∀ r ∈ regionsOf Config.params i job.snap, r.output = true → ¬ (r.base ≤ a ∧ a < r.base + r.len)) →
      memRead t.mem a = memRead s.mem a

/-! ### Invariants -/

/-- The invariant holds right after reset. -/
def Obligations.ResetMeetsTheInvariant : Prop := Inv State.reset ∧ MemoryExists State.reset

/-- Every step keeps the invariant: canonical memory, never both DONE and ERR, nothing to read while BUSY, a legal configuration
whenever DCT_VALID (10_state.md R43, R47; 70_reset_and_hazards.md R361, R365). -/
def Obligations.EveryStepKeepsTheInvariant : Prop := ∀ s t : State, Inv s → step s = .next t → Inv t

/-- Every step keeps memory inside the address space: no byte is ever written at an address that does not exist
(20_memory.md R80, R88). -/
def Obligations.EveryStepWritesOnlyExistingMemory : Prop :=
  ∀ s t : State, MemoryExists s → step s = .next t → MemoryExists t
end

