-- ==== Sys2Proof/Laws/State.lean ====
section
/-! SUPPORT. One lemma per field for each update of the state: true by `rfl`, so that no proof unfolds a record update. -/

namespace Sys2Proof.Machine

section
variable (s : State)

@[simp] theorem issue_irqEn (w : Word) : (issue s w).irqEn = s.irqEn := rfl
@[simp] theorem issue_status (w : Word) : (issue s w).status = statusIssue s.status := rfl
@[simp] theorem issue_regs (w : Word) : (issue s w).regs = s.regs := rfl
@[simp] theorem issue_act (w : Word) : (issue s w).act = s.act := rfl
@[simp] theorem issue_result0 (w : Word) : (issue s w).result0 = 0 := rfl
@[simp] theorem issue_result1 (w : Word) : (issue s w).result1 = 0 := rfl
@[simp] theorem issue_errInfo0 (w : Word) : (issue s w).errInfo0 = 0 := rfl
@[simp] theorem issue_errInfo1 (w : Word) : (issue s w).errInfo1 = 0 := rfl
@[simp] theorem issue_outDim0 (w : Word) : (issue s w).outDim0 = 0 := rfl
@[simp] theorem issue_outDim1 (w : Word) : (issue s w).outDim1 = 0 := rfl
@[simp] theorem issue_engine (w : Word) : (issue s w).engine = .busy ⟨w, takeSnapshot s, false⟩ := rfl
@[simp] theorem issue_mem (w : Word) : (issue s w).mem = s.mem := rfl
@[simp] theorem issue_unobserved (w : Word) : (issue s w).unobserved = s.unobserved := rfl
@[simp] theorem issue_freeCount (w : Word) : (issue s w).freeCount = s.freeCount := rfl
@[simp] theorem issue_host (w : Word) : (issue s w).host = s.host := rfl
@[simp] theorem issue_turns (w : Word) : (issue s w).turns = s.turns := rfl

@[simp] theorem overrun_irqEn : (overrun s).irqEn = s.irqEn := rfl
@[simp] theorem overrun_status : (overrun s).status = statusOverrun s.status := rfl
@[simp] theorem overrun_regs : (overrun s).regs = s.regs := rfl
@[simp] theorem overrun_act : (overrun s).act = s.act := rfl
@[simp] theorem overrun_result0 : (overrun s).result0 = s.result0 := rfl
@[simp] theorem overrun_result1 : (overrun s).result1 = s.result1 := rfl
@[simp] theorem overrun_errInfo0 : (overrun s).errInfo0 = s.errInfo0 := rfl
@[simp] theorem overrun_errInfo1 : (overrun s).errInfo1 = s.errInfo1 := rfl
@[simp] theorem overrun_outDim0 : (overrun s).outDim0 = s.outDim0 := rfl
@[simp] theorem overrun_outDim1 : (overrun s).outDim1 = s.outDim1 := rfl
@[simp] theorem overrun_engine : (overrun s).engine = s.engine := rfl
@[simp] theorem overrun_mem : (overrun s).mem = s.mem := rfl
@[simp] theorem overrun_unobserved : (overrun s).unobserved = s.unobserved := rfl
@[simp] theorem overrun_freeCount : (overrun s).freeCount = s.freeCount := rfl
@[simp] theorem overrun_host : (overrun s).host = s.host := rfl
@[simp] theorem overrun_turns : (overrun s).turns = s.turns := rfl

@[simp] theorem succeed_irqEn (e : Effect) : (succeed e s).irqEn = s.irqEn := rfl
@[simp] theorem succeed_status (e : Effect) : (succeed e s).status = statusDone e.outbufFull e.config.isSome s.status := rfl
@[simp] theorem succeed_regs (e : Effect) : (succeed e s).regs = s.regs := rfl
@[simp] theorem succeed_act (e : Effect) : (succeed e s).act = e.config.getD s.act := rfl
@[simp] theorem succeed_result0 (e : Effect) : (succeed e s).result0 = e.result0 := rfl
@[simp] theorem succeed_result1 (e : Effect) : (succeed e s).result1 = e.result1 := rfl
@[simp] theorem succeed_errInfo0 (e : Effect) : (succeed e s).errInfo0 = s.errInfo0 := rfl
@[simp] theorem succeed_errInfo1 (e : Effect) : (succeed e s).errInfo1 = s.errInfo1 := rfl
@[simp] theorem succeed_outDim0 (e : Effect) : (succeed e s).outDim0 = e.outDim0 := rfl
@[simp] theorem succeed_outDim1 (e : Effect) : (succeed e s).outDim1 = e.outDim1 := rfl
@[simp] theorem succeed_engine (e : Effect) : (succeed e s).engine = s.engine := rfl
@[simp] theorem succeed_mem (e : Effect) : (succeed e s).mem = memWriteBytes s.mem e.base e.bytes := rfl
@[simp] theorem succeed_unobserved (e : Effect) : (succeed e s).unobserved = s.unobserved := rfl
@[simp] theorem succeed_freeCount (e : Effect) : (succeed e s).freeCount = s.freeCount := rfl
@[simp] theorem succeed_host (e : Effect) : (succeed e s).host = s.host := rfl
@[simp] theorem succeed_turns (e : Effect) : (succeed e s).turns = s.turns := rfl

@[simp] theorem raiseError_irqEn (x : CmdError) : (raiseError x s).irqEn = s.irqEn := rfl
@[simp] theorem raiseError_status (x : CmdError) : (raiseError x s).status = statusError x.code s.status := rfl
@[simp] theorem raiseError_regs (x : CmdError) : (raiseError x s).regs = s.regs := rfl
@[simp] theorem raiseError_act (x : CmdError) : (raiseError x s).act = s.act := rfl
@[simp] theorem raiseError_result0 (x : CmdError) : (raiseError x s).result0 = s.result0 := rfl
@[simp] theorem raiseError_result1 (x : CmdError) : (raiseError x s).result1 = s.result1 := rfl
@[simp] theorem raiseError_errInfo0 (x : CmdError) : (raiseError x s).errInfo0 = x.info0 := rfl
@[simp] theorem raiseError_errInfo1 (x : CmdError) : (raiseError x s).errInfo1 = x.info1 := rfl
@[simp] theorem raiseError_outDim0 (x : CmdError) : (raiseError x s).outDim0 = 0 := rfl
@[simp] theorem raiseError_outDim1 (x : CmdError) : (raiseError x s).outDim1 = 0 := rfl
@[simp] theorem raiseError_engine (x : CmdError) : (raiseError x s).engine = s.engine := rfl
@[simp] theorem raiseError_mem (x : CmdError) : (raiseError x s).mem = s.mem := rfl
@[simp] theorem raiseError_unobserved (x : CmdError) : (raiseError x s).unobserved = s.unobserved := rfl
@[simp] theorem raiseError_freeCount (x : CmdError) : (raiseError x s).freeCount = s.freeCount := rfl
@[simp] theorem raiseError_host (x : CmdError) : (raiseError x s).host = s.host := rfl
@[simp] theorem raiseError_turns (x : CmdError) : (raiseError x s).turns = s.turns := rfl

@[simp] theorem retire_irqEn (rs : List Region) : (retire rs s).irqEn = s.irqEn := rfl
@[simp] theorem retire_status (rs : List Region) : (retire rs s).status = s.status := rfl
@[simp] theorem retire_regs (rs : List Region) : (retire rs s).regs = s.regs := rfl
@[simp] theorem retire_act (rs : List Region) : (retire rs s).act = s.act := rfl
@[simp] theorem retire_result0 (rs : List Region) : (retire rs s).result0 = s.result0 := rfl
@[simp] theorem retire_result1 (rs : List Region) : (retire rs s).result1 = s.result1 := rfl
@[simp] theorem retire_errInfo0 (rs : List Region) : (retire rs s).errInfo0 = s.errInfo0 := rfl
@[simp] theorem retire_errInfo1 (rs : List Region) : (retire rs s).errInfo1 = s.errInfo1 := rfl
@[simp] theorem retire_outDim0 (rs : List Region) : (retire rs s).outDim0 = s.outDim0 := rfl
@[simp] theorem retire_outDim1 (rs : List Region) : (retire rs s).outDim1 = s.outDim1 := rfl
@[simp] theorem retire_engine (rs : List Region) : (retire rs s).engine = .idle := rfl
@[simp] theorem retire_mem (rs : List Region) : (retire rs s).mem = s.mem := rfl
@[simp] theorem retire_unobserved (rs : List Region) : (retire rs s).unobserved = s.unobserved ++ (if rs.isEmpty then [] else [rs]) := rfl
@[simp] theorem retire_freeCount (rs : List Region) : (retire rs s).freeCount = s.freeCount := rfl
@[simp] theorem retire_host (rs : List Region) : (retire rs s).host = s.host := rfl
@[simp] theorem retire_turns (rs : List Region) : (retire rs s).turns = s.turns := rfl

@[simp] theorem scramble_irqEn (p : Params) (as : List Nat) : (scramble p as s).irqEn = s.irqEn := rfl
@[simp] theorem scramble_status (p : Params) (as : List Nat) : (scramble p as s).status = s.status := rfl
@[simp] theorem scramble_regs (p : Params) (as : List Nat) : (scramble p as s).regs = s.regs := rfl
@[simp] theorem scramble_act (p : Params) (as : List Nat) : (scramble p as s).act = s.act := rfl
@[simp] theorem scramble_result0 (p : Params) (as : List Nat) : (scramble p as s).result0 = s.result0 := rfl
@[simp] theorem scramble_result1 (p : Params) (as : List Nat) : (scramble p as s).result1 = s.result1 := rfl
@[simp] theorem scramble_errInfo0 (p : Params) (as : List Nat) : (scramble p as s).errInfo0 = s.errInfo0 := rfl
@[simp] theorem scramble_errInfo1 (p : Params) (as : List Nat) : (scramble p as s).errInfo1 = s.errInfo1 := rfl
@[simp] theorem scramble_outDim0 (p : Params) (as : List Nat) : (scramble p as s).outDim0 = s.outDim0 := rfl
@[simp] theorem scramble_outDim1 (p : Params) (as : List Nat) : (scramble p as s).outDim1 = s.outDim1 := rfl
@[simp] theorem scramble_engine (p : Params) (as : List Nat) : (scramble p as s).engine = s.engine := rfl
@[simp] theorem scramble_unobserved (p : Params) (as : List Nat) : (scramble p as s).unobserved = s.unobserved := rfl
@[simp] theorem scramble_freeCount (p : Params) (as : List Nat) : (scramble p as s).freeCount = s.freeCount + 1 := rfl
@[simp] theorem scramble_host (p : Params) (as : List Nat) : (scramble p as s).host = s.host := rfl
@[simp] theorem scramble_turns (p : Params) (as : List Nat) : (scramble p as s).turns = s.turns := rfl

@[simp] theorem observeIdle_irqEn : (observeIdle s).irqEn = s.irqEn := rfl
@[simp] theorem observeIdle_status : (observeIdle s).status = s.status := rfl
@[simp] theorem observeIdle_regs : (observeIdle s).regs = s.regs := rfl
@[simp] theorem observeIdle_act : (observeIdle s).act = s.act := rfl
@[simp] theorem observeIdle_result0 : (observeIdle s).result0 = s.result0 := rfl
@[simp] theorem observeIdle_result1 : (observeIdle s).result1 = s.result1 := rfl
@[simp] theorem observeIdle_errInfo0 : (observeIdle s).errInfo0 = s.errInfo0 := rfl
@[simp] theorem observeIdle_errInfo1 : (observeIdle s).errInfo1 = s.errInfo1 := rfl
@[simp] theorem observeIdle_outDim0 : (observeIdle s).outDim0 = s.outDim0 := rfl
@[simp] theorem observeIdle_outDim1 : (observeIdle s).outDim1 = s.outDim1 := rfl
@[simp] theorem observeIdle_engine : (observeIdle s).engine = s.engine := rfl
@[simp] theorem observeIdle_mem : (observeIdle s).mem = s.mem := rfl
@[simp] theorem observeIdle_unobserved : (observeIdle s).unobserved = [] := rfl
@[simp] theorem observeIdle_freeCount : (observeIdle s).freeCount = s.freeCount := rfl
@[simp] theorem observeIdle_host : (observeIdle s).host = s.host := rfl
@[simp] theorem observeIdle_turns : (observeIdle s).turns = s.turns := rfl

@[simp] theorem advance_irqEn : (advance s).irqEn = s.irqEn := rfl
@[simp] theorem advance_status : (advance s).status = s.status := rfl
@[simp] theorem advance_regs : (advance s).regs = s.regs := rfl
@[simp] theorem advance_act : (advance s).act = s.act := rfl
@[simp] theorem advance_result0 : (advance s).result0 = s.result0 := rfl
@[simp] theorem advance_result1 : (advance s).result1 = s.result1 := rfl
@[simp] theorem advance_errInfo0 : (advance s).errInfo0 = s.errInfo0 := rfl
@[simp] theorem advance_errInfo1 : (advance s).errInfo1 = s.errInfo1 := rfl
@[simp] theorem advance_outDim0 : (advance s).outDim0 = s.outDim0 := rfl
@[simp] theorem advance_outDim1 : (advance s).outDim1 = s.outDim1 := rfl
@[simp] theorem advance_engine : (advance s).engine = s.engine := rfl
@[simp] theorem advance_mem : (advance s).mem = s.mem := rfl
@[simp] theorem advance_unobserved : (advance s).unobserved = s.unobserved := rfl
@[simp] theorem advance_freeCount : (advance s).freeCount = s.freeCount := rfl
@[simp] theorem advance_host : (advance s).host = ⟨s.host.program, s.host.pc + 1, s.host.vars⟩ := rfl
@[simp] theorem advance_turns : (advance s).turns = s.turns := rfl

@[simp] theorem jump_irqEn (k : Nat) : (jump k s).irqEn = s.irqEn := rfl
@[simp] theorem jump_status (k : Nat) : (jump k s).status = s.status := rfl
@[simp] theorem jump_regs (k : Nat) : (jump k s).regs = s.regs := rfl
@[simp] theorem jump_act (k : Nat) : (jump k s).act = s.act := rfl
@[simp] theorem jump_result0 (k : Nat) : (jump k s).result0 = s.result0 := rfl
@[simp] theorem jump_result1 (k : Nat) : (jump k s).result1 = s.result1 := rfl
@[simp] theorem jump_errInfo0 (k : Nat) : (jump k s).errInfo0 = s.errInfo0 := rfl
@[simp] theorem jump_errInfo1 (k : Nat) : (jump k s).errInfo1 = s.errInfo1 := rfl
@[simp] theorem jump_outDim0 (k : Nat) : (jump k s).outDim0 = s.outDim0 := rfl
@[simp] theorem jump_outDim1 (k : Nat) : (jump k s).outDim1 = s.outDim1 := rfl
@[simp] theorem jump_engine (k : Nat) : (jump k s).engine = s.engine := rfl
@[simp] theorem jump_mem (k : Nat) : (jump k s).mem = s.mem := rfl
@[simp] theorem jump_unobserved (k : Nat) : (jump k s).unobserved = s.unobserved := rfl
@[simp] theorem jump_freeCount (k : Nat) : (jump k s).freeCount = s.freeCount := rfl
@[simp] theorem jump_host (k : Nat) : (jump k s).host = ⟨s.host.program, k, s.host.vars⟩ := rfl
@[simp] theorem jump_turns (k : Nat) : (jump k s).turns = s.turns := rfl

@[simp] theorem assign_irqEn (x : Nat) (v : Word) : (assign x v s).irqEn = s.irqEn := rfl
@[simp] theorem assign_status (x : Nat) (v : Word) : (assign x v s).status = s.status := rfl
@[simp] theorem assign_regs (x : Nat) (v : Word) : (assign x v s).regs = s.regs := rfl
@[simp] theorem assign_act (x : Nat) (v : Word) : (assign x v s).act = s.act := rfl
@[simp] theorem assign_result0 (x : Nat) (v : Word) : (assign x v s).result0 = s.result0 := rfl
@[simp] theorem assign_result1 (x : Nat) (v : Word) : (assign x v s).result1 = s.result1 := rfl
@[simp] theorem assign_errInfo0 (x : Nat) (v : Word) : (assign x v s).errInfo0 = s.errInfo0 := rfl
@[simp] theorem assign_errInfo1 (x : Nat) (v : Word) : (assign x v s).errInfo1 = s.errInfo1 := rfl
@[simp] theorem assign_outDim0 (x : Nat) (v : Word) : (assign x v s).outDim0 = s.outDim0 := rfl
@[simp] theorem assign_outDim1 (x : Nat) (v : Word) : (assign x v s).outDim1 = s.outDim1 := rfl
@[simp] theorem assign_engine (x : Nat) (v : Word) : (assign x v s).engine = s.engine := rfl
@[simp] theorem assign_mem (x : Nat) (v : Word) : (assign x v s).mem = s.mem := rfl
@[simp] theorem assign_unobserved (x : Nat) (v : Word) : (assign x v s).unobserved = s.unobserved := rfl
@[simp] theorem assign_freeCount (x : Nat) (v : Word) : (assign x v s).freeCount = s.freeCount := rfl
@[simp] theorem assign_host (x : Nat) (v : Word) : (assign x v s).host = ⟨s.host.program, s.host.pc, tableSet s.host.vars x v⟩ := rfl
@[simp] theorem assign_turns (x : Nat) (v : Word) : (assign x v s).turns = s.turns := rfl

@[simp] theorem takeTurn_irqEn : (takeTurn s).irqEn = s.irqEn := rfl
@[simp] theorem takeTurn_status : (takeTurn s).status = s.status := rfl
@[simp] theorem takeTurn_regs : (takeTurn s).regs = s.regs := rfl
@[simp] theorem takeTurn_act : (takeTurn s).act = s.act := rfl
@[simp] theorem takeTurn_result0 : (takeTurn s).result0 = s.result0 := rfl
@[simp] theorem takeTurn_result1 : (takeTurn s).result1 = s.result1 := rfl
@[simp] theorem takeTurn_errInfo0 : (takeTurn s).errInfo0 = s.errInfo0 := rfl
@[simp] theorem takeTurn_errInfo1 : (takeTurn s).errInfo1 = s.errInfo1 := rfl
@[simp] theorem takeTurn_outDim0 : (takeTurn s).outDim0 = s.outDim0 := rfl
@[simp] theorem takeTurn_outDim1 : (takeTurn s).outDim1 = s.outDim1 := rfl
@[simp] theorem takeTurn_engine : (takeTurn s).engine = s.engine := rfl
@[simp] theorem takeTurn_mem : (takeTurn s).mem = s.mem := rfl
@[simp] theorem takeTurn_unobserved : (takeTurn s).unobserved = s.unobserved := rfl
@[simp] theorem takeTurn_freeCount : (takeTurn s).freeCount = s.freeCount := rfl
@[simp] theorem takeTurn_host : (takeTurn s).host = s.host := rfl
@[simp] theorem takeTurn_turns : (takeTurn s).turns = s.turns.tail := rfl

end

end Sys2Proof.Machine
end

