-- ==== Sys2Proof/Laws/Memory.lean ====
section
/-! SUPPORT. Canonical lists and data memory: read after write, what a write leaves alone, and that every operation keeps the
canonical form. -/

namespace Sys2Proof.Machine

section Table
variable {α : Type}

@[simp] theorem tableGet_nil (a : Nat) : tableGet ([] : List (Nat × α)) a = none := rfl

theorem tableGet_cons (k : Nat) (v : α) (t : List (Nat × α)) (a : Nat) :
    tableGet ((k, v) :: t) a = if a = k then some v else tableGet t a := rfl

@[simp] theorem tableGet_tableSet_self (t : List (Nat × α)) (a : Nat) (b : α) :
    tableGet (tableSet t a b) a = some b := by
  induction t with
  | nil => simp [tableSet, tableGet]
  | cons kv t ih =>
    obtain ⟨k, v⟩ := kv
    simp only [tableSet]
    split_ifs with h₁ h₂ <;> simp_all [tableGet]

theorem tableGet_tableSet_of_ne (t : List (Nat × α)) {a c : Nat} (b : α) (h : c ≠ a) :
    tableGet (tableSet t a b) c = tableGet t c := by
  induction t with
  | nil => simp [tableSet, tableGet, h]
  | cons kv t ih =>
    obtain ⟨k, v⟩ := kv
    simp only [tableSet]
    split_ifs with h₁ h₂
    · simp [tableGet, h]
    · subst h₂; simp [tableGet, h]
    · simp [tableGet, ih]

theorem tableGet_tableSet (t : List (Nat × α)) (a c : Nat) (b : α) :
    tableGet (tableSet t a b) c = if c = a then some b else tableGet t c := by
  split_ifs with h
  · rw [h, tableGet_tableSet_self]
  · exact tableGet_tableSet_of_ne t b h

theorem tableWf_iff (t : List (Nat × α)) : tableWf t = true ↔ (t.map Prod.fst).Pairwise (· < ·) := by
  simp [tableWf]

@[simp] theorem tableWf_nil : tableWf ([] : List (Nat × α)) = true := by simp [tableWf]

theorem tableWf_cons (k : Nat) (v : α) (t : List (Nat × α)) :
    tableWf ((k, v) :: t) = true ↔ (∀ c ∈ t, k < c.1) ∧ tableWf t = true := by
  simp [tableWf_iff, List.pairwise_cons]

theorem fst_of_mem_tableSet (t : List (Nat × α)) (a : Nat) (b : α) {c : Nat × α} (h : c ∈ tableSet t a b) :
    c.1 = a ∨ ∃ d ∈ t, c.1 = d.1 := by
  induction t with
  | nil => simp [tableSet] at h; simp [h]
  | cons kv t ih =>
    obtain ⟨k, v⟩ := kv
    simp only [tableSet] at h
    split_ifs at h with h₁ h₂
    · rcases List.mem_cons.1 h with rfl | h
      · exact .inl rfl
      · exact .inr ⟨c, h, rfl⟩
    · rcases List.mem_cons.1 h with rfl | h
      · exact .inl rfl
      · exact .inr ⟨c, List.mem_cons_of_mem _ h, rfl⟩
    · rcases List.mem_cons.1 h with rfl | h
      · exact .inr ⟨(k, v), by simp, rfl⟩
      · rcases ih h with h | ⟨d, hd, e⟩
        · exact .inl h
        · exact .inr ⟨d, List.mem_cons_of_mem _ hd, e⟩

theorem tableWf_tableSet {t : List (Nat × α)} (h : tableWf t = true) (a : Nat) (b : α) :
    tableWf (tableSet t a b) = true := by
  induction t with
  | nil => simp [tableSet, tableWf]
  | cons kv t ih =>
    obtain ⟨k, v⟩ := kv
    obtain ⟨hk, ht⟩ := (tableWf_cons k v t).1 h
    simp only [tableSet]
    split_ifs with h₁ h₂
    · refine (tableWf_cons a b _).2 ⟨fun c hc => ?_, h⟩
      rcases List.mem_cons.1 hc with rfl | hc
      · exact h₁
      · exact h₁.trans (hk c hc)
    · exact (tableWf_cons a b t).2 ⟨by simpa [h₂] using hk, ht⟩
    · refine (tableWf_cons k v _).2 ⟨fun c hc => ?_, ih ht⟩
      rcases fst_of_mem_tableSet t a b hc with e | ⟨d, hd, e⟩
      · omega
      · rw [e]; exact hk d hd

theorem tableGet_eq_none_of_lt {t : List (Nat × α)} {a : Nat} (h : ∀ c ∈ t, a < c.1) : tableGet t a = none := by
  induction t with
  | nil => rfl
  | cons kv t ih =>
    obtain ⟨k, v⟩ := kv
    have hk : a < k := h (k, v) (by simp)
    rw [tableGet_cons, if_neg (by omega), ih fun c hc => h c (List.mem_cons_of_mem _ hc)]

/-- Equal contents are equal data: what the canonical form is for. -/
theorem table_ext {t u : List (Nat × α)} (ht : tableWf t = true) (hu : tableWf u = true)
    (h : ∀ a, tableGet t a = tableGet u a) : t = u := by
  induction t generalizing u with
  | nil =>
    cases u with
    | nil => rfl
    | cons kv u => simpa [tableGet] using h kv.1
  | cons kv t ih =>
    obtain ⟨k, v⟩ := kv
    obtain ⟨hk, ht'⟩ := (tableWf_cons k v t).1 ht
    cases u with
    | nil => simpa [tableGet] using h k
    | cons lw u =>
      obtain ⟨l, w⟩ := lw
      obtain ⟨hl, hu'⟩ := (tableWf_cons l w u).1 hu
      have hkl : k = l := by
        rcases Nat.lt_trichotomy k l with hlt | rfl | hgt
        · have := h k
          rw [tableGet_cons, if_pos rfl, tableGet_eq_none_of_lt] at this
          · simp at this
          · intro c hc
            rcases List.mem_cons.1 hc with rfl | hc
            · exact hlt
            · exact hlt.trans (hl c hc)
        · rfl
        · have := h l
          rw [tableGet_cons l, if_pos rfl, tableGet_eq_none_of_lt] at this
          · simp at this
          · intro c hc
            rcases List.mem_cons.1 hc with rfl | hc
            · exact hgt
            · exact hgt.trans (hk c hc)
      subst hkl
      have hvw : v = w := by simpa [tableGet] using h k
      subst hvw
      congr 1
      refine ih ht' hu' fun a => ?_
      have := h a
      simp only [tableGet_cons] at this
      by_cases ha : a = k
      · subst ha; rw [tableGet_eq_none_of_lt hk, tableGet_eq_none_of_lt hl]
      · simpa [ha] using this

end Table

@[simp] theorem memRead_memWrite_self (m : Memory) (a : Nat) (b : Byte) : memRead (memWrite m a b) a = b := by
  simp [memRead, memWrite]

theorem memRead_memWrite_of_ne (m : Memory) {a c : Nat} (b : Byte) (h : c ≠ a) :
    memRead (memWrite m a b) c = memRead m c := by
  simp [memRead, memWrite, tableGet_tableSet_of_ne _ _ h]

theorem memWrite_wf {m : Memory} (h : Memory.wf m = true) (a : Nat) (b : Byte) : Memory.wf (memWrite m a b) = true :=
  tableWf_tableSet h a b

@[simp] theorem memWriteBytes_nil (m : Memory) (a : Nat) : memWriteBytes m a [] = m := rfl

theorem memWriteBytes_cons (m : Memory) (a : Nat) (b : Byte) (bs : List Byte) :
    memWriteBytes m a (b :: bs) = memWriteBytes (memWrite m a b) (a + 1) bs := rfl

theorem memWriteBytes_wf {m : Memory} (h : Memory.wf m = true) (a : Nat) (bs : List Byte) :
    Memory.wf (memWriteBytes m a bs) = true := by
  induction bs generalizing m a with
  | nil => exact h
  | cons b bs ih => exact ih (memWrite_wf h a b) (a + 1)

/-- A run of bytes leaves every address outside it as it was, listed or not. -/
theorem tableGet_memWriteBytes_of_outside (m : Memory) (a : Nat) (bs : List Byte) {c : Nat}
    (h : c < a ∨ a + bs.length ≤ c) : tableGet (memWriteBytes m a bs) c = tableGet m c := by
  induction bs generalizing m a with
  | nil => rfl
  | cons b bs ih =>
    simp only [List.length_cons] at h
    rw [memWriteBytes_cons, ih _ _ (by omega), memWrite, tableGet_tableSet_of_ne _ _ (by omega)]

theorem memRead_memWriteBytes_of_outside (m : Memory) (a : Nat) (bs : List Byte) {c : Nat}
    (h : c < a ∨ a + bs.length ≤ c) : memRead (memWriteBytes m a bs) c = memRead m c := by
  rw [memRead, tableGet_memWriteBytes_of_outside m a bs h, memRead]

/-- A run of bytes reads back byte by byte. -/
theorem memRead_memWriteBytes (m : Memory) (a : Nat) (bs : List Byte) (i : Nat) (h : i < bs.length) :
    memRead (memWriteBytes m a bs) (a + i) = bs[i] := by
  induction bs generalizing m a i with
  | nil => simp at h
  | cons b bs ih =>
    rw [memWriteBytes_cons]
    cases i with
    | zero => rw [memRead_memWriteBytes_of_outside _ _ _ (by omega)]; simp
    | succ i =>
      have := ih (memWrite m a b) (a + 1) i (by simpa using h)
      rw [show a + (i + 1) = a + 1 + i by omega, this]; rfl

@[simp] theorem memReadBytes_length (m : Memory) (a n : Nat) : (memReadBytes m a n).length = n := by
  simp [memReadBytes]

/-- A run of bytes reads back as it was written. -/
theorem memReadBytes_memWriteBytes (m : Memory) (a : Nat) (bs : List Byte) :
    memReadBytes (memWriteBytes m a bs) a bs.length = bs := by
  apply List.ext_getElem
  · simp
  · intro i h₁ h₂; simp [memReadBytes, memRead_memWriteBytes m a bs i h₂]

/-- Bytes read from equal contents are equal. -/
theorem memReadBytes_congr {m m' : Memory} {a n : Nat} (h : ∀ i < n, memRead m (a + i) = memRead m' (a + i)) :
    memReadBytes m a n = memReadBytes m' a n := by
  simp only [memReadBytes]
  exact List.map_congr_left fun i hi => h i (by simpa using hi)

/-- What a draw of free bytes does to memory, address by address. -/
theorem tableGet_foldl_memWrite (f : Nat → Byte) (as : List Nat) (m : Memory) (c : Nat) :
    tableGet (as.foldl (fun m a => memWrite m a (f a)) m) c = if c ∈ as then some (f c) else tableGet m c := by
  induction as generalizing m with
  | nil => simp
  | cons a as ih =>
    rw [List.foldl_cons, ih, memWrite, tableGet_tableSet]
    by_cases h : c = a <;> by_cases h' : c ∈ as <;> simp_all

theorem foldl_memWrite_wf (f : Nat → Byte) (as : List Nat) {m : Memory} (h : Memory.wf m = true) :
    Memory.wf (as.foldl (fun m a => memWrite m a (f a)) m) = true := by
  induction as generalizing m with
  | nil => exact h
  | cons a as ih => exact ih (memWrite_wf h a (f a))

/-- Scrambled addresses that exist hold the free byte of the draw, every other address what it held. -/
theorem tableGet_scramble (p : Params) (as : List Nat) (s : State) (c : Nat) :
    tableGet (scramble p as s).mem c =
      if c ∈ as ∧ addressExists p c = true then some (Config.freeByte s.freeCount c) else tableGet s.mem c := by
  simp [scramble, tableGet_foldl_memWrite]

theorem scramble_wf (p : Params) (as : List Nat) {s : State} (h : Memory.wf s.mem = true) :
    Memory.wf (scramble p as s).mem = true := foldl_memWrite_wf _ _ h

theorem memRead_scramble_of_not_mem (p : Params) {as : List Nat} (s : State) {c : Nat} (h : c ∉ as) :
    memRead (scramble p as s).mem c = memRead s.mem c := by
  simp [memRead, tableGet_scramble, h]

/-- The memory right after reset is in canonical form. -/
theorem reset_memory_wf : Memory.wf State.reset.mem = true := by simp [State.reset, Memory.wf]

end Sys2Proof.Machine
end

