-- ==== Sys2Proof/Laws/Ops.lean ====
section
/-! SUPPORT. What each shared operation can do, once: the checks, completion, perform, issue, reset. -/

namespace Sys2Proof.Machine

@[simp] theorem charWidth_eq : Config.charWidth = 7 := rfl

/-! ### Checks -/

@[simp] theorem unlessError_none (e : Effect) : unlessError none e = .ok e := rfl

@[simp] theorem unlessError_some (x : CmdError) (e : Effect) : unlessError (some x) e = .error x := rfl

/-- A command has its effect exactly if every check passes. -/
theorem unlessError_eq_ok {x : Option CmdError} {e e' : Effect} :
    unlessError x e = .ok e' ↔ x = none ∧ e = e' := by cases x <;> simp [unlessError]

/-- A command ends with the error its checks report. -/
theorem unlessError_eq_error {x : Option CmdError} {e : Effect} {y : CmdError} :
    unlessError x e = .error y ↔ x = some y := by cases x <;> simp [unlessError]

/-- Region admission at the default parameters (20_memory.md R88). -/
theorem admitted_iff (r : Region) :
    admitted Config.params r = true ↔ r.len = 0 ∨ r.base + r.len ≤ 2 ^ 32 := by
  simp only [admitted, Bool.or_eq_true, beq_iff_eq, Bool.and_eq_true, decide_eq_true_eq, List.all_eq_true]
  exact or_congr_right (and_iff_left fun _ _ => rfl)

/-- Every byte of a region that has been admitted exists (20_memory.md R80, R88). -/
theorem addressExists_of_admitted {p : Params} {r : Region} (h : admitted p r = true) {a : Nat} (hl : r.base ≤ a)
    (hu : a < r.base + r.len) : addressExists p a = true := by
  simp only [admitted, Bool.or_eq_true, beq_iff_eq, Bool.and_eq_true, decide_eq_true_eq, List.all_eq_true] at h
  obtain h | ⟨hb, hm⟩ := h
  · omega
  · have : a ∈ regionAddrs r := List.mem_map.2 ⟨a - r.base, List.mem_range.2 (by omega), by omega⟩
    simp [addressExists, hm a this]; omega

theorem addressExists_iff (a : Nat) : addressExists Config.params a = true ↔ a < 2 ^ 32 := by
  simp only [addressExists, Bool.and_eq_true, decide_eq_true_eq]
  exact and_iff_left rfl

theorem regionsOverlap_iff (r q : Region) :
    regionsOverlap r q = true ↔ 0 < r.len ∧ 0 < q.len ∧ r.base < q.base + q.len ∧ q.base < r.base + r.len := by
  simp [regionsOverlap]

theorem addressError_eq_none {p : Params} {rs : List Region} :
    addressError p rs = none ↔ ∀ r ∈ rs, admitted p r = true := by
  simp [addressError]

theorem overlapError_eq_none {rs : List Region} :
    overlapError rs = none ↔
      ∀ out ∈ rs, out.output = true → ∀ r ∈ rs, r.id ≠ out.id → regionsOverlap out r = false := by
  simp [overlapError, List.findSome?_eq_none_iff]

theorem regionError_eq_none {p : Params} {rs : List Region} :
    regionError p rs = none ↔ addressError p rs = none ∧ overlapError rs = none := by
  simp [regionError]

/-! ### Completion -/

section Complete
variable (p : Params) (rs : List Region) (raced : Bool) (r : CmdResult) (s : State)

@[simp] theorem settleRace_false : settleRace p rs false s = s := rfl

@[simp] theorem settleRace_irqEn : (settleRace p rs raced s).irqEn = s.irqEn := by cases raced <;> rfl
@[simp] theorem settleRace_status : (settleRace p rs raced s).status = s.status := by cases raced <;> rfl
@[simp] theorem settleRace_regs : (settleRace p rs raced s).regs = s.regs := by cases raced <;> rfl
@[simp] theorem settleRace_act : (settleRace p rs raced s).act = s.act := by cases raced <;> rfl
@[simp] theorem settleRace_result0 : (settleRace p rs raced s).result0 = s.result0 := by cases raced <;> rfl
@[simp] theorem settleRace_result1 : (settleRace p rs raced s).result1 = s.result1 := by cases raced <;> rfl
@[simp] theorem settleRace_errInfo0 : (settleRace p rs raced s).errInfo0 = s.errInfo0 := by cases raced <;> rfl
@[simp] theorem settleRace_errInfo1 : (settleRace p rs raced s).errInfo1 = s.errInfo1 := by cases raced <;> rfl
@[simp] theorem settleRace_outDim0 : (settleRace p rs raced s).outDim0 = s.outDim0 := by cases raced <;> rfl
@[simp] theorem settleRace_outDim1 : (settleRace p rs raced s).outDim1 = s.outDim1 := by cases raced <;> rfl
@[simp] theorem settleRace_engine : (settleRace p rs raced s).engine = s.engine := by cases raced <;> rfl
@[simp] theorem settleRace_unobserved : (settleRace p rs raced s).unobserved = s.unobserved := by cases raced <;> rfl
@[simp] theorem settleRace_host : (settleRace p rs raced s).host = s.host := by cases raced <;> rfl
@[simp] theorem settleRace_turns : (settleRace p rs raced s).turns = s.turns := by cases raced <;> rfl

@[simp] theorem complete_engine : (complete p rs raced r s).engine = .idle := by simp [complete]
@[simp] theorem complete_regs : (complete p rs raced r s).regs = s.regs := by cases r <;> simp [complete]
@[simp] theorem complete_irqEn : (complete p rs raced r s).irqEn = s.irqEn := by cases r <;> simp [complete]
@[simp] theorem complete_host : (complete p rs raced r s).host = s.host := by cases r <;> simp [complete]
@[simp] theorem complete_turns : (complete p rs raced r s).turns = s.turns := by cases r <;> simp [complete]

/-- Completion without error, every register (60_exceptions.md R302). -/
theorem complete_ok (e : Effect) :
    let t := complete p rs raced (.ok e) s
    t.status = statusDone e.outbufFull e.config.isSome s.status ∧ t.act = e.config.getD s.act ∧
      t.result0 = e.result0 ∧ t.result1 = e.result1 ∧ t.outDim0 = e.outDim0 ∧ t.outDim1 = e.outDim1 ∧
      t.errInfo0 = s.errInfo0 ∧ t.errInfo1 = s.errInfo1 := by simp [complete]

/-- Completion with an error, every register (60_exceptions.md R303). -/
theorem complete_error (x : CmdError) :
    let t := complete p rs raced (.error x) s
    t.status = statusError x.code s.status ∧ t.act = s.act ∧ t.result0 = s.result0 ∧ t.result1 = s.result1 ∧
      t.outDim0 = 0 ∧ t.outDim1 = 0 ∧ t.errInfo0 = x.info0 ∧ t.errInfo1 = x.info1 := by simp [complete]

/-- Without a race a completion with an error writes no byte, and one without writes its effect's bytes. -/
theorem complete_mem_of_not_raced :
    (complete p rs false r s).mem =
      match r with
      | .ok e => memWriteBytes s.mem e.base e.bytes
      | .error _ => s.mem := by cases r <;> rfl

theorem complete_wf (h : Memory.wf s.mem = true) : Memory.wf (complete p rs raced r s).mem = true := by
  have hw : Memory.wf (retire rs (match r with
      | .ok e => succeed e s
      | .error x => raiseError x s)).mem = true := by
    cases r with
    | ok e => exact memWriteBytes_wf h _ _
    | error x => exact h
  cases raced with
  | false => exact hw
  | true => exact scramble_wf p _ hw

end Complete

theorem perform_busy (p : Params) (i : Instr) (cmd : Snapshot → Memory → CmdResult) {s : State} {job : Job}
    (h : s.engine = .busy job) :
    perform p i cmd s = .next (complete p (regionsOf p i job.snap) job.raced (cmd job.snap s.mem) s) := by
  simp [perform, h]

theorem perform_idle (p : Params) (i : Instr) (cmd : Snapshot → Memory → CmdResult) {s : State}
    (h : s.engine = .idle) : perform p i cmd s = .fault .noCommandInProgress := by
  simp [perform, h]

/-! ### Meanings -/

/-- Every arm of `exec` is the default build's meaning of its command. -/
theorem exec_eq_execIn (i : Instr) (s : State) : exec i s = execIn Config.params i s := by cases i <;> rfl

/-- A command in progress always completes (60_exceptions.md R301), in every build. -/
theorem execIn_busy (p : Params) (i : Instr) {s : State} {job : Job} (h : s.engine = .busy job) :
    execIn p i s = .next (complete p (regionsOf p i job.snap) job.raced (command p i job.snap s.mem) s) :=
  perform_busy p i _ h

/-- If a meaning answers a next state, a command was in progress and this is its completion. -/
theorem execIn_next {p : Params} {i : Instr} {s t : State} (h : execIn p i s = .next t) :
    ∃ job, s.engine = .busy job ∧
      t = complete p (regionsOf p i job.snap) job.raced (command p i job.snap s.mem) s := by
  cases hs : s.engine with
  | idle => rw [execIn, perform_idle _ _ _ hs] at h; cases h
  | busy job => rw [execIn_busy p i hs] at h; exact ⟨job, rfl, by cases h; rfl⟩

theorem exec_busy (i : Instr) {s : State} {job : Job} (h : s.engine = .busy job) :
    exec i s = .next (complete Config.params (regionsOf Config.params i job.snap) job.raced
      (command Config.params i job.snap s.mem) s) := by
  rw [exec_eq_execIn, execIn_busy _ i h]

theorem exec_next {i : Instr} {s t : State} (h : exec i s = .next t) :
    ∃ job, s.engine = .busy job ∧ t = complete Config.params (regionsOf Config.params i job.snap) job.raced
      (command Config.params i job.snap s.mem) s := execIn_next ((exec_eq_execIn i s).symm.trans h)

/-! ### Reset -/

/-- What a reset leaves of the machine: everything but data memory, the host and the model's own bookkeeping is as after
reset (10_state.md R60). -/
theorem resetMachine_eq (p : Params) (s : State) :
    resetMachine p s =
      { State.reset with
        mem := (abort p s).mem
        unobserved := (abort p s).unobserved
        freeCount := (abort p s).freeCount
        host := s.host
        turns := s.turns } := rfl

/-- An abort rewrites only addresses of the command's output regions that are in none of its input regions
(70_reset_and_hazards.md R352). -/
theorem tableGet_abort (p : Params) (s : State) (c : Nat)
    (h : ∀ job, s.engine = .busy job → c ∉ abortedAddrs p job) :
    tableGet (abort p s).mem c = tableGet s.mem c := by
  cases hs : s.engine with
  | idle => simp [abort, hs]
  | busy job => simp [abort, hs, tableGet_scramble, h job hs]

theorem abort_wf (p : Params) {s : State} (h : Memory.wf s.mem = true) : Memory.wf (abort p s).mem = true := by
  cases hs : s.engine with
  | idle => simpa [abort, hs] using h
  | busy job => simpa [abort, hs] using scramble_wf p _ h

theorem mem_outputAddrs (rs : List Region) (a : Nat) :
    a ∈ outputAddrs rs ↔ ∃ r ∈ rs, r.output = true ∧ r.base ≤ a ∧ a < r.base + r.len := by
  simp only [outputAddrs, regionAddrs, List.mem_flatMap, List.mem_filter, List.mem_map, List.mem_range]
  constructor
  · rintro ⟨r, ⟨hr, ho⟩, i, hi, rfl⟩; exact ⟨r, hr, ho, by omega, by omega⟩
  · rintro ⟨r, hr, ho, h₁, h₂⟩; exact ⟨r, ⟨hr, ho⟩, a - r.base, by omega, by omega⟩

theorem touchesOutput_iff (rs : List Region) (a : Nat) : touchesOutput rs a = true ↔ a ∈ outputAddrs rs := by
  simp [mem_outputAddrs, touchesOutput, regionHas]

end Sys2Proof.Machine
end

