-- ==== Sys2Proof/Laws/Codec.lean ====
section
/-! SUPPORT. The codec's functions, once each: lengths, the bit at a position, one stride of decoding, and what a stored
message leaves in memory (spec/40_codec.md). -/

namespace Sys2Proof.Machine

/-! ### Characters and bits -/

@[simp] theorem charToBits_length (c : Byte) : (charToBits c).length = 7 := by simp [charToBits]

theorem charToBits_getElem (c : Byte) (j : Nat) (h : j < (charToBits c).length) :
    (charToBits c)[j] = c.getLsbD (6 - j) := by simp [charToBits]

@[simp] theorem messageToBits_nil : messageToBits [] = [] := rfl

theorem messageToBits_cons (c : Byte) (m : List Byte) :
    messageToBits (c :: m) = charToBits c ++ messageToBits m := rfl

theorem messageToBits_append (m m' : List Byte) :
    messageToBits (m ++ m') = messageToBits m ++ messageToBits m' := by simp [messageToBits]

@[simp] theorem messageToBits_length (m : List Byte) : (messageToBits m).length = 7 * m.length := by
  induction m with
  | nil => rfl
  | cons c m ih => simp [messageToBits_cons, ih]; omega

/-- Bit `j` of a message is bit `6 - j mod 7` of character `j / 7` (R140, R142). -/
theorem messageToBits_getElem? (m : List Byte) (j : Nat) :
    (messageToBits m)[j]? = m[j / 7]?.map (·.getLsbD (6 - j % 7)) := by
  induction m generalizing j with
  | nil => simp
  | cons c m ih =>
    rw [messageToBits_cons]
    by_cases h : j < 7
    · rw [List.getElem?_append_left (by simpa using h), List.getElem?_eq_getElem (by simpa using h), charToBits_getElem]
      simp [Nat.div_eq_of_lt h, Nat.mod_eq_of_lt h]
    · rw [List.getElem?_append_right (by simpa using h), ih, charToBits_length,
        show j / 7 = (j - 7) / 7 + 1 by omega, show j % 7 = (j - 7) % 7 by omega, List.getElem?_cons_succ]

theorem messageToBits_getElem (m : List Byte) (j : Nat) (h : j < (messageToBits m).length) :
    (messageToBits m)[j] = (m[j / 7]'(by simp at h; omega)).getLsbD (6 - j % 7) := by
  have h' : j / 7 < m.length := by simp at h; omega
  have := messageToBits_getElem? m j
  rw [List.getElem?_eq_getElem h, List.getElem?_eq_getElem h'] at this
  simpa using this

/-- A character is what its own 7 bits decode to (R140, R143). -/
theorem bitsToChar_charToBits (c : Byte) (h : c.toNat ≤ 127) : bitsToChar (charToBits c) = c := by
  revert c
  decide +kernel

/-- `bitsToChar` looks at its first 7 bits only (R143). -/
theorem bitsToChar_take (s : Bits) : bitsToChar (s.take 7) = bitsToChar s := by
  simp [bitsToChar, List.take_take]

/-- What `bitsToChar` answers is a character (R143: `0 <= v <= 127`). -/
theorem bitsToChar_le (s : Bits) : (bitsToChar s).toNat ≤ 127 := by
  have key : ∀ (l : Bits) (v n : Nat), v < 2 ^ n →
      l.foldl (fun v b => 2 * v + b.toNat) v < 2 ^ (n + l.length) := by
    intro l
    induction l with
    | nil => intro v n h; simpa using h
    | cons b l ih =>
      intro v n h
      have := ih (2 * v + b.toNat) (n + 1) (by
        have := Bool.toNat_le b
        rw [Nat.pow_succ]; omega)
      simpa [Nat.add_assoc, Nat.add_comm 1] using this
  have h := key (s.take 7) 0 0 (by simp)
  have h' : (2 : Nat) ^ (0 + (s.take 7).length) ≤ 2 ^ 7 := Nat.pow_le_pow_right (by decide) (by simp)
  have : (s.take 7).foldl (fun v b => 2 * v + b.toNat) 0 < 128 := lt_of_lt_of_le h h'
  simp only [bitsToChar, BitVec.toNat_ofNat]
  omega

/-! ### Decoding -/

/-- One stride of decoding (R144). -/
theorem bitsToMessage_eq (s : Bits) :
    bitsToMessage s =
      if 7 ≤ s.length ∧ bitsToChar (s.take 7) ≠ 0 then bitsToChar (s.take 7) :: bitsToMessage (s.drop 7) else [] := by
  match s with
  | b0 :: b1 :: b2 :: b3 :: b4 :: b5 :: b6 :: rest =>
    rw [bitsToMessage]
    by_cases h : bitsToChar [b0, b1, b2, b3, b4, b5, b6] = 0 <;> simp [h]
  | [] => rfl
  | [_] => rfl
  | [_, _] => rfl
  | [_, _, _] => rfl
  | [_, _, _, _] => rfl
  | [_, _, _, _, _] => rfl
  | [_, _, _, _, _, _] => rfl

/-- Decoding stops where fewer than 7 bits or a zero group stand (R144). -/
theorem bitsToMessage_stop {s : Bits} (h : s.length < 7 ∨ bitsToChar (s.take 7) = 0) : bitsToMessage s = [] := by
  rw [bitsToMessage_eq, if_neg]
  rintro ⟨h₁, h₂⟩
  rcases h with h | h
  · omega
  · exact h₂ h

/-- A group that is no terminator is one character of the message (R144). -/
theorem bitsToMessage_append {g s : Bits} (hg : g.length = 7) (h : bitsToChar g ≠ 0) :
    bitsToMessage (g ++ s) = bitsToChar g :: bitsToMessage s := by
  rw [bitsToMessage_eq, if_pos]
  · simp [← hg]
  · rw [List.take_left' hg]; exact ⟨by simp [hg], h⟩

/-- The characters of a message are decoded one by one, as long as none is the terminator (R144, R145). -/
theorem bitsToMessage_messageToBits_append {m : List Byte} (s : Bits) (hc : ∀ c ∈ m, c.toNat ≤ 127)
    (hz : ∀ c ∈ m, c ≠ 0) : bitsToMessage (messageToBits m ++ s) = m ++ bitsToMessage s := by
  induction m with
  | nil => rfl
  | cons c m ih =>
    simp only [List.forall_mem_cons] at hc hz
    rw [messageToBits_cons, List.append_assoc, bitsToMessage_append (charToBits_length c),
      bitsToChar_charToBits c hc.1, ih hc.2 hz.2, List.cons_append]
    rw [bitsToChar_charToBits c hc.1]; exact hz.1

/-- The result has at most one character for 7 bits (R144). -/
theorem bitsToMessage_length_le (s : Bits) : 7 * (bitsToMessage s).length ≤ s.length := by
  induction hn : s.length using Nat.strong_induction_on generalizing s with
  | _ n ih =>
    rw [bitsToMessage_eq]
    split_ifs with h
    · have := ih (s.drop 7).length (by simp; omega) (s.drop 7) rfl
      simp only [List.length_drop, List.length_cons] at this ⊢
      omega
    · simp

/-- Seven bits are the bits of the character they decode to (R140, R143). -/
theorem charToBits_bitsToChar (g : Bits) (h : g.length = 7) : charToBits (bitsToChar g) = g := by
  have key : ∀ a b c d e f k : Bool, charToBits (bitsToChar [a, b, c, d, e, f, k]) = [a, b, c, d, e, f, k] := by
    decide +kernel
  rcases g with _ | ⟨a, _ | ⟨b, _ | ⟨c, _ | ⟨d, _ | ⟨e, _ | ⟨f, _ | ⟨k, _ | ⟨l, r⟩⟩⟩⟩⟩⟩⟩⟩ <;> simp at h
  exact key a b c d e f k

/-- A decoded message that the sequence holds with its terminator begins the sequence (R144). -/
theorem take_of_bitsToMessage {s : Bits} {m : List Byte} (hl : 7 * (m.length + 1) ≤ s.length) (hm : bitsToMessage s = m) :
    s.take (7 * (m.length + 1)) = messageToBits m ++ List.replicate 7 false := by
  induction m generalizing s with
  | nil =>
    rw [bitsToMessage_eq] at hm
    split_ifs at hm with h
    have h0 : bitsToChar (s.take 7) = 0 := by
      by_contra hc; exact h ⟨by simp at hl; omega, hc⟩
    have := charToBits_bitsToChar (s.take 7) (by simp at hl ⊢; omega)
    rw [h0, show charToBits 0 = List.replicate 7 false by decide] at this
    simpa using this.symm
  | cons c m ih =>
    rw [bitsToMessage_eq] at hm
    split_ifs at hm with h
    injection hm with h1 h2
    simp only [List.length_cons] at hl
    have := charToBits_bitsToChar (s.take 7) (by simp; omega)
    rw [h1] at this
    rw [messageToBits_cons, List.append_assoc, ← ih (by simp only [List.length_drop]; omega) h2, this,
      show 7 * ((c :: m).length + 1) = 7 + 7 * (m.length + 1) by simp only [List.length_cons]; omega, List.take_add]

/-! ### Packed sequences -/

@[simp] theorem packBits_length (s : Bits) : (packBits s).length = packedBytes s.length := by simp [packBits]

/-- Eight bits as a number, first bit first: bit `7 - r` is bit `r` of the sequence. -/
theorem byteOfBits_getLsbD (f : Nat → Bool) (r : Nat) (hr : r < 8) :
    (BitVec.ofNat 8 ((List.range 8).foldl (fun v t => 2 * v + (f t).toNat) 0)).getLsbD (7 - r) = f r := by
  have key : ∀ (a b c d e g h i : Bool) (r : Fin 8),
      (BitVec.ofNat 8 ([a, b, c, d, e, g, h, i].foldl (fun v t => 2 * v + t.toNat) 0)).getLsbD (7 - r) =
        [a, b, c, d, e, g, h, i][r] := by decide +kernel
  have := key (f 0) (f 1) (f 2) (f 3) (f 4) (f 5) (f 6) (f 7) ⟨r, hr⟩
  simp only [List.range, List.range.loop, List.foldl_cons, List.foldl_nil] at this ⊢
  rw [this]
  rcases r with _ | _ | _ | _ | _ | _ | _ | _ | r <;> first | rfl | omega

/-- Bit `j` of the packed bytes is bit `j` of the sequence, 0 past its end (20_memory.md R85). -/
theorem packBits_getLsbD (s : Bits) (j : Nat) (h : j / 8 < (packBits s).length) :
    ((packBits s)[j / 8]).getLsbD (7 - j % 8) = (s[j]?).getD false := by
  have hj : 8 * (j / 8) + j % 8 = j := by omega
  simp only [packBits, List.getElem_map, List.getElem_range]
  rw [byteOfBits_getLsbD (fun t => (s[8 * (j / 8) + t]?).getD false) (j % 8) (by omega), hj]

@[simp] theorem unpackBits_length (n : Nat) (bs : List Byte) : (unpackBits n bs).length = n := by simp [unpackBits]

theorem unpackBits_getElem (n : Nat) (bs : List Byte) (j : Nat) (h : j < (unpackBits n bs).length) :
    (unpackBits n bs)[j] = ((bs[j / 8]?).getD 0).getLsbD (7 - j % 8) := by simp [unpackBits]

end Sys2Proof.Machine
end

