-- ==== Sys2Proof/Laws/Errors.lean ====
section
/-! SUPPORT. Which code each check reports, and when each check passes (spec/60_exceptions.md R310, R311). -/

namespace Sys2Proof.Machine

/-! ### The code a check reports -/

theorem shapeError_code {p o x} (h : shapeError p o = some x) : x.code = .invalidShape := by
  unfold shapeError at h; split_ifs at h <;> cases h <;> rfl

theorem configError_code {o x} (h : configError o = some x) : x.code = .notConfigured := by
  unfold configError at h; split_ifs at h; cases h; rfl

theorem dctShapeError_code {p o x} (h : dctShapeError p o = some x) : x.code = .invalidShape := by
  unfold dctShapeError at h; split_ifs at h <;> cases h <;> rfl

theorem addressError_code {p rs x} (h : addressError p rs = some x) : x.code = .addressFault := by
  unfold addressError at h; rw [Option.map_eq_some_iff] at h; obtain ⟨r, -, rfl⟩ := h; rfl

theorem overlapError_code {rs x} (h : overlapError rs = some x) : x.code = .bufferOverlap := by
  unfold overlapError at h; rw [List.findSome?_eq_some_iff] at h
  obtain ⟨_, r, _, -, h, -⟩ := h
  rw [Option.map_eq_some_iff] at h; obtain ⟨r, -, rfl⟩ := h; rfl

theorem regionError_code {p rs x} (h : regionError p rs = some x) :
    x.code = .addressFault ∨ x.code = .bufferOverlap :=
  (Option.or_eq_some_iff.1 h).imp addressError_code fun h => overlapError_code h.2

theorem characterError_code {m x} (h : characterError m = some x) : x.code = .invalidCharacter := by
  unfold characterError at h; rw [Option.map_eq_some_iff] at h; obtain ⟨r, -, rfl⟩ := h; rfl

theorem capacityError_code {o c x} (h : capacityError o c = some x) : x.code = .capacityExceeded := by
  unfold capacityError at h; split_ifs at h; cases h; rfl

theorem bitBudgetError_code {o x} (h : bitBudgetError o = some x) : x.code = .capacityExceededBits := by
  unfold bitBudgetError at h; split_ifs at h; cases h; rfl

theorem parameterError_code {p o x} (h : parameterError p o = some x) : x.code = .invalidParameter := by
  unfold parameterError at h; split_ifs at h <;> cases h <;> rfl

theorem factorError_code {o x} (h : factorError o = some x) : x.code = .invalidOperand := by
  unfold factorError at h; split_ifs at h; cases h; rfl

theorem finiteError_code {o y x} (h : finiteError o y = some x) : x.code = .invalidOperand := by
  unfold finiteError at h; split_ifs at h; cases h; rfl

theorem embedCollaboratorError_code {p o m x} (h : embedCollaboratorError p o m = some x) :
    x.code = .collaboratorFault := by
  unfold embedCollaboratorError at h; rw [List.findSome?_eq_some_iff] at h
  obtain ⟨_, r, _, -, h, -⟩ := h
  unfold embedBlockFault at h; split_ifs at h <;> cases h <;> rfl

theorem extractCollaboratorError_code {p o m x} (h : extractCollaboratorError p o m = some x) :
    x.code = .collaboratorFault := by
  unfold extractCollaboratorError at h; rw [List.findSome?_eq_some_iff] at h
  obtain ⟨_, r, _, -, h, -⟩ := h
  split_ifs at h; cases h; rfl

/-! ### When the checks pass -/

theorem shapeError_eq_none {p o} :
    shapeError p o = none ↔ 1 ≤ o.regs.rank.toNat ∧ o.regs.rank.toNat ≤ p.maxRank ∧ sampleCount o < 2 ^ p.sizeW := by
  unfold shapeError; split_ifs <;> simp <;> omega

theorem configError_eq_none {o} : configError o = none ↔ o.dctValid = true := by
  unfold configError; split_ifs <;> simp_all

theorem dctShapeError_eq_none {p o} :
    dctShapeError p o = none ↔ o.regs.rank.toNat = 2 ∧ height o * width o < 2 ^ p.sizeW := by
  unfold dctShapeError; split_ifs <;> simp <;> omega

theorem capacityError_eq_none {o c} : capacityError o c = none ↔ o.regs.msgLen.toNat ≤ c := by
  unfold capacityError; split_ifs <;> simp <;> omega

theorem factorError_eq_none {o} : factorError o = none ↔ 0 < s32 o.regs.arg3 := by
  unfold factorError; split_ifs <;> simp <;> omega

theorem finiteError_eq_none {o x} : finiteError o x = none ↔ f64Finite x = true := by
  unfold finiteError; split_ifs <;> simp_all

/-- Every character is at most 127 (R141). -/
theorem characterError_eq_none {m : List Byte} : characterError m = none ↔ ∀ c ∈ m, c.toNat ≤ 127 := by
  simp only [characterError, Option.map_eq_none_iff, List.find?_eq_none, decide_eq_true_eq, not_lt]
  constructor
  · intro h c hc
    obtain ⟨k, hk, rfl⟩ := List.getElem_of_mem hc
    exact h (m[k], k) (by simp [List.mem_zipIdx_iff_getElem?])
  · rintro h ⟨c, k⟩ hc
    exact h c (List.fst_mem_of_mem_zipIdx hc)

/-- INVALID_CHARACTER names the smallest index whose character is above 127 (R141). -/
theorem characterError_of_first {m : List Byte} {k : Nat} (hk : k < m.length) (hb : 127 < m[k].toNat)
    (hf : ∀ j (h : j < k), (m[j]'(h.trans hk)).toNat ≤ 127) :
    characterError m = some ⟨.invalidCharacter, wordOf k, wordOf m[k].toNat⟩ := by
  have : m.zipIdx.find? (fun ck => decide (127 < ck.1.toNat)) = some (m[k], k) := by
    rw [List.find?_eq_some_iff_getElem]
    refine ⟨by simpa using hb, k, by simpa using hk, by simp, fun j hj => ?_⟩
    simpa using hf j hj
  simp [characterError, this]

/-- The block-size check is the power-of-two test of the source (R226). -/
theorem blockSizeCheck_iff (b : Word) :
    (b = 0 ∨ b &&& (b - 1) ≠ 0 ∨ 64 < b.toNat) ↔ ¬ ((∃ n, b.toNat = 2 ^ n) ∧ b.toNat ≤ 64) := by
  by_cases h : b.toNat ≤ 64
  · have key : ∀ n : Fin 65, (BitVec.ofNat 32 n = 0#32 ∨ BitVec.ofNat 32 n &&& (BitVec.ofNat 32 n - 1) ≠ 0) ↔
        ¬ ∃ m : Fin 7, (n : Nat) = 2 ^ (m : Nat) := by decide +kernel
    have := key ⟨b.toNat, by omega⟩
    simp only [BitVec.ofNat_toNat, BitVec.setWidth_eq] at this
    have hp : (∃ n, b.toNat = 2 ^ n) ↔ ∃ m : Fin 7, b.toNat = 2 ^ (m : Nat) := by
      constructor
      · rintro ⟨n, hn⟩
        refine ⟨⟨n, ?_⟩, hn⟩
        by_contra hc
        have : 2 ^ 7 ≤ 2 ^ n := Nat.pow_le_pow_right (by decide) (by omega)
        omega
      · rintro ⟨m, hm⟩; exact ⟨m, hm⟩
    rw [hp, and_iff_left h, ← this]
    refine or_congr_right (or_iff_left ?_)
    omega
  · exact ⟨fun _ h' => h h'.2, fun _ => .inr (.inr (by omega))⟩

/-- DCT.CONFIG accepts exactly the legal configurations (R226; 10_state.md R47). -/
theorem parameterError_eq_none {o : Snapshot} :
    parameterError Config.params o = none ↔
      LegalConfig Config.params ⟨o.regs.blockSize, o.regs.coefIndex, o.regs.quant⟩ := by
  have hb := blockSizeCheck_iff o.regs.blockSize
  constructor
  · intro h
    unfold parameterError at h
    split_ifs at h with h₁ h₂ h₃
    have hn := not_not.1 (mt hb.2 h₁)
    exact ⟨hn.1, hn.2, by simp only; omega, by simp only; omega, by simp only; omega⟩
  · rintro ⟨h₁, h₂, h₃, h₄, h₅⟩
    unfold parameterError
    simp only at h₁ h₂ h₃ h₄ h₅
    exact (if_neg fun h => hb.1 h ⟨h₁, h₂⟩).trans ((if_neg (by omega)).trans (if_neg (by omega)))

/-! ### Regions -/

/-- One region that is not admitted, every lower one admitted: ADDRESS_FAULT names it (20_memory.md R88). -/
theorem addressError_cons (p : Params) (r : Region) (rs : List Region) :
    addressError p (r :: rs) =
      if admitted p r then addressError p rs else some ⟨.addressFault, regionCode r.id, wordOf r.base⟩ := by
  cases h : admitted p r <;> simp [addressError, h]

@[simp] theorem addressError_nil (p : Params) : addressError p [] = none := rfl

/-- An input and an output region, in this order: the only overlap is theirs (20_memory.md R89). -/
theorem overlapError_input_output (r q : Region) (hr : r.output = false) (hq : q.output = true) (hid : r.id ≠ q.id) :
    overlapError [r, q] =
      if regionsOverlap q r then some ⟨.bufferOverlap, regionCode q.id, regionCode r.id⟩ else none := by
  cases h : regionsOverlap q r <;> simp [overlapError, hr, hq, hid, h]

/-- An output and an input region, in this order. -/
theorem overlapError_output_input (r q : Region) (hr : r.output = true) (hq : q.output = false) (hid : r.id ≠ q.id) :
    overlapError [r, q] =
      if regionsOverlap r q then some ⟨.bufferOverlap, regionCode r.id, regionCode q.id⟩ else none := by
  cases h : regionsOverlap r q <;> simp [overlapError, hr, hq, hid.symm, h]

/-- The regions of an embedding: the output stands between its two inputs, and the lower input is reported first
(20_memory.md R89). -/
theorem overlapError_embed (r q u : Region) (hr : r.output = false) (hq : q.output = true) (hu : u.output = false)
    (hid : r.id ≠ q.id) (hid' : u.id ≠ q.id) :
    overlapError [r, q, u] =
      if regionsOverlap q r then some ⟨.bufferOverlap, regionCode q.id, regionCode r.id⟩
      else if regionsOverlap q u then some ⟨.bufferOverlap, regionCode q.id, regionCode u.id⟩ else none := by
  cases h : regionsOverlap q r <;> cases h' : regionsOverlap q u <;> simp [overlapError, hr, hq, hu, hid, hid', h, h']

@[simp] theorem wordOf_toNat (w : Word) : wordOf w.toNat = w := by simp [wordOf]

end Sys2Proof.Machine
end

