-- ==== Sys2Proof/Laws/Flags.lean ====
section
/-! SUPPORT. The STATUS and CTRL words by bit (spec/10_state.md R42, R43). -/

namespace Sys2Proof.Machine

/-- The STATUS word by field, and its reserved bits (R43). -/
theorem statusWord_fields (busy : Bool) (f : Status) :
    let w := statusWord busy f
    w.getLsbD 0 = busy ∧ w.getLsbD 1 = f.done ∧ w.getLsbD 2 = f.err ∧ w.getLsbD 3 = f.dctValid ∧
      w.getLsbD 4 = f.outbufFull ∧ w.getLsbD 5 = f.cmdOverrun ∧ w.extractLsb' 8 8 = errCodeBits f.errCode ∧
      w &&& 0xFFFF00C0 = 0 := by
  obtain ⟨d, e, v, o, c, k⟩ := f
  cases k <;> revert busy d e v o c <;> decide +kernel

/-- The CTRL word by bit, and its reserved bits (R42). -/
theorem ctrlWord_fields (s : State) :
    (ctrlWord s).getLsbD 1 = s.irqEn ∧ ctrlWord s &&& 0xFFFFFFFD = 0 := by
  unfold ctrlWord
  cases s.irqEn <;> decide

end Sys2Proof.Machine
end

