-- ==== Sys2Proof/Laws/Float.lean ====
section
/-! SUPPORT. Rounding and binary64 arithmetic, once each: `roundNat` is the nearest integer, and `f64OfUnits` encodes the value it
rounds to (spec/00_scope.md R15, R16). -/

namespace Sys2Proof.Machine

/-! ### Rounding to an integer -/

/-- `roundNat` is one of the two integers around the quotient, the nearer one. -/
theorem roundNat_spec (mode : TieMode) (n d : Nat) (hd : 0 < d) :
    2 * n ≤ 2 * (roundNat mode n d * d) + d ∧ 2 * (roundNat mode n d * d) ≤ 2 * n + d ∧
      (roundNat mode n d = n / d ∨ roundNat mode n d = n / d + 1) := by
  have h₁ := Nat.div_add_mod n d
  have h₂ := Nat.mod_lt n hd
  have h₃ : d * (n / d) = n / d * d := Nat.mul_comm _ _
  have h₄ : (n / d + 1) * d = n / d * d + d := Nat.succ_mul _ _
  simp only [roundNat]
  cases mode <;> simp only <;> split_ifs <;> refine ⟨?_, ?_, ?_⟩ <;> omega

/-- An exact quotient is left as it is. -/
theorem roundNat_mul (mode : TieMode) (k d : Nat) (hd : 0 < d) : roundNat mode (k * d) d = k := by
  simp [roundNat, Nat.mul_mod_left, Nat.mul_div_cancel _ hd, hd]

/-- A common factor of the two does not change the quotient. -/
theorem roundNat_mul_mul (mode : TieMode) (n d c : Nat) (hc : 0 < c) :
    roundNat mode (n * c) (d * c) = roundNat mode n d := by
  have h₁ : ∀ a b : Nat, 2 * (a * c) < b * c ↔ 2 * a < b := fun a b => by
    rw [← Nat.mul_assoc]; exact Nat.mul_lt_mul_right hc
  have h₂ : ∀ a b : Nat, b * c < 2 * (a * c) ↔ b < 2 * a := fun a b => by
    rw [← Nat.mul_assoc]; exact Nat.mul_lt_mul_right hc
  simp only [roundNat, Nat.mul_div_mul_right _ _ hc, Nat.mul_mod_mul_right, h₁, h₂]

/-- Rounding is monotone. -/
theorem roundNat_mono (mode : TieMode) {n m d : Nat} (hd : 0 < d) (h : n ≤ m) :
    roundNat mode n d ≤ roundNat mode m d := by
  obtain ⟨-, -, hn⟩ := roundNat_spec mode n d hd
  obtain ⟨-, -, hm⟩ := roundNat_spec mode m d hd
  have hle : n / d ≤ m / d := Nat.div_le_div_right h
  rcases Nat.lt_or_ge (n / d) (m / d) with hlt | hge
  · omega
  · have e : n / d = m / d := by omega
    have h₁ := Nat.div_add_mod n d
    have h₂ := Nat.div_add_mod m d
    have hmod : n % d ≤ m % d := by rw [e] at h₁; omega
    simp only [roundNat]
    rw [e]
    cases mode <;> simp only <;> split_ifs <;> omega

theorem f64One_pos : 0 < f64One := Nat.two_pow_pos 1074

/-! ### Encoding a magnitude -/

/-- The fields of an encoding built from a sign and a magnitude word. -/
theorem f64_fields (neg : Bool) (mag : Nat) (h : mag < 2 ^ 63) :
    let x : Binary64 := BitVec.ofNat 64 ((if neg then 2 ^ 63 else 0) + mag)
    f64Neg x = neg ∧ f64Exponent x = mag / 2 ^ 52 ∧ f64Fraction x = mag % 2 ^ 52 := by
  intro x
  have hx : x.toNat = (if neg then 2 ^ 63 else 0) + mag := by
    simp only [x, BitVec.toNat_ofNat]
    apply Nat.mod_eq_of_lt
    cases neg
    · simp; omega
    · simp; omega
  refine ⟨?_, ?_, ?_⟩
  · rw [f64Neg, BitVec.getLsbD, hx, Nat.testBit_eq_decide_div_mod_eq]
    cases neg <;> simp <;> omega
  · rw [f64Exponent, BitVec.extractLsb'_toNat, hx, Nat.shiftRight_eq_div_pow]
    cases neg <;> simp <;> omega
  · rw [f64Fraction, BitVec.extractLsb'_toNat, hx, Nat.shiftRight_eq_div_pow]
    cases neg <;> simp <;> omega

/-- A magnitude word of `j` and a significand of at most 53 bits, or one carry above, stands for `sig * 2 ^ j` units. -/
theorem f64_of_significand (neg : Bool) (j sig : Nat) (hj : j ≤ 2044) (hs : sig ≤ 2 ^ 53)
    (hn : j ≠ 0 → 2 ^ 52 ≤ sig) :
    let x : Binary64 := BitVec.ofNat 64 ((if neg then 2 ^ 63 else 0) + (j * 2 ^ 52 + sig))
    f64Neg x = neg ∧ f64Finite x = true ∧ f64Units x = sig * 2 ^ j := by
  intro x
  obtain ⟨h₁, h₂, h₃⟩ := f64_fields neg (j * 2 ^ 52 + sig) (by omega)
  have he : f64Exponent x = j + sig / 2 ^ 52 := by rw [h₂]; omega
  have hf : f64Fraction x = sig % 2 ^ 52 := by rw [h₃]; omega
  have hsig := Nat.div_add_mod sig (2 ^ 52)
  refine ⟨h₁, ?_, ?_⟩
  · rw [f64Finite, he]; simp; omega
  · rw [f64Units, he, hf]
    have hcase : sig / 2 ^ 52 = 0 ∨ sig / 2 ^ 52 = 1 ∨ (sig / 2 ^ 52 = 2 ∧ sig = 2 ^ 53) := by omega
    rcases hcase with h | h | ⟨h, h'⟩
    · have hj0 : j = 0 := by by_contra hj0; have := hn hj0; omega
      subst hj0
      rw [h, if_pos rfl, pow_zero, Nat.mul_one]
      omega
    · rw [h, if_neg (by omega)]
      congr 1
      omega
    · rw [h, if_neg (by omega), h', show j + 2 - 1 = j + 1 by omega, Nat.pow_succ]
      norm_num
      ring

theorem f64OfUnits_eq {neg : Bool} {num den j sig : Nat} (hj : Nat.log2 (num / den) - 52 = j)
    (hs : roundNat .halfEven num (den * 2 ^ j) = sig) (hle : j * 2 ^ 52 + sig ≤ f64InfBits) :
    f64OfUnits neg num den = BitVec.ofNat 64 ((if neg then 2 ^ 63 else 0) + (j * 2 ^ 52 + sig)) := by
  simp only [f64OfUnits, hj, hs, Nat.min_eq_left hle]

/-- An exact number of units with at most 53 significant bits is encoded exactly. -/
theorem f64OfUnits_exact (neg : Bool) (m e den : Nat) (hm : m ≤ 2 ^ 53) (he : e ≤ 1988) (hd : 0 < den) :
    let x := f64OfUnits neg (m * 2 ^ e * den) den
    f64Neg x = neg ∧ f64Finite x = true ∧ f64Units x = m * 2 ^ e := by
  intro x
  have hdiv : m * 2 ^ e * den / den = m * 2 ^ e := Nat.mul_div_cancel _ hd
  rcases Nat.eq_zero_or_pos m with h0 | h0
  · subst h0
    have hs : roundNat .halfEven (0 * 2 ^ e * den) (den * 2 ^ 0) = 0 := by
      rw [Nat.zero_mul, Nat.zero_mul, pow_zero, Nat.mul_one]
      simpa using roundNat_mul .halfEven 0 den hd
    have hj : Nat.log2 (0 * 2 ^ e * den / den) - 52 = 0 := by simp
    have hx : x = _ := f64OfUnits_eq hj hs (Nat.zero_le _)
    rw [hx, Nat.zero_mul]
    have := f64_of_significand neg 0 0 (by omega) (by omega) (by simp)
    rw [Nat.zero_mul, Nat.zero_mul] at this
    rw [Nat.zero_mul]
    exact this
  · set j := Nat.log2 (m * 2 ^ e) - 52 with hj
    have hpos : m * 2 ^ e ≠ 0 := by positivity
    have hlow : 2 ^ Nat.log2 (m * 2 ^ e) ≤ m * 2 ^ e := Nat.log2_self_le hpos
    have hhigh : m * 2 ^ e < 2 ^ (Nat.log2 (m * 2 ^ e) + 1) := Nat.lt_log2_self
    have hL : Nat.log2 (m * 2 ^ e) ≤ 53 + e := by
      have : 2 ^ Nat.log2 (m * 2 ^ e) ≤ 2 ^ (53 + e) := by
        rw [Nat.pow_add]; exact hlow.trans (Nat.mul_le_mul_right _ hm)
      exact (Nat.pow_le_pow_iff_right (by decide)).1 this
    have hdvd : 2 ^ j ∣ m * 2 ^ e := by
      rcases Nat.lt_or_ge e j with hlt | hge
      · have hje : j = e + 1 := by omega
        have hm53 : m = 2 ^ 53 := by
          have h₁ : Nat.log2 (m * 2 ^ e) = 53 + e := by omega
          rw [h₁, Nat.pow_add] at hlow
          have : 2 ^ 53 ≤ m := Nat.le_of_mul_le_mul_right hlow (by positivity)
          omega
        rw [hje, hm53, Nat.pow_succ]
        exact ⟨2 ^ 52, by ring⟩
      · exact Dvd.dvd.mul_left (Nat.pow_dvd_pow 2 hge) m
    obtain ⟨sig, hsig⟩ := hdvd
    have hround : roundNat .halfEven (m * 2 ^ e * den) (den * 2 ^ j) = sig := by
      rw [hsig, show 2 ^ j * sig * den = sig * (den * 2 ^ j) by ring]
      exact roundNat_mul _ _ _ (by positivity)
    have hsig53 : sig < 2 ^ 53 := by
      rcases Nat.lt_or_ge (Nat.log2 (m * 2 ^ e)) 52 with hlt | hge
      · have hj0 : j = 0 := by omega
        rw [hj0, pow_zero, Nat.one_mul] at hsig
        have : 2 ^ (Nat.log2 (m * 2 ^ e) + 1) ≤ 2 ^ 53 := Nat.pow_le_pow_right (by decide) (by omega)
        omega
      · have : Nat.log2 (m * 2 ^ e) + 1 = j + 53 := by omega
        rw [this, Nat.pow_add, hsig] at hhigh
        exact Nat.lt_of_mul_lt_mul_left hhigh
    have hsig52 : j ≠ 0 → 2 ^ 52 ≤ sig := by
      intro hj0
      have : Nat.log2 (m * 2 ^ e) = j + 52 := by omega
      rw [this, Nat.pow_add, hsig] at hlow
      exact Nat.le_of_mul_le_mul_left hlow (by positivity)
    have hmag : j * 2 ^ 52 + sig ≤ f64InfBits := by
      have : j ≤ 1989 := by omega
      unfold f64InfBits; omega
    have hx : x = _ := f64OfUnits_eq (by rw [hdiv]) hround hmag
    obtain ⟨h₁, h₂, h₃⟩ := f64_of_significand neg j sig (by omega) (by omega) hsig52
    rw [hx]
    exact ⟨h₁, h₂, by rw [h₃, hsig, Nat.mul_comm]⟩

/-- A whole number of at most 53 bits, given in units of `2 ^ -1074`, is encoded exactly. -/
theorem f64OfUnits_whole (neg : Bool) (m den : Nat) (hm : m ≤ 2 ^ 53) (hd : 0 < den) :
    let x := f64OfUnits neg (m * f64One * den) den
    f64Neg x = neg ∧ f64Finite x = true ∧ f64Units x = m * f64One :=
  f64OfUnits_exact neg m 1074 den hm (by decide) hd

/-- Every quantity of `2 ^ 53` or more is a whole, even number (43_dct_quantizer.md R224). -/
theorem f64Units_even_of_large (x : Binary64) (h : 2 ^ 53 * f64One ≤ f64Units x) : 2 * f64One ∣ f64Units x := by
  have hf : f64Fraction x < 2 ^ 52 := by
    rw [f64Fraction]; exact (x.extractLsb' 0 52).isLt
  have hone : f64One = 2 ^ 1074 := rfl
  generalize f64One = one at *
  have hpow : 2 * one = 2 ^ 1075 := by rw [hone, Nat.pow_succ 2 1074, Nat.mul_comm]
  unfold f64Units at h ⊢
  split_ifs at h ⊢ with he
  · exfalso
    have h₁ : 0 < one := by rw [hone]; exact Nat.two_pow_pos 1074
    have : 2 ^ 53 * 1 ≤ 2 ^ 53 * one := Nat.mul_le_mul_left _ h₁
    omega
  · have hexp : 1075 ≤ f64Exponent x - 1 := by
      by_contra hc
      have h₁ : 2 ^ (f64Exponent x - 1) ≤ one := by
        rw [hone]; exact Nat.pow_le_pow_right (by decide) (by omega)
      have h₂ : (2 ^ 52 + f64Fraction x) * 2 ^ (f64Exponent x - 1) < 2 ^ 53 * one :=
        lt_of_lt_of_le (Nat.mul_lt_mul_of_pos_right (by omega) (by positivity)) (Nat.mul_le_mul_left _ h₁)
      exact absurd h (Nat.not_le.2 h₂)
    rw [hpow]
    exact Dvd.dvd.mul_left (Nat.pow_dvd_pow 2 hexp) _

end Sys2Proof.Machine
end

