-- ==== Sys2Proof/Laws/PerInstr.lean ====
section
/-! SUPPORT. Statements per instruction: every command's word has legal fields (spec/30_encoding.md R110 to R114). -/

namespace Sys2Proof.Laws.EncodesLegalFields

/-- The command's word passes every field check. -/
def Statement (i : Instr) : Prop := (fieldsOf (encode i)).wellFormed = true

theorem lsbEmbed : Statement .lsbEmbed := by unfold Statement; decide
theorem lsbExtract : Statement .lsbExtract := by unfold Statement; decide
theorem lsbCapacity : Statement .lsbCapacity := by unfold Statement; decide
theorem c2b : Statement .c2b := by unfold Statement; decide
theorem b2c : Statement .b2c := by unfold Statement; decide
theorem m2b : Statement .m2b := by unfold Statement; decide
theorem b2m : Statement .b2m := by unfold Statement; decide
theorem qembed : Statement .qembed := by unfold Statement; decide
theorem qextract : Statement .qextract := by unfold Statement; decide
theorem dctEmbed : Statement .dctEmbed := by unfold Statement; decide
theorem dctExtract : Statement .dctExtract := by unfold Statement; decide
theorem dctCapacity : Statement .dctCapacity := by unfold Statement; decide
theorem dctConfig : Statement .dctConfig := by unfold Statement; decide

end Sys2Proof.Laws.EncodesLegalFields
end

