-- ==== Sys2Proof/Laws/Step.lean ====
section
/-! SUPPORT. What a step can do, once: the engine's turn is the completion of its command, the host's turn one effect of its
statement. Every invariant is derived from these inversion lemmas. -/

namespace Sys2Proof.Machine

/-! ### The register map -/

@[simp] theorem regAt_regOffset (r : Reg) : regAt (regOffset r) = some r := by cases r <;> rfl

theorem regAt_eq_some {off : Nat} {r : Reg} (h : regAt off = some r) : off = regOffset r := by
  rw [regAt] at h
  have := List.find?_some h
  exact (beq_iff_eq.1 this).symm

/-- What a register reads does not depend on the host, the schedule or what the host has observed (10_state.md R33, R40). -/
theorem readReg_update_host (p : Params) (s : State) (h : HostState) (u : List (List Region)) (ts : List Agent) (r : Reg) :
    readReg p { s with host := h, unobserved := u, turns := ts } r = readReg p s r := by cases r <;> rfl

/-! ### The engine's turn -/

/-- What the command in progress computes: its own rule's result, or ILLEGAL_COMMAND (60_exceptions.md R301;
30_encoding.md R114). -/
def jobResult (p : Params) (job : Job) (m : Memory) : CmdResult :=
  match decode job.word with
  | .instr i => command p i job.snap m
  | .reject _ => .error ⟨.illegalCommand, job.word, 0⟩

/-- The completion of the command in progress. -/
def completed (p : Params) (job : Job) (s : State) : State :=
  complete p (jobRegions p job) job.raced (jobResult p job s.mem) s

@[simp] theorem engineStepWith_idle (p : Params) (run : Instr → State → Host.Outcome State Fault Refusal) {s : State}
    (h : s.engine = .idle) : engineStepWith p run s = .next s := by
  simp [engineStepWith, fetch, h]

theorem engineStepWith_busy (p : Params) {s : State} {job : Job} (h : s.engine = .busy job) :
    engineStepWith p (execIn p) s = .next (completed p job s) := by
  simp only [engineStepWith, fetch, h, completed, jobRegions, jobResult]
  cases decode job.word with
  | instr i => exact execIn_busy p i h
  | reject r => simp [performIllegal, h]

/-- The machine handed to the host is the default build's: the dispatch through `exec` changes nothing. -/
theorem step_eq_stepIn : step = stepIn Config.params := by
  funext s; rw [step, stepIn, (funext₂ exec_eq_execIn : exec = execIn Config.params)]

theorem engineStep_idle {s : State} (h : s.engine = .idle) : engineStep s = .next s := engineStepWith_idle _ _ h

theorem engineStep_busy {s : State} {job : Job} (h : s.engine = .busy job) :
    engineStep s = .next (completed Config.params job s) := by
  rw [engineStep, (funext₂ exec_eq_execIn : exec = execIn Config.params), engineStepWith_busy _ h]

/-! ### The host's turn -/

/-- What a host statement can do beside moving the host on: nothing, an observation, a register write, a store, a forbidden
read or a reset. -/
inductive HostEffect (p : Params) (s : State) : HostStmt → State → Prop where
  | quiet (st : HostStmt) : HostEffect p s st s
  | observe (st : HostStmt) (h : isBusy s = false ∨ irq s = true) : HostEffect p s st (observeIdle s)
  | write (r : Reg) (v : HostVal) (w : Word) (h : hostValue s v = some w) :
      HostEffect p s (.wr 32 (regOffset r) v) (writeReg p s r w)
  | store (a : Nat) (b : Byte) (h : addressExists p a = true) : HostEffect p s (.store a b) (hostStore p s a b)
  | load (a x : Nat) : HostEffect p s (.load a x) (interfere p (touchesOutput · a) { s with freeCount := s.freeCount + 1 })
  | reset : HostEffect p s .resetPin (resetMachine p s)

/-- The host's variables after a statement: as before, or one assigned (30_encoding.md R122). -/
def VarsAfter (vars vars' : List (Nat × Word)) : Prop := vars' = vars ∨ ∃ x v, vars' = tableSet vars x v

theorem afterRead_eq (s : State) (r : Reg) : afterRead s r = s ∨ (isBusy s = false ∧ afterRead s r = observeIdle s) := by
  unfold afterRead
  split_ifs with h
  · exact .inr ⟨h.2, rfl⟩
  · exact .inl rfl

/-- Every update of the host's turn leaves the host itself to be set afterwards. -/
theorem writeReg_host (p : Params) (s : State) (r : Reg) (v : Word) : (writeReg p s r v).host = s.host := by
  cases r <;> simp only [writeReg] <;> (try split_ifs) <;> rfl

theorem writeReg_turns (p : Params) (s : State) (r : Reg) (v : Word) : (writeReg p s r v).turns = s.turns := by
  cases r <;> simp only [writeReg] <;> (try split_ifs) <;> rfl

theorem interfere_eq (p : Params) (hits : List Region → Bool) (s : State) :
    ∃ e m n, interfere p hits s = { s with engine := e, mem := m, freeCount := n } ∧
      (s.engine = .idle → e = .idle) ∧
      (∀ job, s.engine = .busy job → e = .busy { job with raced := job.raced || hits (jobRegions p job) }) ∧
      ((m = s.mem ∧ n = s.freeCount ∧ s.unobserved.any hits = false) ∨ ∃ as, m = (scramble p as s).mem ∧ n = s.freeCount + 1) := by
  cases he : s.engine with
  | idle =>
    have hs : { s with engine := .idle } = s := by rw [← he]
    by_cases h : s.unobserved.any hits = true
    · refine ⟨.idle, (scramble p ((s.unobserved.filter hits).flatMap outputAddrs) s).mem, s.freeCount + 1, ?_, by simp, by simp,
        .inr ⟨_, rfl, rfl⟩⟩
      simp only [interfere, he, h, if_true, scramble]
    · refine ⟨.idle, s.mem, s.freeCount, ?_, by simp, by simp, .inl ⟨rfl, rfl, by simpa using h⟩⟩
      simp only [interfere, he, h]
      exact hs.symm
  | busy job =>
    refine ⟨.busy { job with raced := job.raced || hits (jobRegions p job) }, ?_⟩
    by_cases h : s.unobserved.any hits = true
    · refine ⟨(scramble p ((s.unobserved.filter hits).flatMap outputAddrs) s).mem, s.freeCount + 1, ?_, by simp, by simp,
        .inr ⟨_, rfl, rfl⟩⟩
      simp only [interfere, he, h, if_true, scramble]
    · refine ⟨s.mem, s.freeCount, ?_, by simp, by simp, .inl ⟨rfl, rfl, by simpa using h⟩⟩
      simp only [interfere, he, h]; rfl

/-- An access that hits no command in its window interferes with nothing. -/
theorem interfere_clear {p : Params} {hits : List Region → Bool} {s : State}
    (hj : ∀ job, s.engine = .busy job → hits (jobRegions p job) = false) (hu : s.unobserved.any hits = false) :
    interfere p hits s = s := by
  cases he : s.engine with
  | idle => simp only [interfere, he, hu]; simp
  | busy job =>
    have : { s with engine := .busy { job with raced := job.raced || hits (jobRegions p job) } } = s := by
      rw [hj job he, Bool.or_false, ← he]
    simp only [interfere, he, this, hu]; simp

/-- What an access leaves in memory: the output bytes of every finished command it hits are this draw's free bytes, every other
byte is as before (20_memory.md R98). -/
theorem memRead_interfere (p : Params) (hits : List Region → Bool) (s : State) (c : Nat) :
    memRead (interfere p hits s).mem c =
      if c ∈ (s.unobserved.filter hits).flatMap outputAddrs ∧ addressExists p c = true then Config.freeByte s.freeCount c
      else memRead s.mem c := by
  have key : ∀ u : State, u.unobserved = s.unobserved → u.mem = s.mem → u.freeCount = s.freeCount →
      memRead (if u.unobserved.any hits then scramble p ((u.unobserved.filter hits).flatMap outputAddrs) u else u).mem c =
        if c ∈ (s.unobserved.filter hits).flatMap outputAddrs ∧ addressExists p c = true then Config.freeByte s.freeCount c
        else memRead s.mem c := by
    intro u hu hm hn
    rw [hu]
    split_ifs with h₁ h₂ h₂
    · simp [memRead, tableGet_scramble, h₂, hn]
    · simp only [memRead, tableGet_scramble, h₂, if_false, hm]
    · obtain ⟨rs, hrs, -⟩ := List.mem_flatMap.1 h₂.1
      exact absurd (List.any_eq_true.2 ⟨rs, List.mem_filter.1 hrs⟩) h₁
    · rw [hm]
  cases he : s.engine with
  | idle => simp only [interfere, he]; exact key s rfl rfl rfl
  | busy job =>
    simp only [interfere, he]
    exact key { s with engine := .busy { job with raced := job.raced || hits (jobRegions p job) } } rfl rfl rfl

theorem touches_iff (rs : List Region) (a : Nat) : touches rs a = true ↔ ∃ r ∈ rs, r.base ≤ a ∧ a < r.base + r.len := by
  simp [touches, regionHas]

/-- A read is free to return any byte exactly if it lies in an output region of a command in its window (20_memory.md R98). -/
theorem readForbidden_iff (p : Params) (s : State) (a : Nat) :
    readForbidden p s a = true ↔
      (∃ job, s.engine = .busy job ∧ a ∈ outputAddrs (jobRegions p job)) ∨ ∃ rs ∈ s.unobserved, a ∈ outputAddrs rs := by
  cases he : s.engine <;> simp [readForbidden, he, touchesOutput_iff]

theorem HostEffect.host_eq {p : Params} {s u : State} {st : HostStmt} (h : HostEffect p s st u) : u.host = s.host := by
  cases h with
  | quiet => rfl
  | observe => rfl
  | write r v w h => exact writeReg_host p s r w
  | store a b h => obtain ⟨e, m, n, h, -⟩ := interfere_eq p (touches · a) { s with mem := memWrite s.mem a b }; rw [hostStore, h]
  | load a x => obtain ⟨e, m, n, h, -⟩ := interfere_eq p (touchesOutput · a) { s with freeCount := s.freeCount + 1 }; rw [h]
  | reset => rfl

theorem HostEffect.turns_eq {p : Params} {s u : State} {st : HostStmt} (h : HostEffect p s st u) : u.turns = s.turns := by
  cases h with
  | quiet => rfl
  | observe => rfl
  | write r v w h => exact writeReg_turns p s r w
  | store a b h => obtain ⟨e, m, n, h, -⟩ := interfere_eq p (touches · a) { s with mem := memWrite s.mem a b }; rw [hostStore, h]
  | load a x => obtain ⟨e, m, n, h, -⟩ := interfere_eq p (touchesOutput · a) { s with freeCount := s.freeCount + 1 }; rw [h]
  | reset => rfl

/-- One host statement that answers a next state: one effect, and the host moved on. -/
theorem hostExec_next {p : Params} {st : HostStmt} {s t : State} (h : hostExec p st s = .next t) :
    ∃ u, HostEffect p s st u ∧ t.host.program = s.host.program ∧ VarsAfter s.host.vars t.host.vars ∧
      t = { u with host := t.host } := by
  cases st with
  | wr n off v =>
    simp only [hostExec] at h
    split at h
    · cases h
    rename_i hr
    split at h
    · cases h
    rename_i w hv
    cases h
    have hn : n = 32 := by
      by_contra hn; simp [transactionRefusal, hn] at hr
    subst hn
    cases ha : regAt off with
    | none => exact ⟨s, .quiet _, by simp [writeAt, ha], .inl (by simp [writeAt, ha]), by simp [writeAt, ha, advance]⟩
    | some r =>
      rw [regAt_eq_some ha]
      exact ⟨_, .write r v w hv, by simp [writeAt, writeReg_host], .inl (by simp [writeAt, writeReg_host]),
        by simp [writeAt, advance]⟩
  | rd n off x =>
    simp only [hostExec] at h
    split at h
    · cases h
    cases h
    cases ha : regAt off with
    | none =>
      exact ⟨s, .quiet _, by simp [readEffect, ha], .inr ⟨x, _, by simp [readEffect, ha]; rfl⟩,
        by simp [readEffect, ha, advance, assign]⟩
    | some r =>
      rcases afterRead_eq s r with e | ⟨hb, e⟩
      · exact ⟨s, .quiet _, by simp [readEffect, ha, e], .inr ⟨x, _, by simp [readEffect, ha, e]; rfl⟩,
          by simp [readEffect, ha, e, advance, assign]⟩
      · exact ⟨_, .observe _ (.inl hb), by simp [readEffect, ha, e], .inr ⟨x, _, by simp [readEffect, ha, e]; rfl⟩,
          by simp [readEffect, ha, e, advance, assign]⟩
  | wait x =>
    simp only [hostExec] at h
    split_ifs at h with hb <;> cases h
    · exact ⟨s, .quiet _, rfl, .inr ⟨x, _, rfl⟩, rfl⟩
    · exact ⟨_, .observe _ (.inl (by simpa using hb)), rfl, .inr ⟨x, _, rfl⟩, rfl⟩
  | waitIrq =>
    simp only [hostExec] at h
    split_ifs at h with hb <;> cases h
    · exact ⟨_, .observe _ (.inr hb), rfl, .inl rfl, rfl⟩
    · exact ⟨s, .quiet _, rfl, .inl rfl, rfl⟩
  | branchIf x bit target =>
    simp only [hostExec] at h
    split at h
    · cases h
    split_ifs at h <;> cases h <;> exact ⟨s, .quiet _, rfl, .inl rfl, rfl⟩
  | store a b =>
    simp only [hostExec] at h
    split_ifs at h with ha
    cases h
    have e : HostEffect p s (.store a b) _ := .store a b ha
    exact ⟨_, e, by simp [e.host_eq], .inl (by simp [e.host_eq]), rfl⟩
  | load a x =>
    simp only [hostExec] at h
    split_ifs at h with ha
    cases h
    by_cases hf : readForbidden p s a = true
    · have e : HostEffect p s (.load a x) _ := .load a x
      exact ⟨_, e, by simp [hostLoadEffect, hf, e.host_eq],
        .inr ⟨x, _, by simp only [hostLoadEffect, hf, if_true, advance_host, assign_host, e.host_eq]; rfl⟩,
        by simp [hostLoadEffect, hf, advance, assign]⟩
    · exact ⟨s, .quiet _, by simp [hostLoadEffect, hf], .inr ⟨x, _, by simp [hostLoadEffect, hf]; rfl⟩,
        by simp [hostLoadEffect, hf, advance, assign]⟩
  | resetPin => cases h; exact ⟨_, .reset, rfl, .inl rfl, rfl⟩

/-! ### The step -/

/-- The engine's turn is `engineStep`. -/
theorem step_engine {s : State} (h : nextAgent s = .engine) : step s = engineStep (takeTurn s) := by
  simp only [step, stepWith, h]; rfl

/-- The host's turn is `hostStep`. -/
theorem step_host {s : State} (h : nextAgent s = .host) : step s = hostStep Config.params (takeTurn s) := by
  simp only [step, stepWith, h]

/-- The host's turn with a statement left is that statement. -/
theorem step_host_stmt {s : State} {st : HostStmt} (h : nextAgent s = .host) (hp : s.host.program[s.host.pc]? = some st) :
    step s = hostExec Config.params st (takeTurn s) := by
  simp only [step_host h, hostStep, takeTurn_host, hp]

/-- Everything a step can do, in every build: an agent with nothing to do passes its turn, the engine completes its command,
or the host executes its next statement. -/
theorem stepIn_next {p : Params} {s t : State} (h : stepIn p s = .next t) :
    t = takeTurn s ∨
    (nextAgent s = .engine ∧ ∃ job, s.engine = .busy job ∧ t = completed p job (takeTurn s)) ∨
    (nextAgent s = .host ∧ ∃ st u, s.host.program[s.host.pc]? = some st ∧
      HostEffect p (takeTurn s) st u ∧ t.host.program = s.host.program ∧
      VarsAfter s.host.vars t.host.vars ∧ t = { u with host := t.host }) := by
  cases ha : nextAgent s with
  | engine =>
    simp only [stepIn, stepWith, ha] at h
    cases he : s.engine with
    | idle =>
      rw [engineStepWith_idle _ _ (by simpa using he)] at h
      cases h; exact .inl rfl
    | busy job =>
      rw [engineStepWith_busy _ (job := job) (by simpa using he)] at h
      cases h; exact .inr (.inl ⟨rfl, job, rfl, rfl⟩)
  | host =>
    simp only [stepIn, stepWith, ha, hostStep, takeTurn_host] at h
    cases hp : s.host.program[s.host.pc]? with
    | none => simp only [hp] at h; cases h; exact .inl rfl
    | some st =>
      simp only [hp] at h
      obtain ⟨u, h₁, h₂, h₃, h₄⟩ := hostExec_next h
      exact .inr (.inr ⟨rfl, st, u, rfl, h₁, h₂, h₃, h₄⟩)

theorem step_next {s t : State} (h : step s = .next t) :
    t = takeTurn s ∨
    (nextAgent s = .engine ∧ ∃ job, s.engine = .busy job ∧ t = completed Config.params job (takeTurn s)) ∨
    (nextAgent s = .host ∧ ∃ st u, s.host.program[s.host.pc]? = some st ∧
      HostEffect Config.params (takeTurn s) st u ∧ t.host.program = s.host.program ∧
      VarsAfter s.host.vars t.host.vars ∧ t = { u with host := t.host }) := stepIn_next (step_eq_stepIn ▸ h)

end Sys2Proof.Machine
end

