-- ==== Sys2Proof/Laws/Writes.lean ====
section
/-! SUPPORT. Where a command without error writes: inside one of its output regions, which is admitted and apart from its other
regions (spec/20_memory.md R90). -/

namespace Sys2Proof.Machine

@[simp] theorem lsbEmbedSamples_length (s : List Byte) (b : Bits) : (lsbEmbedSamples s b).length = s.length := by
  induction s generalizing b with
  | nil => rfl
  | cons x s ih => cases b <;> simp [lsbEmbedSamples, ih]

@[simp] theorem samplesOf_length (o : Snapshot) (m : Memory) : (samplesOf o m).length = sampleCount o := by
  simp [samplesOf]

@[simp] theorem messageOf_length (o : Snapshot) (m : Memory) : (messageOf o m).length = o.regs.msgLen.toNat := by
  simp [messageOf]

@[simp] theorem outChannel_length (p : Params) (o : Snapshot) (m : Memory) :
    (outChannel p o m).length = outRows p o * outCols p o := by simp [outChannel]

theorem hasSampleCount_of_shape {p : Params} {o : Snapshot} (h : shapeError p o = none) :
    hasSampleCount p o = true := by
  have := shapeError_eq_none.1 h
  simp [hasSampleCount]; omega

/-- The regions of LSB.EMBED at an accepted shape (42_lsb.md R200). -/
theorem regionsOf_lsbEmbed {p : Params} {o : Snapshot} (h : shapeError p o = none) :
    regionsOf p .lsbEmbed o =
      [⟨.src, o.regs.srcAddr.toNat, sampleCount o, false⟩, ⟨.dst, o.regs.dstAddr.toNat, sampleCount o, true⟩,
        messageRegion o false] := by simp [regionsOf, sampleRegion, hasSampleCount_of_shape h]

/-- The regions of LSB.EXTRACT at an accepted shape (42_lsb.md R203). -/
theorem regionsOf_lsbExtract {p : Params} {o : Snapshot} (h : shapeError p o = none) :
    regionsOf p .lsbExtract o = [⟨.src, o.regs.srcAddr.toNat, sampleCount o, false⟩, messageRegion o true] := by
  simp [regionsOf, sampleRegion, hasSampleCount_of_shape h]

/-- The bytes lie at the start of one of the output regions. -/
def WritesInto (rs : List Region) (e : Effect) : Prop :=
  ∃ r ∈ rs, r.output = true ∧ r.base = e.base ∧ e.bytes.length ≤ r.len

theorem storeMessage_writesInto {rs : List Region} {o : Snapshot} (h : messageRegion o true ∈ rs) (m : List Byte) :
    WritesInto rs (storeMessage o.regs.msgAddr.toNat o.regs.msgLen.toNat m) :=
  ⟨_, h, rfl, rfl, by simp [storeMessage, messageRegion]⟩

/-- The effect of a command without error, in every build: it writes no byte, or into one of its output regions, and its
regions have passed both checks. -/
theorem command_ok {p : Params} {i : Instr} {o : Snapshot} {m : Memory} {e : Effect} (h : command p i o m = .ok e) :
    regionError p (regionsOf p i o) = none ∧ (e.bytes = [] ∨ WritesInto (regionsOf p i o) e) := by
  cases i <;> simp only [command, lsbEmbed, lsbExtract, lsbCapacity, c2b, b2c, m2b, b2m, qembed, qextract, dctEmbed,
    dctExtract, dctCapacity, dctConfig, unlessError_eq_ok, lsbEmbedError, qembedError, dctEmbedError, Option.or_eq_none_iff] at h
  case lsbEmbed =>
    obtain ⟨⟨hs, hr, -⟩, rfl⟩ := h
    exact ⟨hr, .inr ⟨⟨.dst, o.regs.dstAddr.toNat, sampleCount o, true⟩,
      by simp [regionsOf_lsbEmbed hs], rfl, rfl, by simp⟩⟩
  case lsbExtract =>
    obtain ⟨⟨hs, hr⟩, rfl⟩ := h
    exact ⟨hr, .inr (storeMessage_writesInto (by simp [regionsOf]) _)⟩
  case m2b =>
    obtain ⟨⟨hr, -⟩, rfl⟩ := h
    exact ⟨hr, .inr ⟨⟨.bits, o.regs.bitsAddr.toNat, packedBytes (Config.charWidth * o.regs.msgLen.toNat), true⟩,
      by simp [regionsOf], rfl, rfl, by simp⟩⟩
  case b2m =>
    obtain ⟨hr, rfl⟩ := h
    exact ⟨hr, .inr (storeMessage_writesInto (by simp [regionsOf]) _)⟩
  case dctEmbed =>
    obtain ⟨⟨hc, hs, hr, -⟩, rfl⟩ := h
    exact ⟨hr, .inr ⟨⟨.dst, o.regs.dstAddr.toNat, outRows p o * outCols p o, true⟩, by simp [regionsOf], rfl, rfl, by simp⟩⟩
  case dctExtract =>
    obtain ⟨⟨hc, hs, hr, -⟩, rfl⟩ := h
    exact ⟨hr, .inr (storeMessage_writesInto (by simp [regionsOf]) _)⟩
  all_goals
    obtain ⟨-, rfl⟩ := h
    exact ⟨rfl, .inl rfl⟩

/-- A command reports no error without a code (60_exceptions.md R303, R311). -/
theorem command_error_code {p : Params} {i : Instr} {o : Snapshot} {m : Memory} {x : CmdError} (h : command p i o m = .error x) :
    x.code ≠ .none := by
  have hr : ∀ {x : CmdError}, x.code = .addressFault ∨ x.code = .bufferOverlap → x.code ≠ .none := by
    intro x h; rcases h with h | h <;> rw [h] <;> decide
  cases i <;> simp only [command, lsbEmbed, lsbExtract, lsbCapacity, c2b, b2c, m2b, b2m, qembed, qextract, dctEmbed,
    dctExtract, dctCapacity, dctConfig, unlessError_eq_error, lsbEmbedError, qembedError, dctEmbedError,
    Option.or_eq_some_iff] at h
  case lsbEmbed =>
    rcases h with h | ⟨-, h | ⟨-, h | ⟨-, h | ⟨-, h⟩⟩⟩⟩
    exacts [by simp [shapeError_code h], hr (regionError_code h), by simp [capacityError_code h],
      by simp [characterError_code h], by simp [bitBudgetError_code h]]
  case lsbExtract =>
    rcases h with h | ⟨-, h⟩
    exacts [by simp [shapeError_code h], hr (regionError_code h)]
  case lsbCapacity => simp [shapeError_code h]
  case c2b => split_ifs at h; cases h; simp
  case b2c => split_ifs at h; cases h; simp
  case m2b =>
    rcases h with h | ⟨-, h⟩
    exacts [hr (regionError_code h), by simp [characterError_code h]]
  case b2m => exact hr (regionError_code h)
  case qembed =>
    rcases h with h | ⟨-, h | ⟨-, h | ⟨-, h⟩⟩⟩
    · split_ifs at h; cases h; simp
    exacts [by simp [factorError_code h], by simp [finiteError_code h], by simp [finiteError_code h]]
  case qextract =>
    rcases h with h | ⟨-, h⟩
    exacts [by simp [factorError_code h], by simp [finiteError_code h]]
  case dctEmbed =>
    rcases h with h | ⟨-, h | ⟨-, h | ⟨-, h | ⟨-, h | ⟨-, h⟩⟩⟩⟩⟩
    exacts [by simp [configError_code h], by simp [dctShapeError_code h], hr (regionError_code h),
      by simp [capacityError_code h], by simp [characterError_code h], by simp [embedCollaboratorError_code h]]
  case dctExtract =>
    rcases h with h | ⟨-, h | ⟨-, h | ⟨-, h⟩⟩⟩
    exacts [by simp [configError_code h], by simp [dctShapeError_code h], hr (regionError_code h),
      by simp [extractCollaboratorError_code h]]
  case dctCapacity =>
    rcases h with h | ⟨-, h⟩
    exacts [by simp [configError_code h], by simp [dctShapeError_code h]]
  case dctConfig => simp [parameterError_code h]

/-- A command sets no configuration but a legal one (10_state.md R47; 43_dct_quantizer.md R226). -/
theorem command_config {i : Instr} {o : Snapshot} {m : Memory} {e : Effect} (h : command Config.params i o m = .ok e) {c : DctConfig}
    (hc : e.config = some c) : LegalConfig Config.params c := by
  cases i <;> simp only [command, lsbEmbed, lsbExtract, lsbCapacity, c2b, b2c, m2b, b2m, qembed, qextract, dctEmbed,
    dctExtract, dctCapacity, dctConfig, unlessError_eq_ok, storeMessage] at h <;> obtain ⟨h, rfl⟩ := h <;> cases hc
  exact parameterError_eq_none.1 h

/-- A completion changes no byte outside the output regions of its command, raced or not. -/
theorem tableGet_complete_of_outside (p : Params) (i : Instr) (o : Snapshot) (raced : Bool) (s : State) {a : Nat}
    (ha : a ∉ outputAddrs (regionsOf p i o)) :
    tableGet (complete p (regionsOf p i o) raced (command p i o s.mem) s).mem a =
      tableGet s.mem a := by
  have hr : ∀ t : State, tableGet (settleRace p (regionsOf p i o) raced t).mem a = tableGet t.mem a := by
    intro t
    cases raced
    · rfl
    · simp [settleRace, tableGet_scramble, ha]
  refine (hr _).trans ?_
  cases hc : command p i o s.mem with
  | error x => rfl
  | ok e =>
    rcases (command_ok hc).2 with he | ⟨r, hm, ho, hb, hl⟩
    · simp [he]
    · simp only [retire_mem, succeed_mem]
      refine tableGet_memWriteBytes_of_outside _ _ _ ?_
      by_contra hcon
      exact ha ((mem_outputAddrs _ _).2 ⟨r, hm, ho, by omega, by omega⟩)

/-- Every byte a completion writes exists (20_memory.md R88). -/
theorem addressExists_of_complete (p : Params) (i : Instr) (o : Snapshot) (raced : Bool) (s : State) {a : Nat}
    (h : (tableGet (complete p (regionsOf p i o) raced (command p i o s.mem) s).mem a).isSome) :
    (tableGet s.mem a).isSome ∨ addressExists p a = true := by
  have hr : ∀ t : State, (tableGet (settleRace p (regionsOf p i o) raced t).mem a).isSome →
      (tableGet t.mem a).isSome ∨ addressExists p a = true := by
    intro t ht
    cases raced
    · exact .inl ht
    · simp only [settleRace, if_true, tableGet_scramble] at ht
      split_ifs at ht with hcase
      · exact .inr hcase.2
      · exact .inl ht
  rcases hr _ h with h | h
  · cases hc : command p i o s.mem with
    | error x => rw [hc] at h; exact .inl h
    | ok e =>
      rw [hc] at h
      simp only [retire_mem, succeed_mem] at h
      by_cases hout : a < e.base ∨ e.base + e.bytes.length ≤ a
      · rw [tableGet_memWriteBytes_of_outside _ _ _ hout] at h; exact .inl h
      · obtain ⟨hreg, he | ⟨r, hm, ho, hb, hl⟩⟩ := command_ok hc
        · simp [he] at hout; omega
        · exact .inr (addressExists_of_admitted (addressError_eq_none.1 (regionError_eq_none.1 hreg).1 r hm)
            (by omega) (by omega))
  · exact .inr h

/-- An input and an output region of one command have different ids (20_memory.md R87). -/
theorem region_ids_differ {p : Params} {i : Instr} {o : Snapshot} {r q : Region} (hr : r ∈ regionsOf p i o)
    (hq : q ∈ regionsOf p i o) (hi : r.output = false) (ho : q.output = true) : r.id ≠ q.id := by
  have nodup : ∀ rs : List Region, (rs.map (·.id)).Nodup → ∀ r ∈ rs, ∀ q ∈ rs, r.id = q.id → r = q := fun rs h =>
    List.inj_on_of_nodup_map h
  have : ((regionsOf p i o).map (·.id)).Nodup := by
    cases i <;> simp only [regionsOf, sampleRegion, messageRegion] <;> (try split_ifs) <;> simp
  intro h
  rw [nodup _ this r hr q hq h, ho] at hi
  cases hi

/-- A command without error reads and writes disjoint regions (20_memory.md R89). -/
theorem output_apart {p : Params} {i : Instr} {o : Snapshot} {m : Memory} {e : Effect} (h : command p i o m = .ok e) {r : Region}
    (hr : r ∈ regionsOf p i o) (hi : r.output = false) {a : Nat} (ha : r.base ≤ a ∧ a < r.base + r.len) :
    a ∉ outputAddrs (regionsOf p i o) := by
  rw [mem_outputAddrs]
  rintro ⟨q, hq, ho, h₁, h₂⟩
  have hid := region_ids_differ hr hq hi ho
  have := overlapError_eq_none.1 (regionError_eq_none.1 (command_ok h).1).2 q hq ho r hr hid
  rw [← Bool.not_eq_true, regionsOverlap_iff] at this
  exact this ⟨by omega, by omega, by omega, by omega⟩

end Sys2Proof.Machine
end

