-- ==== Sys2Proof/Tests/Slice0.lean ====
section
/-! SUPPORT. Tests and witnesses. Expected values are the vectors of spec/95_test_vectors.md, named in the comments, or worked
out by hand from the rules; each test is one step on a small state. A witness shows that the hypotheses of a statement hold
together. -/

namespace Sys2Proof.Tests

open Sys2Proof Sys2Proof.Machine Sys2Proof.Claim

-- One test at a time: each kernel evaluation else waits in a thread of its own for all before it, and the threads' stacks add up.
set_option Elab.async false

/-! ### Helpers -/

/-- A machine with command `i` issued on the given registers, memory and configuration. -/
def busy (i : Instr) (r : OperandRegs) (m : Memory := []) (c : DctConfig := ⟨0, 0, 0⟩) (v : Bool := false) : State :=
  { State.reset with
    regs := r
    act := c
    status := { State.reset.status with dctValid := v }
    mem := m
    engine := .busy ⟨encode i, ⟨r, c, v⟩, false⟩ }

/-- The job of `busy`. -/
def jobOf (i : Instr) (r : OperandRegs) (c : DctConfig := ⟨0, 0, 0⟩) (v : Bool := false) : Job :=
  ⟨encode i, ⟨r, c, v⟩, false⟩

/-- A machine whose host runs the one statement. -/
def hosting (st : HostStmt) (s : State := State.reset) : State :=
  { s with turns := [.host], host := ⟨[st], 0, [(0, 0x5)]⟩ }

/-- The next state, if the outcome is one. -/
def nextOf : Host.Outcome State Fault Refusal → Option State
  | .next t => some t
  | .fault _ => none
  | .refused _ => none

/-- STATUS, RESULT0, RESULT1, ERR_INFO0, ERR_INFO1 after the step. -/
def ends (s : State) : Option (List Word) :=
  (nextOf (step s)).map fun t => [readReg Config.params t .status, t.result0, t.result1, t.errInfo0, t.errInfo1]

/-- The `n` bytes at `a` after the step. -/
def bytesAfter (s : State) (a n : Nat) : Option (List Byte) := (nextOf (step s)).map fun t => memReadBytes t.mem a n

/-- A memory with the bytes at an address. -/
def place (a : Nat) (bs : List Byte) (m : Memory := []) : Memory := memWriteBytes m a bs

def zero : OperandRegs := OperandRegs.zero

/-! ### Well-formedness: one ill-formed command for each check, refused by it alone -/

theorem test_wf_reserved : (⟨0x1, 0, 1⟩ : CmdFields).reservedClear = false ∧ (⟨0x1, 0, 1⟩ : CmdFields).wellFormed = false := by
  decide

theorem test_wf_op : (⟨0xB, 0, 0⟩ : CmdFields).opDefined = false ∧ (⟨0x0, 0, 0⟩ : CmdFields).opDefined = false ∧
    (⟨0xB, 0, 0⟩ : CmdFields).wellFormed = false := by decide

theorem test_wf_alg : (⟨0x1, 2, 0⟩ : CmdFields).algDefined = false ∧ (⟨0x1, 2, 0⟩ : CmdFields).wellFormed = false := by decide

theorem test_wf_alg_for_op : (⟨0x4, 0, 0⟩ : CmdFields).algSuitsOp = false ∧ (⟨0x5, 1, 0⟩ : CmdFields).algSuitsOp = false ∧
    (⟨0x4, 0, 0⟩ : CmdFields).wellFormed = false := by decide

theorem test_wf_every_instruction : ∀ i ∈ Instr.all, i.wellFormed = true := by decide

/-! ### Decoding: every word of R113 written out (RSV, ALG, OP) -/

theorem test_decode_lsbEmbed : decode 0b00000000000000000000000000_00_0001 = .instr .lsbEmbed := by decide
theorem test_decode_lsbExtract : decode 0b00000000000000000000000000_00_0010 = .instr .lsbExtract := by decide
theorem test_decode_lsbCapacity : decode 0b00000000000000000000000000_00_0011 = .instr .lsbCapacity := by decide
theorem test_decode_c2b : decode 0b00000000000000000000000000_00_0101 = .instr .c2b := by decide
theorem test_decode_b2c : decode 0b00000000000000000000000000_00_0110 = .instr .b2c := by decide
theorem test_decode_m2b : decode 0b00000000000000000000000000_00_0111 = .instr .m2b := by decide
theorem test_decode_b2m : decode 0b00000000000000000000000000_00_1000 = .instr .b2m := by decide
theorem test_decode_qembed : decode 0b00000000000000000000000000_00_1001 = .instr .qembed := by decide
theorem test_decode_qextract : decode 0b00000000000000000000000000_00_1010 = .instr .qextract := by decide
theorem test_decode_dctEmbed : decode 0b00000000000000000000000000_01_0001 = .instr .dctEmbed := by decide
theorem test_decode_dctExtract : decode 0b00000000000000000000000000_01_0010 = .instr .dctExtract := by decide
theorem test_decode_dctCapacity : decode 0b00000000000000000000000000_01_0011 = .instr .dctCapacity := by decide
theorem test_decode_dctConfig : decode 0b00000000000000000000000000_01_0100 = .instr .dctConfig := by decide

/-- The words of V-X1 to V-X12, with the reason each row gives. -/
theorem test_decode_rejects :
    [0x00000000, 0x00000004, 0x00000015, 0x00000040, 0x00000019, 0x00000021, 0x0000000B, 0x0000000F, 0x00000031,
      0x00000101, 0x80000001, 0xFFFFFFFF].map decode =
    [Reject.reservedOp, .algForOp, .algForOp, .reservedBits, .algForOp, .reservedAlg, .reservedOp, .reservedOp,
      .reservedAlg, .reservedBits, .reservedBits, .reservedBits].map Decoded.reject := by decide

/-- No word is in two rows of the opcode map. -/
theorem test_rows_do_not_overlap :
    opcodeTable.Pairwise fun r q => r.pattern &&& q.mask ≠ q.pattern ∧ q.pattern &&& r.mask ≠ r.pattern := by decide

theorem test_withFetchWord_runs : nextOf (step (State.reset.withFetchWord 32 0x5)) =
    nextOf (exec .c2b { State.reset with engine := .busy ⟨0x5, ⟨zero, ⟨0, 0, 0⟩, false⟩, false⟩ }) := by decide +kernel

/-! ### One step of each command -/

/-- V-T1. -/
theorem test_c2b : ends (busy .c2b { zero with arg0 := 72 }) = some [0x2, 0x90000000, 7, 0, 0] := by decide +kernel

/-- V-T5. -/
theorem test_c2b_illegal : ends (busy .c2b { zero with arg0 := 128 }) = some [0x504, 0, 0, 0, 128] := by decide +kernel

/-- V-T7, V-T8. -/
theorem test_b2c : ends (busy .b2c { zero with arg0 := 3, arg1 := 0xA0000000 }) = some [0x2, 5, 0, 0, 0] ∧
    ends (busy .b2c { zero with arg0 := 9, arg1 := 0x91800000 }) = some [0x2, 72, 0, 0, 0] := by decide +kernel

/-- V-T14. -/
theorem test_b2c_illegal : ends (busy .b2c { zero with arg0 := 33 }) = some [0xA04, 0, 0, 0, 33] := by decide +kernel

/-- V-T32: "Hi" up to the top of memory. -/
theorem test_m2b : let s := busy .m2b { zero with msgAddr := 0x100, msgLen := 2, bitsAddr := 0xFFFFFFFC } (place 0x100 [72, 105])
    ends s = some [0x2, 14, 0, 0, 0] ∧ bytesAfter s 0xFFFFFFFC 2 = some [0x91, 0xA4] := by decide +kernel

/-- V-T21. -/
theorem test_m2b_address :
    ends (busy .m2b { zero with msgAddr := 0x100, msgLen := 6, bitsAddr := 0xFFFFFFFC }
      (place 0x100 [72, 101, 108, 108, 111, 33])) = some [0x804, 0, 0, 4, 0xFFFFFFFC] := by decide +kernel

/-- V-T27. -/
theorem test_b2m :
    let s := busy .b2m { zero with bitsAddr := 0x200, bitsLen := 14, msgAddr := 0x300, msgLen := 1 }
      (place 0x200 [0x91, 0xA4, 0x00] (place 0x300 [0, 0]))
    ends s = some [0x12, 1, 2, 0, 0] ∧ bytesAfter s 0x300 2 = some [72, 0] := by decide +kernel

/-- V-T31. -/
theorem test_b2m_overlap :
    ends (busy .b2m { zero with bitsAddr := 0x200, bitsLen := 14, msgAddr := 0x201, msgLen := 8 }
      (place 0x200 [0x91, 0xA4, 0x00])) = some [0x904, 0, 0, 3, 4] := by decide +kernel

/-- V-L8, V-L7. -/
theorem test_lsbCapacity :
    ends (busy .lsbCapacity { zero with rank := 2, dim0 := 65536, dim1 := 65535 }) = some [0x2, 613557394, 0, 0, 0] ∧
    ends (busy .lsbCapacity { zero with rank := 2, dim0 := 65536, dim1 := 65536 }) = some [0x404, 0, 0, 2, 2] := by
  decide +kernel

/-- V-L16, V-L23. -/
theorem test_dctCapacity :
    ends (busy .dctCapacity { zero with rank := 2, dim0 := 127, dim1 := 130 } [] ⟨8, 1, 16⟩ true) =
      some [0xA, 33, 240, 0, 0] ∧
    ends (busy .dctCapacity zero) = some [0x604, 0, 0, 0, 0] := by decide +kernel

def samplesE1 : List Byte := [200, 201, 202, 203, 204, 205, 206, 207, 208, 209, 210, 211, 212, 213, 214, 215]

def regsE1 : OperandRegs :=
  { zero with srcAddr := 0x1000, dstAddr := 0x3000, msgAddr := 0x2000, msgLen := 1, rank := 2, dim0 := 4, dim1 := 4 }

/-- V-E1. -/
theorem test_lsbEmbed : let s := busy .lsbEmbed regsE1 (place 0x1000 samplesE1 (place 0x2000 [65]))
    ends s = some [0x2, 7, 2, 0, 0] ∧ bytesAfter s 0x3000 16 =
      some [201, 200, 202, 202, 204, 204, 207, 206, 208, 208, 210, 210, 212, 212, 214, 214] := by decide +kernel

/-- V-E9, V-E17, V-E7. -/
theorem test_lsbEmbed_errors : let m := place 0x1000 samplesE1 (place 0x2000 [72, 105, 33])
    ends (busy .lsbEmbed { regsE1 with dstAddr := 0x1000 } m) = some [0x904, 0, 0, 2, 1] ∧
    ends (busy .lsbEmbed { regsE1 with dstAddr := 0x2000 } m) = some [0x904, 0, 0, 2, 3] ∧
    ends (busy .lsbEmbed { regsE1 with msgLen := 3, rank := 1, dim0 := 14 } m) = some [0x104, 0, 0, 3, 2] := by
  decide +kernel

/-- V-E10: the output of V-E4 extracted into one byte. -/
theorem test_lsbExtract :
    let s := busy .lsbExtract
      { zero with srcAddr := 0x3000, msgAddr := 0x4000, msgLen := 1, rank := 2, dim0 := 2, dim1 := 7 }
      (place 0x3000 [9, 8, 8, 9, 8, 8, 8, 9, 9, 8, 9, 8, 8, 9] (place 0x4000 [0, 0]))
    ends s = some [0x12, 1, 2, 0, 0] ∧ bytesAfter s 0x4000 2 = some [72, 0] := by decide +kernel

/-- V-E11: no complete group; the buffer is not touched. -/
theorem test_lsbExtract_short :
    ends (busy .lsbExtract { zero with srcAddr := 0x3000, msgAddr := 0x4000, msgLen := 8, rank := 1, dim0 := 6 }
      (place 0x3000 [1, 1, 1, 1, 1, 1])) = some [0x2, 0, 0, 0, 0] := by decide +kernel

/-- V-P13, V-P11: the ACT registers after the step. -/
theorem test_dctConfig :
    (nextOf (step (busy .dctConfig { zero with blockSize := 64, coefIndex := 4095, quant := 1 }))).map (·.act) =
      some ⟨64, 4095, 1⟩ ∧
    (nextOf (step (busy .dctConfig { zero with blockSize := 12, coefIndex := 1, quant := 10 } [] ⟨8, 1, 10⟩ true))).map (·.act) =
      some ⟨8, 1, 10⟩ := by decide +kernel

/-- V-P9, V-P10, V-P5 with `k = 1`. -/
theorem test_dctConfig_errors :
    ends (busy .dctConfig { zero with blockSize := 8, coefIndex := 1, quant := 0xFFFFFFFB }) =
      some [0x304, 0, 0, 3, 0xFFFFFFFB] ∧
    ends (busy .dctConfig { zero with blockSize := 12 }) = some [0x304, 0, 0, 1, 12] ∧
    ends (busy .dctConfig { zero with blockSize := 1, coefIndex := 1, quant := 10 }) = some [0x304, 0, 0, 2, 1] := by
  decide +kernel

/-- V-Q4 (15.3), V-Q8 (-25.0). -/
theorem test_qembed :
    ends (busy .qembed { zero with arg0 := 0x9999999A, arg1 := 0x402E9999, arg2 := 1, arg3 := 10 }) =
      some [0x2, 0, 0x403E0000, 0, 0] ∧
    ends (busy .qembed { zero with arg1 := 0xC0390000, arg2 := 1, arg3 := 10 }) = some [0x2, 0, 0xC0240000, 0, 0] := by
  decide +kernel

/-- V-Q23, V-Q28. -/
theorem test_qembed_errors :
    ends (busy .qembed { zero with arg0 := 0xFFFFFFFF, arg1 := 0x7FEFFFFF, arg2 := 1, arg3 := 3 }) =
      some [0xA04, 0, 0, 0, 0x7FEFFFFF] ∧
    ends (busy .qembed { zero with arg1 := 0x7FF80000, arg2 := 2 }) = some [0xA04, 0, 0, 2, 2] := by decide +kernel

/-- V-Q35 (-13.0), V-Q31 (25.0: the tie goes to 2). -/
theorem test_qextract :
    ends (busy .qextract { zero with arg1 := 0xC02A0000, arg3 := 10 }) = some [0x2, 1, 0, 0, 0] ∧
    ends (busy .qextract { zero with arg1 := 0x40390000, arg3 := 10 }) = some [0x2, 0, 0, 0, 0] := by decide +kernel

/-- V-Q40, V-Q41. -/
theorem test_qextract_errors : ends (busy .qextract zero) = some [0xA04, 0, 0, 3, 0] ∧
    ends (busy .qextract { zero with arg1 := 0x7FF80000, arg3 := 10 }) = some [0xA04, 0, 0, 0, 0x7FF80000] := by
  decide +kernel

def regsD : OperandRegs :=
  { zero with srcAddr := 0x10000, dstAddr := 0x20000, msgAddr := 0x2000, rank := 2, dim0 := 4, dim1 := 4 }

/-- V-D16: no whole block, the channel is all border and is copied. -/
theorem test_dctEmbed_border : let image : List Byte := [0, 1, 2, 3, 4, 5, 6, 7, 8, 9, 10, 11, 12, 13, 14, 15]
    let s := busy .dctEmbed regsD (place 0x10000 image) ⟨8, 1, 16⟩ true
    ends s = some [0xA, 0, 0, 0, 0] ∧ bytesAfter s 0x20000 16 = some image := by decide +kernel

/-- V-D21, V-D22, V-D24, V-D25. -/
theorem test_dctEmbed_errors : let r := { regsD with dim0 := 8, dim1 := 112 }
    let m := place 0x2000 [200, 66]
    ends (busy .dctEmbed { r with msgLen := 2 } m ⟨8, 1, 16⟩ true) = some [0x10C, 0, 0, 2, 1] ∧
    ends (busy .dctEmbed { r with rank := 3 }) = some [0x604, 0, 0, 0, 0] ∧
    ends (busy .dctEmbed { r with msgLen := 1 } m ⟨8, 1, 16⟩ true) = some [0x50C, 0, 0, 0, 200] ∧
    ends (busy .dctEmbed { r with dstAddr := 0x10064 } m ⟨8, 1, 16⟩ true) = some [0x90C, 0, 0, 2, 1] := by decide +kernel

/-- No whole block: nothing to decode (R274). -/
theorem test_dctExtract_no_block : ends (busy .dctExtract { regsD with msgLen := 4 } [] ⟨8, 1, 16⟩ true) =
    some [0xA, 0, 0, 0, 0] := by decide +kernel

/-- V-X13's order of checks, for DCT.EXTRACT; V-D23. -/
theorem test_dctExtract_errors : ends (busy .dctExtract zero) = some [0x604, 0, 0, 0, 0] ∧
    ends (busy .dctExtract { regsD with rank := 1, dim0 := 896 } [] ⟨8, 1, 16⟩ true) = some [0x40C, 0, 0, 1, 1] := by
  decide +kernel

/-! ### Blocks, with a collaborator that returns its argument -/

/-- `Fwd2D` and `Inv2D` both the identity. -/
def same (B : Nat) (M : BlockMatrix B) : BlockMatrix B := M

def sampleBlock : Fin 2 → Fin 2 → Byte := fun u v => if u = 0 then (if v = 0 then 10 else 20) else (if v = 0 then 30 else 40)

/-- By hand: entry (0, 1) is 20, 20 / 4 = 5, which bit 0 moves to 4 and bit 1 keeps. -/
theorem test_block_samples :
    blockSamples (withTransform same same) (coefPos 1 2) 4 (ofSamples sampleBlock) (some false) 0 1 = 16 ∧
    blockSamples (withTransform same same) (coefPos 1 2) 4 (ofSamples sampleBlock) (some true) 0 1 = 20 ∧
    blockSamples (withTransform same same) (coefPos 1 2) 4 (ofSamples sampleBlock) (some false) 1 0 = 30 := by
  decide +kernel

/-- By hand: a NaN in the target position is a forward fault of a block that carries a bit, and of no other (R264, R265). -/
theorem test_block_faults : let nan : BlockMatrix 2 := fun u v => if u = 0 ∧ v = 1 then 0x7FF8000000000000 else 0
    let p := withTransform (fun B M => if h : B = 2 then fun u v => nan (u.cast h) (v.cast h) else M) fun _ _ _ _ => 0
    embedBlockFault p (coefPos 1 2) 4 3 (ofSamples sampleBlock) (some true) = some ⟨.collaboratorFault, 3, 0⟩ ∧
    embedBlockFault p (coefPos 1 2) 4 3 (ofSamples sampleBlock) none = none := by decide +kernel

/-- By hand: bit 1 survives the identity in the block above (20 / 4 = 5). -/
theorem test_bit_survives : BitSurvives (withTransform same same) 1 4 sampleBlock true := by
  unfold BitSurvives BlockReturns; decide +kernel

/-- An inverse transform that makes infinities of 255 is not ROUNDTRIP_EXACT, though its samples are 255 again: `passBlock` has an
inverse fault (R265, R282). -/
theorem test_roundtrip_needs_finite :
    ¬ RoundtripExact (withTransform same fun _ M u v => if M u v = fp 255 then 0x7FF0000000000000 else M u v) 1 := fun h =>
  absurd (h (fun _ _ => 255) (0, 0) 1).1.2 (by decide +kernel)

/-! ### Other builds (R8): one step of `stepIn` -/

/-- STATUS, RESULT0, RESULT1, ERR_INFO0, ERR_INFO1 after the step of the given build. -/
def endsIn (p : Params) (s : State) : Option (List Word) :=
  (nextOf (stepIn p s)).map fun t => [readReg p t .status, t.result0, t.result1, t.errInfo0, t.errInfo1]

/-- V-Q20 under ALWAYS_DOWN. -/
theorem test_build_always_down : endsIn { Config.params with parityAdjust := .alwaysDown }
    (busy .qembed { zero with arg0 := 0x9999999A, arg1 := 0x402E9999, arg2 := 1, arg3 := 10 }) =
    some [0x2, 0, 0x40240000, 0, 0] := by decide +kernel

/-- V-Q31 under HALF_AWAY. -/
theorem test_build_half_away : endsIn { Config.params with tieMode := .halfAway }
    (busy .qextract { zero with arg1 := 0x40390000, arg3 := 10 }) = some [0x2, 1, 0, 0, 0] := by decide +kernel

/-- By hand (R80, R88): V-E1 where byte 0x100F is not backed by memory. -/
theorem test_build_hole : endsIn { Config.params with memOk := fun a => a != 0x100F } (busy .lsbEmbed regsE1) =
    some [0x804, 0, 0, 1, 0x1000] := by decide +kernel

/-- By hand (R266, R270): a 3 by 5 image of two 2 by 2 blocks under TRUNCATE with the identity transform; two terminator bits
make 21 and 41 even, and 8 bytes of 2 rows of 4 are written. -/
theorem test_build_truncate :
    let p := { withTransform same same with borderMode := .truncate }
    let s := busy .dctEmbed { zero with srcAddr := 0x1000, dstAddr := 0x3000, msgAddr := 0x2000, rank := 2, dim0 := 3, dim1 := 5 }
      (place 0x1000 [10, 21, 30, 41, 50, 60, 70, 80, 90, 91, 92, 93, 94, 95, 96] (place 0x3000 (List.replicate 10 1)))
      ⟨2, 1, 1⟩ true
    endsIn p s = some [0xA, 2, 0, 0, 0] ∧
      (nextOf (stepIn p s)).map (fun t => (t.outDim0, t.outDim1, memReadBytes t.mem 0x3000 10)) =
        some (2, 4, [10, 20, 30, 40, 60, 70, 80, 90, 1, 1]) := by decide +kernel

/-! ### The host, reset and overrun -/

/-- V-X22: a command word while BUSY is dropped, STATUS reads 0x21. -/
theorem test_overrun : (nextOf (step (hosting (stmtCmd .lsbCapacity) (busy .c2b { zero with arg0 := 72 })))).map
    (fun t => (readReg Config.params t .status, t.engine)) = some (0x21, .busy (jobOf .c2b { zero with arg0 := 72 })) := by
  decide +kernel

/-- V-X23. -/
theorem test_read_only : (nextOf (step (hosting (stmtWr .result0 5)))).map (·.result0) = some 0 ∧
    (nextOf (step (hosting (stmtWr .id 0)))).map (readReg Config.params · .id) = some 0x53544743 := by decide +kernel

/-- V-R2: bit 1 of the word that resets is discarded. -/
theorem test_soft_reset :
    (nextOf (step (hosting (stmtWr .ctrl 0x3) { busy .c2b { zero with arg0 := 5 } [] ⟨8, 1, 16⟩ true with
      engine := .idle, irqEn := true }))).map
      (fun t => [.ctrl, .status, .arg0, .actBlockSize, .id].map (readReg Config.params t)) =
    some [0, 0, 0, 0, 0x53544743] := by decide +kernel

/-- V-X24: masking lowers IRQ, DONE stays pending; ACK lowers it too. -/
theorem test_irq : let s : State := { State.reset with irqEn := true, status := { State.reset.status with done := true } }
    irq s = true ∧ (nextOf (step (hosting (stmtWr .ctrl 0) s))).map (fun t => (irq t, t.status.done)) = some (false, true) ∧
    (nextOf (step (hosting stmtAck s))).map (fun t => (irq t, readReg Config.params t .status)) = some (false, 0) := by
  decide +kernel

/-- V-X1, V-X12: an illegal word ends with ILLEGAL_COMMAND and the word. -/
theorem test_illegal_word : ends { busy .c2b zero with engine := .busy ⟨0xFFFFFFFF, ⟨zero, ⟨0, 0, 0⟩, false⟩, false⟩ } =
    some [0x704, 0, 0, 0xFFFFFFFF, 0] := by decide +kernel

/-- By hand from the definitions of the canonical form: sorted, replaced in place. -/
theorem test_memory_canonical : memWrite (memWrite (memWrite [] 5 1) 2 7) 5 3 = [(2, 7), (5, 3)] := by decide +kernel

/-- P1 of 95_test_vectors.md section 10, its first and its second transaction, and its read of RESULT0 (R124). -/
theorem test_encoding :
    encodingOf Config.params 2 { State.reset with host := ⟨stmtSetShape2 4 4, 0, []⟩ } =
      [(true, 0x28, 0x00000002), (true, 0x2C, 0x00000004)] ∧
    encodingOf Config.params 1 (hosting (stmtRd .result0 1) { State.reset with result0 := 2 }) = [(false, 0x64, 2)] := by
  decide +kernel

/-- A WAIT that sees BUSY = 1 is a read of STATUS that the encoding does not show; a refused statement is no transaction. -/
theorem test_polls : let s := hosting (.wait 1) (busy .c2b zero)
    busTrace Config.params 1 s = [(false, 0x08, 0x1)] ∧ encodingOf Config.params 1 s = [] ∧
    busTransaction Config.params s (.wr 16 0x54 (.lit 1)) = none ∧ busTransaction Config.params s (.rd 32 0x80 1) = none ∧
    busTransaction Config.params s (.wr 32 0x54 (.var 9)) = none := by decide +kernel

/-- LSB.EXTRACT at rank 0, which will end with INVALID_SHAPE: its message buffer is exclusive all the same (R203, R98). -/
theorem test_refused_command_races : let s := busy .lsbExtract { zero with msgAddr := 0x4000, msgLen := 2 }
    readForbidden Config.params s 0x4001 = true ∧ readForbidden Config.params s 0x4002 = false ∧
    (hostStore Config.params s 0x4001 7).engine =
      .busy { jobOf .lsbExtract { zero with msgAddr := 0x4000, msgLen := 2 } with raced := true } := by decide +kernel

/-- A DCT.EMBED that will end with NOT_CONFIGURED has its H * W output bytes (R266). -/
theorem test_refused_dct_region : touchesOutput (jobRegions Config.params (jobOf .dctEmbed regsD)) 0x2000F = true ∧
    touchesOutput (jobRegions Config.params (jobOf .dctEmbed regsD)) 0x20010 = false := by decide +kernel

/-- Refusals and the host's fault, by name. -/
theorem test_host_stops :
    step (hosting (.wr 16 0x54 (.lit 1))) = .refused .badTransaction ∧
    step (hosting (.rd 32 0x80 1)) = .refused .outsideWindow ∧
    step (hosting (.wr 32 0x54 (.var 9))) = .refused .unassignedHostVar ∧
    step (hosting (.store 0x100000000 1)) = .fault .absentAddress := ⟨rfl, rfl, rfl, rfl⟩

/-! ### Witnesses: encoding and the step -/

theorem witness_IllegalWordsEndWithIllegalCommand :
    isBusy State.reset = false ∧
    let s : State := { busy .c2b zero with engine := .busy ⟨0x4, ⟨zero, ⟨0, 0, 0⟩, false⟩, false⟩ }
    ∃ job r, s.engine = .busy job ∧ decode job.word = .reject r ∧ job.raced = false ∧ nextAgent s = .engine :=
  ⟨rfl, _, _, rfl, rfl, rfl, rfl⟩

theorem witness_StepRunsTheDecodedCommand : let s := busy .c2b zero
    s.engine = .busy (jobOf .c2b zero) ∧ nextAgent s = .engine ∧ decode (jobOf .c2b zero).word = .instr .c2b := by decide

theorem witness_TurnIsTakenAsScheduled :
    ((busy .c2b zero).turns = [] ∧ isBusy (busy .c2b zero) = true) ∧
    (State.reset.turns = [] ∧ isBusy State.reset = false) ∧
    (hosting stmtAck).turns = [.host] ∧
    (let s : State := { State.reset with turns := [.engine] }
     nextAgent s = .engine ∧ s.engine = .idle) ∧
    nextAgent State.reset = .host ∧ State.reset.host.program[State.reset.host.pc]? = none := by decide

theorem witness_EveryIssuedCommandEnds : isBusy (busy .dctEmbed zero) = true := by decide

theorem witness_CmdWriteIssuesTheCommand :
    (let s := hosting (.wr 32 0x0C (.lit 0x5))
     s.engine = .idle ∧ HostRuns s (.wr 32 0x0C (.lit 0x5)) ∧ hostValue s (.lit 0x5) = some 0x5) ∧
    (let s := hosting (.wr 32 0x0C (.var 0))
     s.engine = .idle ∧ HostRuns s (.wr 32 0x0C (.var 0)) ∧ hostValue s (.var 0) = some 0x5) := by
  unfold HostRuns; decide

theorem witness_CmdWriteWhileBusyOnlyOverruns :
    (let s := hosting (.wr 32 0x0C (.var 0)) (busy .c2b zero)
     s.engine = .busy (jobOf .c2b zero) ∧ HostRuns s (.wr 32 0x0C (.var 0)) ∧ hostValue s (.var 0) = some 0x5) ∧
    (let late : State := { State.reset with status := { State.reset.status with cmdOverrun := true } }
     late.status.cmdOverrun = true ∧
     (∃ t, step (hosting (stmtWr .status 0x20) late) = .next t ∧ t.status.cmdOverrun = false) ∧
     ∃ t, step (hosting .resetPin late) = .next t ∧ t.status.cmdOverrun = false) := by
  refine ⟨by unfold HostRuns; decide, rfl, ⟨_, rfl, rfl⟩, ⟨_, rfl, rfl⟩⟩

/-! ### Witnesses: issue, completion, frames -/

theorem witness_EveryCommandCompletesWithDoneOrErr : let s := busy .lsbEmbed regsE1
    s.engine = .busy (jobOf .lsbEmbed regsE1) ∧ s.status.done = false ∧ s.status.err = false := by decide

theorem witness_ErrorsArePrecise :
    (let s := busy .c2b { zero with arg0 := 128 }
     RaceFree s ∧ ResultsClear s ∧ ∃ t, exec .c2b s = .next t ∧ t.status.err = true) ∧
    (let s : State := { busy .c2b zero with engine := .busy ⟨0x4, ⟨zero, ⟨0, 0, 0⟩, false⟩, false⟩ }
     RaceFree s ∧ ResultsClear s ∧ ∃ t, performIllegal Config.params s = .next t ∧ t.status.err = true) :=
  ⟨⟨fun _ h => (by cases h; rfl), ⟨rfl, rfl, rfl, rfl, rfl, rfl, rfl, rfl, rfl, rfl⟩, _, rfl, rfl⟩,
    fun _ h => (by cases h; rfl), ⟨rfl, rfl, rfl, rfl, rfl, rfl, rfl, rfl, rfl, rfl⟩, _, rfl, rfl⟩

theorem witness_CommandsReportOnlyTheirErrorCodes : let s := busy .qextract zero
    s.status.errCode = .none ∧ ∃ t, exec .qextract s = .next t := ⟨rfl, _, rfl⟩

theorem witness_OperandWritesWhileBusyDoNotReachTheCommand : let s := busy .c2b { zero with arg0 := 72 }
    s.engine = .busy (jobOf .c2b { zero with arg0 := 72 }) ∧ ∃ t, exec .c2b s = .next t := ⟨rfl, _, rfl⟩

theorem witness_CommandsWriteOnlyTheirOutputRegions :
    (let s := busy .lsbEmbed regsE1 (place 0x1000 samplesE1 [(0x2000, 65)])
     s.engine = .busy (jobOf .lsbEmbed regsE1) ∧ (jobOf .lsbEmbed regsE1).raced = false ∧ s.status.err = false ∧
     ∃ t, exec .lsbEmbed s = .next t) ∧
    (1 ≤ ({ zero with rank := 4 } : OperandRegs).rank.toNat ∧ ({ zero with rank := 4 } : OperandRegs).rank.toNat ≤ 4) ∧
    Instr.dctEmbed ∉ [Instr.lsbEmbed, .lsbExtract] ∧
    (¬ 1 ≤ zero.rank.toNat ∧ ¬ ({ zero with rank := 5 } : OperandRegs).rank.toNat ≤ 4) ∧
    decode (jobOf .lsbEmbed regsE1).word = .instr .lsbEmbed ∧ decode 0x4 = .reject .algForOp :=
  ⟨⟨rfl, rfl, rfl, _, rfl⟩, by decide, by decide, by decide, by decide, by decide⟩

theorem witness_FrameOfRegisterCommands :
    ∀ i ∈ [Instr.c2b, .b2c, .qembed, .qextract, .lsbCapacity, .dctCapacity, .dctConfig], ∃ t,
      exec i (busy i zero) = .next t := by
  simp only [List.forall_mem_cons, List.not_mem_nil, false_imp_iff, implies_true, and_true]
  exact ⟨⟨_, rfl⟩, ⟨_, rfl⟩, ⟨_, rfl⟩, ⟨_, rfl⟩, ⟨_, rfl⟩, ⟨_, rfl⟩, ⟨_, rfl⟩⟩

theorem witness_FrameOfStoringCommands :
    ∀ i ∈ [Instr.lsbEmbed, .dctEmbed, .m2b, .lsbExtract, .b2m, .dctExtract],
      (busy i regsE1).engine = .busy (jobOf i regsE1) ∧ (jobOf i regsE1).raced = false ∧
        ∃ t, exec i (busy i regsE1) = .next t := by
  simp only [List.forall_mem_cons, List.not_mem_nil, false_imp_iff, implies_true, and_true]
  exact ⟨⟨rfl, rfl, _, rfl⟩, ⟨rfl, rfl, _, rfl⟩, ⟨rfl, rfl, _, rfl⟩, ⟨rfl, rfl, _, rfl⟩, ⟨rfl, rfl, _, rfl⟩, ⟨rfl, rfl, _, rfl⟩⟩

theorem witness_OnlyConfigAndResetChangeTheConfiguration :
    (∃ t, step (busy .dctConfig { zero with blockSize := 8, coefIndex := 1, quant := 16 }) = .next t) ∧
    ∃ t, step (hosting .resetPin { State.reset with act := ⟨8, 1, 16⟩ }) = .next t := ⟨⟨_, rfl⟩, _, rfl⟩

/-! ### Witnesses: the codec, with operands at the boundary of each clause -/

theorem witness_C2bConvertsCharacter :
    (let r := { zero with arg0 := 127 }
     (busy .c2b r).engine = .busy (jobOf .c2b r) ∧ r.arg0.toNat ≤ 127) ∧
    (let r := { zero with arg0 := 128 }
     (busy .c2b r).engine = .busy (jobOf .c2b r) ∧ 127 < r.arg0.toNat) := by decide

theorem witness_B2cConvertsBits :
    (let r := { zero with arg0 := 32 }
     (busy .b2c r).engine = .busy (jobOf .b2c r) ∧ r.arg0.toNat ≤ 32) ∧
    (let r := { zero with arg0 := 33 }
     (busy .b2c r).engine = .busy (jobOf .b2c r) ∧ 32 < r.arg0.toNat) := by decide

theorem witness_M2bPacksTheMessage :
    (let r := { zero with msgAddr := 0x100, msgLen := 2, bitsAddr := 0xFFFFFFFE }
     let s := busy .m2b r (place 0x100 [127, 105])
     s.engine = .busy (jobOf .m2b r) ∧ (jobOf .m2b r).raced = false ∧ Fits 0x100 2 ∧ Fits 0xFFFFFFFE 2 ∧
       Apart 0xFFFFFFFE 2 0x100 2 ∧ Characters s 0x100 2) ∧
    ¬ Fits 0xFFFFFFFF 2 ∧
    (Fits 0x100 2 ∧ ¬ Fits 0xFFFFFFFF 2) ∧
    (Fits 0x100 2 ∧ Fits 0x101 2 ∧ ¬ Apart 0x101 2 0x100 2) ∧
    (let s := busy .m2b { zero with msgAddr := 0x100, msgLen := 2, bitsAddr := 0x102 } (place 0x100 [127, 128])
     Fits 0x100 2 ∧ Fits 0x102 2 ∧ Apart 0x102 2 0x100 2 ∧ FirstBad s 0x100 2 1) := by
  unfold Fits Apart Characters FirstBad; decide +kernel

theorem witness_B2mDecodesTheBits :
    (let r := { zero with bitsAddr := 0x200, bitsLen := 14, msgAddr := 0x202, msgLen := 1 }
     let s := busy .b2m r (place 0x200 [0x91, 0xA4])
     s.engine = .busy (jobOf .b2m r) ∧ (jobOf .b2m r).raced = false ∧ Fits 0x202 1 ∧ Fits 0x200 2 ∧
       Apart 0x202 1 0x200 2) ∧
    ¬ Fits 0xFFFFFFFF 2 ∧
    (Fits 0x202 1 ∧ ¬ Fits 0xFFFFFFFF 2) ∧
    (Fits 0x201 1 ∧ Fits 0x200 2 ∧ ¬ Apart 0x201 1 0x200 2) := by
  unfold Fits Apart; decide +kernel

theorem witness_FramingLaws :
    ((∀ c ∈ [72, 105#8], c.toNat ≤ 127) ∧ (∀ c ∈ [72, 105#8], c ≠ 0)) ∧ ([true, true, true, true, true, true] : Bits).length < 7 ∧
    (List.replicate 7 false ++ [true]).take 7 = List.replicate 7 false ∧
    (∀ c ∈ [65] ++ 0 :: [66, 127#8], c.toNat ≤ 127) ∧ ∀ c ∈ [65#8], c ≠ 0 := by decide

theorem witness_PackedBitsReadBack : let s := List.replicate 14 true
    (13 < s.length ∧ 13 / 8 < (packBits s).length) ∧ (s.length ≤ 15 ∧ 15 / 8 < (packBits s).length) ∧
    ([0xFF, 0xFF] : List Byte).length = (s.length + 7) / 8 ∧
    ∀ j < 14, (([0xFF, 0xFF] : List Byte)[j / 8]?.getD 0).getLsbD (7 - j % 8) = s[j]?.getD false := by decide +kernel

/-! ### Witnesses: capacity -/

theorem witness_LsbCapacityOfTheShape :
    (let r := { zero with rank := 4, dim0 := 1, dim1 := 1, dim2 := 0xFFFFFFFF, dim3 := 1 }
     (busy .lsbCapacity r).engine = .busy (jobOf .lsbCapacity r) ∧ ShapeOk (jobOf .lsbCapacity r).snap) ∧
    (zero.rank.toNat = 0 ∧ 4 < ({ zero with rank := 5 } : OperandRegs).rank.toNat) ∧
    (let r := { zero with rank := 2, dim0 := 65536, dim1 := 65536 }
     1 ≤ r.rank.toNat ∧ r.rank.toNat ≤ 4 ∧ 2 ^ 32 ≤ samples (jobOf .lsbCapacity r).snap) := by
  unfold ShapeOk; decide +kernel

theorem witness_DctCapacityOfTheShape :
    (let r := { zero with rank := 2, dim0 := 0xFFFFFFFF, dim1 := 1 }
     (busy .dctCapacity r [] ⟨8, 1, 16⟩ true).engine = .busy (jobOf .dctCapacity r ⟨8, 1, 16⟩ true) ∧
       DctReady (jobOf .dctCapacity r ⟨8, 1, 16⟩ true).snap) ∧
    (jobOf .dctCapacity zero).snap.dctValid = false ∧
    (let o := (jobOf .dctCapacity { zero with rank := 3 } ⟨8, 1, 16⟩ true).snap
     o.dctValid = true ∧ o.regs.rank.toNat ≠ 2) ∧
    (let o := (jobOf .dctCapacity { zero with rank := 2, dim0 := 65536, dim1 := 65536 } ⟨8, 1, 16⟩ true).snap
     o.dctValid = true ∧ o.regs.rank.toNat = 2 ∧ 2 ^ 32 ≤ rows o * cols o) := by
  unfold DctReady; decide +kernel

theorem witness_CapacityIsBoundedAndMonotone :
    7 ≤ totalBlocks 56 8 8 ∧ (6 : Nat) ≤ 7 ∧ totalBlocks 56 8 8 ≤ totalBlocks 8 112 8 := by decide

/-! ### Witnesses: the LSB engine -/

/-- An output of 14 samples next to its input and to the top of memory; a message of 2 characters. -/
def regsL : OperandRegs :=
  { zero with srcAddr := 0xFFFFFFE4, dstAddr := 0xFFFFFFF2, msgAddr := 0x2000, msgLen := 2, rank := 1, dim0 := 14 }

def snapL : Snapshot := (jobOf .lsbEmbed regsL).snap

theorem witness_LsbEmbedHidesTheMessage :
    ((busy .lsbEmbed regsL).engine = .busy (jobOf .lsbEmbed regsL) ∧ (jobOf .lsbEmbed regsL).raced = false) ∧
    (ShapeOk snapL ∧ LsbEmbedRegions snapL ∧ 2 ≤ samples snapL / 7) ∧
    Characters (busy .lsbEmbed regsL (place 0x2000 [72, 127])) 0x2000 2 ∧
    (zero.rank.toNat = 0 ∧ 4 < ({ zero with rank := 5 } : OperandRegs).rank.toNat) ∧
    (let r := { regsL with rank := 2, dim0 := 65536, dim1 := 65536 }
     1 ≤ r.rank.toNat ∧ r.rank.toNat ≤ 4 ∧ 2 ^ 32 ≤ samples (jobOf .lsbEmbed r).snap) ∧
    (let o := (jobOf .lsbEmbed { regsL with msgLen := 3 }).snap
     ShapeOk o ∧ LsbEmbedRegions o ∧ samples o / 7 < 3) ∧
    FirstBad (busy .lsbEmbed regsL (place 0x2000 [127, 128])) 0x2000 2 1 := by
  refine ⟨?_, ?_, ?_, ?_, ?_, ?_, ?_⟩ <;>
    (try unfold ShapeOk LsbEmbedRegions Fits Apart) <;> (try unfold Characters) <;> (try unfold FirstBad) <;> decide +kernel

/-- The clauses of `EmbedRegionErrors` and `ExtractRegionErrors`, each at a boundary of 14 samples and 2 characters. -/
theorem witness_region_errors :
    ¬ Fits 0xFFFFFFF3 14 ∧ (Fits 0xFFFFFFF2 14 ∧ ¬ Fits 0xFFFFFFFF 2) ∧
    (Fits 0x1000 14 ∧ Fits 0x100D 14 ∧ Fits 0x2000 2 ∧ ¬ Apart 0x100D 14 0x1000 14) ∧
    (Fits 0x1000 14 ∧ Fits 0x1FF3 14 ∧ Fits 0x2000 2 ∧ Apart 0x1FF3 14 0x1000 14 ∧ ¬ Apart 0x1FF3 14 0x2000 2) ∧
    (Fits 0x1000 14 ∧ Fits 0x100D 2 ∧ ¬ Apart 0x100D 2 0x1000 14) := by
  unfold Fits Apart; decide +kernel

theorem witness_LsbExtractReadsTheMessage : let r := { regsL with msgAddr := 0xFFFFFFF2, msgLen := 14 }
    let o := (jobOf .lsbExtract r).snap
    ((busy .lsbExtract r).engine = .busy (jobOf .lsbExtract r) ∧ (jobOf .lsbExtract r).raced = false ∧ ShapeOk o ∧
       ExtractRegions o (samples o)) ∧
    (zero.rank.toNat = 0 ∧ 4 < ({ zero with rank := 5 } : OperandRegs).rank.toNat) ∧
    (let r := { regsL with rank := 2, dim0 := 65536, dim1 := 65536 }
     1 ≤ r.rank.toNat ∧ r.rank.toNat ≤ 4 ∧ 2 ^ 32 ≤ samples (jobOf .lsbExtract r).snap) := by
  unfold ShapeOk ExtractRegions Fits Apart; decide +kernel

theorem witness_SecondLsbCheckNeverFails : let s := busy .lsbEmbed { regsL with msgLen := 3 }
    s.status.errCode ≠ .capacityExceededBits ∧ ∃ t, exec .lsbEmbed s = .next t := ⟨by decide, _, rfl⟩

/-- "Hi" embedded into 14 samples and read back (V-E4 as a row). -/
def regsR : OperandRegs :=
  { zero with srcAddr := 0x1000, dstAddr := 0x3000, msgAddr := 0x2000, msgLen := 2, rank := 1, dim0 := 14 }

theorem witness_LsbRoundTrip :
    let s := busy .lsbEmbed regsR (place 0x1000 (List.replicate 14 9) (place 0x2000 [72, 105]))
    let r' := { regsR with srcAddr := 0x3000, msgAddr := 0x4000 }
    ∃ t, exec .lsbEmbed s = .next t ∧ s.status.err = false ∧ t.status.err = false ∧
      (∀ k < 2, memRead s.mem (0x2000 + k) ≠ 0) ∧
      let s' := busy .lsbExtract r' t.mem
      s'.engine = .busy (jobOf .lsbExtract r') ∧ s'.mem = t.mem ∧
        samples (jobOf .lsbExtract r').snap = samples (jobOf .lsbEmbed regsR).snap ∧
        ExtractRegions (jobOf .lsbExtract r').snap (samples (jobOf .lsbEmbed regsR).snap) :=
  ⟨_, rfl, rfl, by decide +kernel, by decide +kernel, rfl, rfl, rfl, by unfold ExtractRegions Fits Apart; decide +kernel⟩

/-! ### Witnesses: the quantizer -/

theorem witness_DctConfigValidatesAndCopies :
    (let r := { zero with blockSize := 64, coefIndex := 4095, quant := 1 }
     (busy .dctConfig r).engine = .busy (jobOf .dctConfig r) ∧
       r.blockSize.toNat = 2 ^ 6 ∧ r.blockSize.toNat ≤ 64 ∧ 1 ≤ r.coefIndex.toNat ∧
       r.coefIndex.toNat ≤ r.blockSize.toNat * r.blockSize.toNat - 1 ∧ 0 < r.quant.toInt) ∧
    ¬ ((128#32).toNat ≤ 64) ∧ (¬ ∃ n, (0#32).toNat = 2 ^ n) ∧
    ((8#32).toNat = 2 ^ 3 ∧ ¬ (1 ≤ (0#32).toNat) ∧ ¬ ((64#32).toNat ≤ (8#32).toNat * (8#32).toNat - 1)) ∧
    ((8#32).toNat = 2 ^ 3 ∧ 1 ≤ (63#32).toNat ∧ (63#32).toNat ≤ (8#32).toNat * (8#32).toNat - 1 ∧ (0#32).toInt ≤ 0) :=
  ⟨by decide, by decide, fun ⟨n, h⟩ => by have := Nat.two_pow_pos n; simp at h; omega, by decide, by decide⟩

theorem witness_QembedForcesTheParity :
    (let r := { zero with arg1 := 0x40250000, arg2 := 1, arg3 := 1 }
     (busy .qembed r).engine = .busy (jobOf .qembed r) ∧ r.arg2.toNat ≤ 1 ∧ 0 < r.arg3.toInt ∧
       f64Finite (r.arg1 ++ r.arg0) = true ∧ f64Finite (fp (adjust .setLsb (rnd .halfEven (fdiv (r.arg1 ++ r.arg0) (fp 1))) 1 * 1)) = true) ∧
    1 < (2#32).toNat ∧ ((1#32).toNat ≤ 1 ∧ (0#32).toInt ≤ 0) ∧
    ((1#32).toNat ≤ 1 ∧ 0 < (1#32).toInt ∧ f64Finite (0x7FF80000#32 ++ 0#32) = false) ∧
    f64Finite (fp (adjust .setLsb (rnd .halfEven (fdiv (0x7FEFFFFF#32 ++ 0xFFFFFFFF#32) (fp 3))) 0 * 3)) = false := by decide +kernel

theorem witness_QextractReadsTheParity :
    (let r := { zero with arg1 := 0x7FEFFFFF, arg0 := 0xFFFFFFFF, arg3 := 1 }
     (busy .qextract r).engine = .busy (jobOf .qextract r) ∧ 0 < r.arg3.toInt ∧ f64Finite (r.arg1 ++ r.arg0) = true) ∧
    (0#32).toInt ≤ 0 ∧ 0 < (1#32).toInt ∧ f64Finite (0x7FF00000#32 ++ 0#32) = false := by decide +kernel

/-- 2.5 is an exact half. -/
theorem witness_RoundingIsToTheNearest : let x : Binary64 := 0x4004000000000000
    f64Finite x = true ∧ 2 * (f64Int x - rnd .halfEven x * f64One).natAbs = f64One ∧
      2 * (f64Int x - rnd .halfAway x * f64One).natAbs = f64One := by decide +kernel

theorem witness_AdjustForcesTheParity : (1 : Nat) ≤ 1 ∧ (-3 : Int) % 2 = (1 : Nat) ∧ (-3 : Int) % 2 ≠ (0 : Nat) := by decide

theorem witness_SmallIntegersAreExact : (-(2 ^ 53) : Int).natAbs ≤ 2 ^ 53 := by decide

/-- 10.5 with factor 10, and the largest factor. -/
theorem witness_EmbeddedParityIsStable : let c : Binary64 := 0x4025000000000000
    f64Finite c = true ∧ (1 : Nat) ≤ 1 ∧ (1 : Int) ≤ 10 ∧ (10 : Int) < 2 ^ 31 ∧
      (adjust .setLsb (quant .halfEven c 10) 1 * 10).natAbs ≤ 2 ^ 53 ∧
      (adjust .setLsb (quant .halfEven c (2 ^ 31 - 1)) 1 * (2 ^ 31 - 1)).natAbs ≤ 2 ^ 53 := by decide +kernel

/-- The largest finite value. -/
theorem witness_HugeQuotientsExtractZero : let c : Binary64 := 0x7FEFFFFFFFFFFFFF
    f64Finite c = true ∧ (1 : Int) ≤ 1 ∧ (1 : Int) < 2 ^ 31 ∧ 2 ^ 53 * f64One ≤ f64Units (fdiv c (fp 1)) := by decide +kernel

/-- 25.0 with factor 10: the quotient 2.5 is a tie. -/
theorem witness_TiesDoNotMatterForNonNegativeQuotients : let c : Binary64 := 0x4039000000000000
    Config.params.parityAdjust = .setLsb ∧ f64Finite c = true ∧ (1 : Nat) ≤ 1 ∧ (1 : Int) ≤ 10 ∧ (10 : Int) < 2 ^ 31 ∧
      0 ≤ f64Int (fdiv c (fp 10)) := by decide +kernel

theorem witness_ClippingCommutesWithRounding : f64Finite (0x406FF00000000000 : Binary64) = true := by decide

/-! ### Witnesses: the DCT engine -/

/-- A message of one character in an 8 by 112 image, 14 blocks (V-D1). -/
def regsT : OperandRegs := { regsD with dim0 := 8, dim1 := 112, msgLen := 1 }

def snapT : Snapshot := (jobOf .dctEmbed regsT ⟨8, 1, 16⟩ true).snap

theorem witness_DctEmbedHidesTheMessage :
    ((busy .dctEmbed regsT [] ⟨8, 1, 16⟩ true).engine = .busy (jobOf .dctEmbed regsT ⟨8, 1, 16⟩ true) ∧
      (jobOf .dctEmbed regsT ⟨8, 1, 16⟩ true).raced = false) ∧
    (DctReady snapT ∧ DctEmbedRegions snapT ∧ 1 ≤ dctCapacityOf snapT) ∧
    Characters (busy .dctEmbed regsT (place 0x2000 [127]) ⟨8, 1, 16⟩ true) 0x2000 1 ∧
    (let o := (jobOf .dctEmbed regsD ⟨8, 1, 16⟩ true).snap
     DctReady o ∧ DctEmbedRegions o ∧ 0 ≤ dctCapacityOf o ∧ blocks o = 0) ∧
    (let o := (jobOf .dctEmbed { regsD with rank := 3 } ⟨8, 1, 16⟩ true).snap
     o.dctValid = true ∧ o.regs.rank.toNat ≠ 2) ∧
    (let o := (jobOf .dctEmbed { regsD with dim0 := 65536, dim1 := 65536 } ⟨8, 1, 16⟩ true).snap
     o.dctValid = true ∧ o.regs.rank.toNat = 2 ∧ 2 ^ 32 ≤ rows o * cols o) ∧
    (let o := (jobOf .dctEmbed { regsT with msgLen := 2 } ⟨8, 1, 16⟩ true).snap
     DctReady o ∧ DctEmbedRegions o ∧ dctCapacityOf o < 2) ∧
    FirstBad (busy .dctEmbed regsT (place 0x2000 [128]) ⟨8, 1, 16⟩ true) 0x2000 1 0 := by
  refine ⟨?_, ?_, ?_, ?_, ?_, ?_, ?_, ?_⟩ <;>
    (try unfold DctReady DctEmbedRegions Fits Apart) <;> (try unfold Characters) <;> (try unfold FirstBad) <;> decide +kernel

theorem witness_DctExtractReadsTheMessage :
    ((busy .dctExtract regsT [] ⟨8, 1, 16⟩ true).engine = .busy (jobOf .dctExtract regsT ⟨8, 1, 16⟩ true) ∧
      DctReady snapT ∧ ExtractRegions snapT (rows snapT * cols snapT)) ∧
    (let o := (jobOf .dctExtract regsD ⟨8, 1, 16⟩ true).snap
     DctReady o ∧ ExtractRegions o (rows o * cols o) ∧ blocks o = 0) ∧
    (let o := (jobOf .dctExtract { regsD with rank := 3 } ⟨8, 1, 16⟩ true).snap
     o.dctValid = true ∧ o.regs.rank.toNat ≠ 2) ∧
    (let o := (jobOf .dctExtract { regsD with dim0 := 65536, dim1 := 65536 } ⟨8, 1, 16⟩ true).snap
     o.dctValid = true ∧ o.regs.rank.toNat = 2 ∧ 2 ^ 32 ≤ rows o * cols o) := by
  unfold DctReady ExtractRegions Fits Apart; decide +kernel

/-- The configuration of 2 by 2 blocks, coefficient 1, factor 1; a 2 by 30 image of even samples has 15 blocks, one
more than a message of one character and its terminator take. -/
def config2 : DctConfig := ⟨2, 1, 1⟩

def regs2 : OperandRegs :=
  { zero with srcAddr := 0x1000, dstAddr := 0x3000, msgAddr := 0x2000, msgLen := 1, rank := 2, dim0 := 2, dim1 := 30 }

def embed2 : State := busy .dctEmbed regs2 (place 0x1000 (List.replicate 60 100) (place 0x2000 [65])) config2 true

def regs2' : OperandRegs := { regs2 with srcAddr := 0x3000, msgAddr := 0x4000 }

def snap2 : Snapshot := (jobOf .dctEmbed regs2 config2 true).snap

/-- What DCT.EMBED leaves with the identity collaborator. -/
def after2 : State :=
  complete (withTransform same same) (regionsOf (withTransform same same) .dctEmbed snap2) false
    (dctEmbed (withTransform same same) snap2 embed2.mem) embed2

theorem embed2_next : embedWith same same embed2 = .next after2 := rfl

theorem after2_no_error : after2.status.err = false ∧ after2.result0 = 14 := by decide +kernel

theorem witness_DctRoundTripIffBitsSurvive :
    embed2.engine = .busy (jobOf .dctEmbed regs2 config2 true) ∧ embed2.status.err = false ∧
    embedWith same same embed2 = .next after2 ∧ after2.status.err = false ∧
    7 ≤ blocks snap2 ∧ (∀ k < 1, memRead embed2.mem (0x2000 + k) ≠ 0) ∧
    (busy .dctExtract regs2' after2.mem config2 true).engine = .busy (jobOf .dctExtract regs2' config2 true) ∧
    (busy .dctExtract regs2' after2.mem config2 true).status.done = false ∧
    ExtractRegions (jobOf .dctExtract regs2' config2 true).snap (rows snap2 * cols snap2) :=
  ⟨rfl, rfl, embed2_next, after2_no_error.1, by decide +kernel, by decide +kernel, rfl, rfl,
    by unfold ExtractRegions Fits Apart; decide +kernel⟩

/-- A sample is a binary64 value exactly (R262). -/
theorem sample_exact (b : Byte) : f64Neg (fp b.toNat) = false ∧ f64Finite (fp b.toNat) = true ∧
    f64Units (fp b.toNat) = b.toNat * f64One := by
  have h := f64OfUnits_exact (decide ((b.toNat : Int) < 0)) b.toNat 1074 1 (by have := b.isLt; omega) (by decide) (by decide)
  rw [Nat.mul_one] at h
  exact ⟨h.1.trans (decide_eq_false (by omega)), h.2⟩

/-- Every sample survives the conversion to binary64 and back (R262, R263). -/
theorem sample_survives (b : Byte) : toSample .halfEven (fp b.toNat) = b := by
  have hi : f64Int (fp b.toNat) = ((b.toNat * f64One : Nat) : Int) := by
    rw [f64Int, (sample_exact b).1, (sample_exact b).2.2]; rfl
  have hc : clip ((b.toNat * f64One : Nat) : Int) 0 (255 * f64One) = ((b.toNat * f64One : Nat) : Int) := by
    generalize f64One = one
    have : b.toNat * one ≤ 255 * one := Nat.mul_le_mul_right _ (by have := b.isLt; omega)
    unfold clip; split_ifs <;> omega
  have hr : roundInt .halfEven ((b.toNat * f64One : Nat) : Int) f64One = b.toNat := by
    have h0 : ¬ ((b.toNat * f64One : Nat) : Int) < 0 := by omega
    rw [roundInt, if_neg h0, Int.natAbs_natCast, roundNat_mul _ _ _ f64One_pos]
  rw [toSample, hi, hc, hr]; simp

theorem same_roundtrip : RoundtripExact (withTransform same same) 2 := fun X _ _ =>
  ⟨⟨rfl, by simp [allFinite, blockOutput, blockCoefs, withTransform, same, ofSamples, fun b => (sample_exact b).2.1]⟩,
    by funext u v; exact sample_survives (X u v)⟩

theorem same_finite (B : Nat) : FiniteResults (withTransform same same) B := fun M h =>
  ⟨by simp [allFinite, withTransform, same, fun u v => (h u v).1], by simp [allFinite, withTransform, same, fun u v => (h u v).1]⟩

theorem witness_PassedBlocksAreUnchangedIfTheTransformIsExact :
    embed2.engine = .busy (jobOf .dctEmbed regs2 config2 true) ∧ embed2.status.err = false ∧
    RoundtripExact (withTransform same same) (bsize snap2) ∧ embedWith same same embed2 = .next after2 ∧
    after2.status.err = false ∧ embedded snap2 ≤ 14 ∧ 14 < blocks snap2 :=
  ⟨rfl, rfl, same_roundtrip, rfl, after2_no_error.1, by decide +kernel, by decide +kernel⟩

theorem witness_FiniteCollaboratorNeverFaultsExtract :
    let s := busy .dctExtract regs2 (place 0x1000 (List.replicate 60 100)) config2 true
    s.engine = .busy (jobOf .dctExtract regs2 config2 true) ∧ s.status.errCode ≠ .collaboratorFault ∧
    LegalConfig Config.params config2 ∧ FiniteResults (withTransform same same) (bsize snap2) ∧
    ∃ t, extractWith same same s = .next t :=
  ⟨rfl, by decide, ⟨⟨1, rfl⟩, by decide, by decide, by decide, by decide⟩, same_finite _, _, rfl⟩

/-! ### Witnesses: the register window, reset, races, invariants -/

theorem witness_TransactionsReadAndWriteRegisters :
    (let s := hosting (.wr 32 0x78 (.var 0))
     (0x78, Reg.outDim1) ∈ registerMap ∧ HostRuns s (.wr 32 0x78 (.var 0)) ∧ hostValue s (.var 0) = some 0x5) ∧
    (let s := hosting (.rd 32 0x00 3)
     (0x00, Reg.id) ∈ registerMap ∧ (0x00, 0x53544743) ∈ window s ∧ HostRuns s (.rd 32 0x00 3)) ∧
    (let s := hosting (.wr 32 0x60 (.lit 7))
     0x60 ∈ operandOffsets ∧ HostRuns s (.wr 32 0x60 (.lit 7)) ∧ hostValue s (.lit 7) = some 7) ∧
    (Reg.arg3 ∈ operandRegs ∧ Reg.outDim1 ≠ Reg.arg3) ∧
    (nextAgent (busy .c2b zero) = .engine ∧ ∃ t, step (busy .c2b zero) = .next t) ∧
    (let s := hosting (.wait 1) (busy .c2b zero)
     HostRuns s (.wait 1) ∧ isBusy s = true ∧ ∃ t, step s = .next t) := by
  unfold HostRuns
  exact ⟨by decide, by decide, by decide, by decide, ⟨rfl, _, rfl⟩, ⟨rfl, rfl⟩, rfl, _, rfl⟩

theorem witness_ReadOnlyAndReservedIgnoreWrites :
    Reg.id ∈ readOnlyRegs ∧ (0xFFFFFFFE : Word).getLsbD 0 = false := by decide

theorem witness_BadTransactionsAreRefused :
    (((31 : Nat) ≠ 32 ∨ 0x54 % 4 ≠ 0) ∧ HostRuns (hosting (.wr 31 0x54 (.lit 1))) (.wr 31 0x54 (.lit 1))) ∧
    ((32 ≠ 32 ∨ 0x55 % 4 ≠ 0) ∧ HostRuns (hosting (.rd 32 0x55 1)) (.rd 32 0x55 1)) := by unfold HostRuns; decide

theorem witness_AcknowledgeLowersIrq :
    (let s : State := { State.reset with irqEn := true, status := { State.reset.status with done := true } }
     (s.status.done = true → (0x2 : Word).getLsbD 1 = true) ∧ (s.status.err = true → (0x2 : Word).getLsbD 2 = true)) ∧
    (0x0 : Word).getLsbD 0 = false ∧ (0x0 : Word).getLsbD 1 = false := by decide

theorem witness_WaitPollsUntilNotBusy : HostRuns (hosting (.wait 7)) (.wait 7) ∧
    HostRuns (hosting (.wait 7) (busy .c2b zero)) (.wait 7) := by unfold HostRuns; decide

theorem witness_ResetValues : ((0x3 : Word).getLsbD 0 = true ∧ (0x2 : Word).getLsbD 0 = false) ∧
    HostRuns (hosting .resetPin (busy .c2b zero)) .resetPin ∧ (hosting .resetPin).engine = .idle := by
  unfold HostRuns; decide

/-- V-R4, by the soft reset and by the reset input. -/
theorem witness_ResetAbandonsTheCommand : (busy .lsbEmbed regsE1).engine = .busy (jobOf .lsbEmbed regsE1) ∧
    (0x1 : Word).getLsbD 0 = true ∧
    (HostRuns (hosting .resetPin (busy .lsbEmbed regsE1)) .resetPin ∧
      (hosting .resetPin (busy .lsbEmbed regsE1)).engine = .busy (jobOf .lsbEmbed regsE1)) ∧
    (∃ r ∈ jobRegions Config.params (jobOf .lsbEmbed regsE1), r.output = false ∧ r.base ≤ 0x100F ∧ 0x100F < r.base + r.len) ∧
    (0x300F < 2 ^ 32 ∧ InOutputs (jobRegions Config.params (jobOf .lsbEmbed regsE1)) 0x300F ∧
      ¬ InInputs (jobRegions Config.params (jobOf .lsbEmbed regsE1)) 0x300F) ∧
    ∀ r ∈ jobRegions Config.params (jobOf .lsbEmbed regsE1), r.output = true → ¬ (r.base ≤ 0x3010 ∧ 0x3010 < r.base + r.len) := by
  unfold HostRuns InOutputs InInputs; decide +kernel

/-- V-E1's regions finished and not yet seen to be. -/
def ended : State :=
  { State.reset with unobserved := [regionsOf Config.params .lsbEmbed (jobOf .lsbEmbed regsE1).snap] }

/-- A write next to the regions, one to the last byte of one, and which bytes it spoils. -/
theorem witness_HostWriteRule :
    Clear InRegions (busy .lsbEmbed regsE1) 0x3010 ∧
    (busy .lsbEmbed regsE1).engine = .busy (jobOf .lsbEmbed regsE1) ∧
    InRegions (jobRegions Config.params (jobOf .lsbEmbed regsE1)) 0x2000 ∧
    Spoiled InRegions ended 0x2000 0x300F ∧ ¬ Spoiled InRegions ended 0x2000 0x3010 ∧ ¬ Spoiled InRegions ended 0x2001 0x300F := by
  refine ⟨⟨fun job h => ?_, fun rs h => by cases h⟩, rfl, ?_, ?_, ?_, ?_⟩
  · cases h; unfold InRegions; decide +kernel
  all_goals (try unfold Spoiled); (try unfold InOutputs); unfold InRegions; decide +kernel

/-- A read of an input, and of the last byte of the output, of a command in progress and of a finished one. -/
theorem witness_HostReadRule :
    Clear InOutputs (busy .lsbEmbed regsE1) 0x2000 ∧ ¬ Clear InOutputs (busy .lsbEmbed regsE1) 0x300F ∧
    ¬ Clear InOutputs ended 0x3000 ∧ Spoiled InOutputs ended 0x3000 0x300F ∧ ¬ Spoiled InOutputs ended 0x3000 0x3010 := by
  refine ⟨⟨fun job h => ?_, fun rs h => by cases h⟩, fun h => h.1 _ rfl ?_, fun h => h.2 _ (List.mem_singleton.2 rfl) ?_, ?_, ?_⟩
  · cases h; unfold InOutputs; decide +kernel
  all_goals (try unfold Spoiled); unfold InOutputs; decide +kernel

theorem witness_WindowRule :
    (∃ t, exec .lsbEmbed (busy .lsbEmbed regsE1) = .next t) ∧
    HostRuns (hosting (.rd 32 0x08 1) ended) (.rd 32 0x08 1) ∧ HostRuns (hosting (.wait 1) (busy .c2b zero)) (.wait 1) ∧
    HostRuns (hosting .waitIrq ended) .waitIrq := by
  unfold HostRuns; exact ⟨⟨_, rfl⟩, by decide, by decide, by decide⟩

theorem witness_HostAccessSteps : 0xFFFFFFFF < 2 ^ 32 ∧
    HostRuns (hosting (.store 0xFFFFFFFF 7)) (.store 0xFFFFFFFF 7) ∧ HostRuns (hosting (.load 0xFFFFFFFF 1)) (.load 0xFFFFFFFF 1) := by
  unfold HostRuns; decide

theorem witness_RacedCompletionLeavesFreeOutputBytes :
    ((busy .lsbEmbed regsE1).engine = .busy (jobOf .lsbEmbed regsE1) ∧ (busy .lsbEmbed regsE1).unobserved = []) ∧
    (let job : Job := { jobOf .lsbEmbed regsE1 with raced := true }
     let s : State := { busy .lsbEmbed regsE1 with engine := .busy job }
     s.engine = .busy job ∧ job.raced = true ∧ ∃ t, exec .lsbEmbed s = .next t) ∧
    (0x300F < 2 ^ 32 ∧ ∃ r ∈ regionsOf Config.params .lsbEmbed (jobOf .lsbEmbed regsE1).snap,
      r.output = true ∧ r.base ≤ 0x300F ∧ 0x300F < r.base + r.len) ∧
    ∀ r ∈ regionsOf Config.params .lsbEmbed (jobOf .lsbEmbed regsE1).snap, r.output = true →
      ¬ (r.base ≤ 0x3010 ∧ 0x3010 < r.base + r.len) :=
  ⟨by decide, ⟨rfl, rfl, _, rfl⟩, by decide +kernel, by decide +kernel⟩

/-- A BUSY machine that meets the invariant and steps. -/
theorem witness_EveryStepKeepsTheInvariant : Inv (busy .c2b zero) ∧ ∃ t, step (busy .c2b zero) = .next t :=
  ⟨⟨rfl, rfl, rfl, by decide, fun _ => ⟨rfl, rfl, rfl, rfl, rfl, rfl, rfl, rfl, rfl, rfl⟩, fun h => (by cases h), fun _ => rfl,
    fun _ h => by cases h; exact ⟨rfl, rfl⟩⟩, _, rfl⟩

theorem witness_EveryStepWritesOnlyExistingMemory :
    MemoryExists (hosting (.store 0xFFFFFFFF 7)) ∧ ∃ t, step (hosting (.store 0xFFFFFFFF 7)) = .next t :=
  ⟨fun a h => (by cases h), _, rfl⟩

end Sys2Proof.Tests
end

/-! Rounding to an integer is rounding to the nearest one (spec/00_scope.md R16). -/

namespace Sys2Proof.Machine

/-! ### The exact half -/

/-- Only an exact half is rounded over a distance of one half. -/
theorem two_mul_mod_eq_of_roundNat_dist (mode : TieMode) (n d : Nat) (hd : 0 < d)
    (h : 2 * ((n : Int) - roundNat mode n d * d).natAbs = d) : 2 * (n % d) = d := by
  have hdiv : (n : Int) = n / d * d + n % d := by rw [mul_comm, Int.mul_ediv_add_emod]
  have hlt := Nat.mod_lt n hd
  obtain ⟨-, -, hq | hq⟩ := roundNat_spec mode n d hd
  · rw [hq, Int.natCast_ediv] at h
    omega
  · rw [hq, Nat.cast_succ, Int.natCast_ediv, add_mul, one_mul] at h
    omega

/-- At an exact half `HALF_EVEN` answers the even neighbour. -/
theorem roundNat_halfEven_even_of_half (n d : Nat) (h : 2 * (n % d) = d) :
    roundNat .halfEven n d % 2 = 0 := by
  simp only [roundNat, h, lt_irrefl, if_false]
  split <;> omega

/-- At an exact half `HALF_AWAY` answers the upper neighbour. -/
theorem lt_roundNat_halfAway_mul_of_half (n d : Nat) (hd : 0 < d) (h : 2 * (n % d) = d) :
    n < roundNat .halfAway n d * d := by
  simp only [roundNat, h, lt_irrefl, if_false]
  exact mul_comm d _ ▸ Nat.lt_mul_div_succ n hd

/-! ### The sign -/

@[simp] theorem natAbs_roundInt (mode : TieMode) (v : Int) (d : Nat) :
    (roundInt mode v d).natAbs = roundNat mode v.natAbs d := by
  unfold roundInt
  split <;> simp

/-- Rounding moves a value as far as it moves its magnitude. -/
theorem natAbs_sub_roundInt_mul (mode : TieMode) (v : Int) (d : Nat) :
    (v - roundInt mode v d * d).natAbs = ((v.natAbs : Int) - roundNat mode v.natAbs d * d).natAbs := by
  unfold roundInt
  split
  case isTrue hneg => rw [neg_mul]; omega
  case isFalse hneg => rw [Int.natAbs_of_nonneg (not_lt.1 hneg)]

/-! ### Rounding a value -/

/-- The rounded value is at most one half away. -/
theorem two_mul_natAbs_sub_roundInt_le (mode : TieMode) (v : Int) (d : Nat) (hd : 0 < d) :
    2 * (v - roundInt mode v d * d).natAbs ≤ d := by
  obtain ⟨hlow, hhigh, -⟩ := roundNat_spec mode v.natAbs d hd
  rw [natAbs_sub_roundInt_mul, ← Nat.cast_mul]
  omega

/-- An exact half is rounded to the even integer, or away from zero, as `TIE_MODE` says. -/
theorem roundInt_of_half (mode : TieMode) (v : Int) (d : Nat) (hd : 0 < d)
    (h : 2 * (v - roundInt mode v d * d).natAbs = d) :
    (mode = .halfEven → roundInt mode v d % 2 = 0) ∧
      (mode = .halfAway → v.natAbs < (roundInt mode v d).natAbs * d) := by
  rw [natAbs_sub_roundInt_mul] at h
  have hhalf : 2 * (v.natAbs % d) = d := two_mul_mod_eq_of_roundNat_dist mode v.natAbs d hd h
  constructor
  · rintro rfl
    have heven := roundNat_halfEven_even_of_half v.natAbs d hhalf
    rw [← natAbs_roundInt] at heven
    omega
  · rintro rfl
    rw [natAbs_roundInt]
    exact lt_roundNat_halfAway_mul_of_half v.natAbs d hd hhalf

/-- Settles O36: `rnd` is `roundInt` in units of `2 ^ -1074`, and `roundInt` is to the nearest for every unit. -/
theorem roundingIsToTheNearest : Obligations.RoundingIsToTheNearest := by
  intro mode x _
  exact ⟨two_mul_natAbs_sub_roundInt_le mode (f64Int x) f64One f64One_pos,
    roundInt_of_half mode (f64Int x) f64One f64One_pos⟩

end Sys2Proof.Machine

/-! The register window, the interrupt output and reset, from any state (spec/10_state.md R32, R33, R35, R60). -/

namespace Sys2Proof.Machine

section
open Sys2Proof.Claim

/-! ### The CTRL and STATUS words under a write -/

/-- CTRL reads as IRQ_EN in bit 1 (10_state.md R42). -/
theorem ctrlWord_eq_ite (s : State) : ctrlWord s = if s.irqEn then 0x2 else 0 := by
  unfold ctrlWord
  cases s.irqEn <;> rfl

/-- A write to CTRL with SOFT_RESET is the reset of the machine (70_reset_and_hazards.md R351). -/
theorem writeReg_ctrl_of_softReset (p : Params) (s : State) {v : Word} (h : v.getLsbD 0 = true) :
    writeReg p s .ctrl v = resetMachine p s := if_pos h

/-- A write to CTRL without SOFT_RESET sets IRQ_EN alone (10_state.md R42). -/
theorem writeReg_ctrl_of_not_softReset (p : Params) (s : State) {v : Word} (h : v.getLsbD 0 = false) :
    writeReg p s .ctrl v = { s with irqEn := v.getLsbD 1 } :=
  if_neg (Bool.eq_false_iff.1 h)

/-- Off bits 1, 2 and 5 STATUS reads as if DONE, ERR and CMD_OVERRUN were clear (10_state.md R43). -/
theorem statusWord_and_compl_w1c (busy : Bool) (f : Status) :
    statusWord busy f &&& 0xFFFFFFD9 = statusWord busy { f with done := false, err := false, cmdOverrun := false } := by
  obtain ⟨d, e, v, o, c, k⟩ := f
  cases k <;> revert busy d e v o c <;> decide

/-! ### Transactions -/

/-- The ten read-only registers ignore a write (10_state.md R33). -/
theorem writeReg_readOnlyRegs (p : Params) (s : State) (v : Word) : ∀ r ∈ readOnlyRegs, writeReg p s r v = s := by
  simp [readOnlyRegs, writeReg]

/-- No register is at the reserved offset (10_state.md R40). -/
theorem regAt_reserved : regAt 0x7C = none := rfl

/-- A transaction of another size or at an unaligned offset is a bad one, inside the window or not (10_state.md R32). -/
theorem transactionRefusal_of_bad {n off : Nat} (h : n ≠ 32 ∨ off % 4 ≠ 0) :
    transactionRefusal n off = some .badTransaction := if_pos h

/-- The host's turn is the statement it is to run. -/
theorem step_of_hostRuns {s : State} {st : HostStmt} (h : HostRuns s st) :
    step s = hostExec Config.params st (takeTurn s) := step_host_stmt h.1 h.2

/-- Settles O49: no register is at the reserved offset; the fields of CTRL and STATUS that a write does not reach are masked. -/
theorem readOnlyAndReservedIgnoreWrites : Obligations.ReadOnlyAndReservedIgnoreWrites := by
  intro s v
  have hread : readAt Config.params s 0x7C = 0 := by rw [readAt, regAt_reserved]
  have hwrite : writeAt Config.params s 0x7C v = s := by rw [writeAt, regAt_reserved]
  have hctrl (hv : v.getLsbD 0 = false) :
      readReg Config.params (writeReg Config.params s .ctrl v) .ctrl = v &&& 0x2 := by
    rw [writeReg_ctrl_of_not_softReset _ _ hv]
    exact (ctrlWord_eq_ite _).trans (BitVec.and_twoPow v 1).symm
  have hstatus : readReg Config.params (writeReg Config.params s .status v) .status &&& 0xFFFFFFD9 =
      readReg Config.params s .status &&& 0xFFFFFFD9 := by
    rw [readReg, readReg, statusWord_and_compl_w1c, statusWord_and_compl_w1c]
    rfl
  obtain ⟨-, -, -, -, -, -, -, hreserved⟩ := statusWord_fields (isBusy s) s.status
  exact ⟨hread, hwrite, writeReg_readOnlyRegs _ s v, rfl, hctrl, (ctrlWord_fields s).2, hreserved, hstatus, rfl⟩

/-- Settles O50: both statements ask `transactionRefusal` first. -/
theorem badTransactionsAreRefused : Obligations.BadTransactionsAreRefused := by
  intro s n off x v hbad hruns
  obtain hruns | hruns := hruns <;> rw [step_of_hostRuns hruns, hostExec, transactionRefusal_of_bad hbad]

/-! ### The interrupt output -/

/-- Settles O52: the three bits of CTRL and STATUS are the fields `irq` is made of. -/
theorem irqFollowsCtrlAndStatus : Obligations.IrqFollowsCtrlAndStatus := by
  intro s
  obtain ⟨-, hdone, herr, -⟩ := statusWord_fields (isBusy s) s.status
  rw [readReg, readReg, (ctrlWord_fields s).1, hdone, herr, irq]

/-! ### Reset -/

@[simp] theorem resetMachine_engine (p : Params) (s : State) : (resetMachine p s).engine = .idle := rfl

@[simp] theorem irq_resetMachine (p : Params) (s : State) : irq (resetMachine p s) = false := rfl

@[simp] theorem irq_advance (s : State) : irq (advance s) = irq s := rfl

@[simp] theorem readReg_advance (p : Params) (s : State) (r : Reg) : readReg p (advance s) r = readReg p s r :=
  readReg_update_host p s _ s.unobserved s.turns r

/-- A reset leaves no trace of the state in any register (10_state.md R60). -/
@[simp] theorem readReg_resetMachine (p : Params) (s : State) (r : Reg) :
    readReg p (resetMachine p s) r = readReg p State.reset r := by cases r <;> rfl

/-- The reset column of the register map (10_state.md R40). -/
theorem readReg_reset (r : Reg) : readReg Config.params State.reset r = if r = .id then 0x53544743 else 0 := by
  cases r <;> rfl

/-- A reset of an IDLE machine aborts nothing (70_reset_and_hazards.md R352). -/
theorem resetMachine_mem_of_idle (p : Params) {s : State} (h : s.engine = .idle) : (resetMachine p s).mem = s.mem := by
  simp [resetMachine_eq, abort, h]

/-- The reset input is the reset of the machine, as one host statement (10_state.md R36). -/
theorem step_resetPin {s : State} (h : HostRuns s .resetPin) :
    step s = .next (advance (resetMachine Config.params (takeTurn s))) := step_of_hostRuns h

/-- Settles O55: the reset input and SOFT_RESET both are `resetMachine`, of which every register, the engine, IRQ and memory
are known. -/
theorem resetValues : Obligations.ResetValues := by
  intro s v hv
  rw [writeReg_ctrl_of_softReset _ _ hv]
  have hpin (hruns : HostRuns s .resetPin) : ∃ u, step s = .next u ∧
      (∀ r, readReg Config.params u r = readReg Config.params State.reset r) ∧ u.engine = .idle ∧ irq u = false ∧
      (s.engine = .idle → u.mem = s.mem) :=
    ⟨_, step_resetPin hruns, by simp, by simp, by simp, resetMachine_mem_of_idle (s := takeTurn s) _⟩
  exact ⟨hpin, fun r => (readReg_resetMachine _ s r).trans (readReg_reset r), readReg_reset, resetMachine_engine _ s,
    irq_resetMachine _ s, rfl, rfl, resetMachine_mem_of_idle _, fun v' => writeReg_ctrl_of_not_softReset _ s⟩

end

end Sys2Proof.Machine

/-! Packed bit sequences, written and read back (spec/20_memory.md R85). -/

namespace Sys2Proof.Machine

/-- Only the bits of the sequence are read: bytes that hold them, with any pad bits, unpack to it. -/
theorem unpackBits_of_getLsbD {s : Bits} {bytes : List Byte} (hlen : bytes.length = packedBytes s.length)
    (hbit : ∀ j (_ : j < s.length) (h : j / 8 < bytes.length), (bytes[j / 8]).getLsbD (7 - j % 8) = s[j]) :
    unpackBits s.length bytes = s := by
  refine List.ext_getElem (unpackBits_length _ _) fun j _ hj => ?_
  have hbyte : j / 8 < bytes.length := by rw [hlen, packedBytes]; omega
  rw [unpackBits_getElem, List.getElem?_eq_getElem hbyte, Option.getD_some, hbit j hj hbyte]

/-- Settles O25: what `packBits` writes is one equation for the bits and the pad bits; a reader asks for the bits alone. -/
theorem packedBitsReadBack : Obligations.PackedBitsReadBack := by
  intro s
  have hwritten (j : Nat) (hj : j < s.length) (h : j / 8 < (packBits s).length) :
      ((packBits s)[j / 8]).getLsbD (7 - j % 8) = s[j] := by
    rw [packBits_getLsbD, List.getElem?_eq_getElem hj, Option.getD_some]
  have hpad (j : Nat) (hj : s.length ≤ j) (h : j / 8 < (packBits s).length) :
      ((packBits s)[j / 8]).getLsbD (7 - j % 8) = false := by
    rw [packBits_getLsbD, List.getElem?_eq_none hj, Option.getD_none]
  exact ⟨packBits_length s, hwritten, hpad, fun _ => unpackBits_of_getLsbD⟩

end Sys2Proof.Machine

/-! Which words are commands, and what the engine does with every other word (spec/30_encoding.md R110 to R114). -/

namespace Sys2Proof.Machine

section
open Sys2Proof.Claim

/-! ### Words and commands -/

theorem mem_instrAll (i : Instr) : i ∈ Instr.all := by cases i <;> decide

theorem decode_encode (i : Instr) : decode (encode i) = .instr i := by cases i <;> rfl

/-- Every row of the opcode map compares the whole word with its command's encoding (30_encoding.md R113). -/
theorem opcodeTable_rows : ∀ r ∈ opcodeTable, r.mask = BitVec.allOnes 32 ∧ r.pattern = encode r.instr := by decide

theorem encode_eq_of_decode {w : Word} {i : Instr} (h : decode w = .instr i) : encode i = w := by
  rw [decode] at h
  split at h
  case h_1 r hfind =>
    cases h
    obtain ⟨hmask, hpattern⟩ := opcodeTable_rows r (List.mem_of_find?_eq_some hfind)
    have hmatch : w &&& r.mask = r.pattern := by simpa using List.find?_some hfind
    rw [← hpattern, ← hmatch, hmask, BitVec.and_allOnes]
  case h_2 => cases h

/-- A word decodes to a command exactly if it is the command's encoding. -/
theorem decode_eq_instr_iff {w : Word} {i : Instr} : decode w = .instr i ↔ encode i = w :=
  ⟨encode_eq_of_decode, fun h => h ▸ decode_encode i⟩

/-- Settles O1: the listed rows are all the commands, each with its encoding. -/
theorem opcodeMapIsExact : Obligations.OpcodeMapIsExact := by
  intro w i
  change _ ↔ (w, i) ∈ Instr.all.map fun j => (encode j, j)
  simp [decode_eq_instr_iff, mem_instrAll]

/-- A word is rejected exactly if it encodes no command. -/
theorem exists_decode_eq_reject_iff {w : Word} : (∃ r, decode w = .reject r) ↔ ∀ i, encode i ≠ w := by
  simp only [ne_eq, ← decode_eq_instr_iff]
  cases decode w <;> simp

/-! ### Fields -/

theorem fieldsOf_encode (i : Instr) : fieldsOf (encode i) = ⟨i.op, i.alg, 0⟩ := by cases i <;> rfl

theorem wordOfFields_fieldsOf (w : Word) : wordOfFields (fieldsOf w) = w := by
  have hhigh : w.extractLsb' 6 26 ++ w.extractLsb' 4 2 = w.extractLsb' 4 28 :=
    BitVec.extractLsb'_append_extractLsb'_eq_extractLsb' rfl
  have hall : w.extractLsb' 4 28 ++ w.extractLsb' 0 4 = w.extractLsb' 0 32 :=
    BitVec.extractLsb'_append_extractLsb'_eq_extractLsb' rfl
  rw [wordOfFields, fieldsOf, hhigh, hall, BitVec.extractLsb'_eq_self]

theorem encode_eq_iff_fieldsOf {w : Word} {i : Instr} : encode i = w ↔ fieldsOf w = ⟨i.op, i.alg, 0⟩ := by
  constructor
  · rintro rfl
    exact fieldsOf_encode i
  · intro h
    rw [encode, ← h, wordOfFields_fieldsOf]

/-- The fields of no command are those R114 lists; with RSV clear OP and ALG leave 64 cases. -/
theorem fields_of_no_command_iff (f : CmdFields) : (∀ i : Instr, f ≠ ⟨i.op, i.alg, 0⟩) ↔
    f.rsv ≠ 0 ∨ f.op = 0 ∨ 0xB ≤ f.op.toNat ∨ 2 ≤ f.alg.toNat ∨ (f.op = 4 ∧ f.alg = 0) ∨
      (5 ≤ f.op.toNat ∧ f.op.toNat ≤ 0xA ∧ f.alg = 1) := by
  obtain ⟨op, alg, rsv⟩ := f
  by_cases hrsv : rsv = 0
  · have hlegal : ∀ (op : BitVec 4) (alg : BitVec 2), (∀ i ∈ Instr.all, ¬ (op = i.op ∧ alg = i.alg)) ↔
        op = 0 ∨ 0xB ≤ op.toNat ∨ 2 ≤ alg.toNat ∨ (op = 4 ∧ alg = 0) ∨
          (5 ≤ op.toNat ∧ op.toNat ≤ 0xA ∧ alg = 1) := by decide
    simpa [hrsv, mem_instrAll] using hlegal op alg
  · exact iff_of_true (fun i h => hrsv (congrArg CmdFields.rsv h)) (.inl hrsv)

/-! ### Issue and completion -/

/-- A CMD write while the engine is IDLE issues the word, legal or not (60_exceptions.md R300). -/
theorem writeReg_cmd_of_not_busy (p : Params) {s : State} (w : Word) (h : isBusy s = false) :
    writeReg p s .cmd w = issue s w := by simp [writeReg, h]

/-- A completion with an error that the host has not raced writes the error and nothing else (60_exceptions.md R303, R313). -/
theorem complete_error_fails (p : Params) (rs : List Region) (x : CmdError) (s : State) :
    Fails s (complete p rs false (.error x) s) x.code x.info0 x.info1 where
  kept := ⟨rfl, rfl, rfl, rfl, rfl⟩
  config := ⟨rfl, rfl⟩
  idle := rfl
  err := rfl
  errCode := rfl
  errInfo0 := rfl
  errInfo1 := rfl
  done := rfl
  outbufFull := rfl
  result0 := rfl
  result1 := rfl
  outDim0 := rfl
  outDim1 := rfl
  memory := fun _ => rfl

/-- The engine's turn completes the command in progress. -/
theorem step_engine_busy {s : State} {job : Job} (hturn : nextAgent s = .engine) (hbusy : s.engine = .busy job) :
    step s = .next (completed Config.params job (takeTurn s)) := by
  rw [step_engine hturn, engineStep_busy (s := takeTurn s) hbusy]

/-- A rejected word completes with ILLEGAL_COMMAND and has no region (30_encoding.md R114). -/
theorem completed_of_reject (p : Params) {job : Job} {r : Reject} (h : decode job.word = .reject r) (s : State) :
    completed p job s = complete p [] job.raced (.error ⟨.illegalCommand, job.word, 0⟩) s := by
  simp [completed, jobRegions, jobResult, h]

/-- Settles O4: the fields of a word that encodes no command are R114's list; its completion is one with an error. -/
theorem illegalWordsEndWithIllegalCommand : Obligations.IllegalWordsEndWithIllegalCommand := by
  refine ⟨fun w => ?_, fun s w hidle => ?_, fun s job r hbusy hreject hraced hturn => ?_⟩
  · rw [exists_decode_eq_reject_iff]
    simp only [ne_eq, encode_eq_iff_fieldsOf]
    exact fields_of_no_command_iff (fieldsOf w)
  · rw [writeReg_cmd_of_not_busy _ w hidle, issue_engine, takeSnapshot]
  · refine ⟨_, step_engine_busy hturn hbusy, complete_turns .., ?_⟩
    rw [completed_of_reject _ hreject, hraced]
    exact complete_error_fails Config.params [] ⟨.illegalCommand, job.word, 0⟩ s

end

end Sys2Proof.Machine

/-! How a command completes, from what it computes alone: with an error, with its results, with a decoded message stored; and
which error its regions give (spec/60_exceptions.md R302, R303; 20_memory.md R88, R89). -/

namespace Sys2Proof.Machine

section
open Sys2Proof.Claim

/-! ### Completion with an error -/

/-- A command without regions leaves no byte free if the host raced it, so its error is precise all the same. -/
theorem complete_error_fails_of_no_region (p : Params) (raced : Bool) (x : CmdError) (s : State) :
    Fails s (complete p [] raced (.error x) s) x.code x.info0 x.info1 := by
  cases raced
  case false => exact complete_error_fails p [] x s
  case true =>
    exact ⟨⟨rfl, rfl, rfl, rfl, rfl⟩, ⟨rfl, rfl⟩, rfl, rfl, rfl, rfl, rfl, rfl, rfl, rfl, rfl, rfl, rfl, fun _ => rfl⟩

/-- A command that computes an error ends with it, if no race can reach its regions. -/
theorem endsWith_of_command_error {i : Instr} {s : State} {job : Job} {x : CmdError} (hbusy : s.engine = .busy job)
    (hclear : job.raced = false ∨ regionsOf Config.params i job.snap = [])
    (hcmd : command Config.params i job.snap s.mem = .error x) : EndsWith i s x.code x.info0 x.info1 := by
  refine ⟨_, exec_busy i hbusy, ?_⟩
  rw [hcmd]
  obtain hraced | hregions := hclear
  · rw [hraced]
    exact complete_error_fails _ _ x s
  · rw [hregions]
    exact complete_error_fails_of_no_region _ _ x s

/-! ### Completion without error -/

/-- A completion without error has its effect's results, raced or not (60_exceptions.md R302). -/
theorem complete_ok_succeeds (p : Params) (rs : List Region) (raced : Bool) (e : Effect) (s : State) :
    Succeeds s (complete p rs raced (.ok e) s) e.result0 e.result1 := by
  cases raced <;> exact ⟨⟨rfl, rfl, rfl, rfl, rfl⟩, rfl, rfl, rfl, rfl, rfl, rfl, rfl, rfl⟩

/-- An effect that sets no configuration keeps the one there is (10_state.md R47). -/
theorem complete_ok_keepsConfig (p : Params) (rs : List Region) (raced : Bool) {e : Effect} (s : State)
    (h : e.config = none) : KeepsConfig s (complete p rs raced (.ok e) s) := by
  obtain ⟨hstatus, hact, -⟩ := complete_ok p rs raced s e
  constructor
  · rw [hact, h, Option.getD_none]
  · rw [hstatus, h, statusDone, Option.isSome_none, Bool.or_false]

/-- An effect that names only results writes no byte and no other register, if its command has no region. -/
theorem complete_results_registerOnly (p : Params) (raced : Bool) (r0 r1 : Word) (s : State) :
    RegisterOnly s (complete p [] raced (.ok { result0 := r0, result1 := r1 }) s) where
  config := complete_ok_keepsConfig p [] raced s rfl
  outbufFull := by cases raced <;> rfl
  outDim0 := by cases raced <;> rfl
  outDim1 := by cases raced <;> rfl
  memory := by cases raced <;> exact fun _ => rfl

/-- A command without regions that computes two results completes with them and changes nothing else. -/
theorem exec_results_of_no_region {i : Instr} {s : State} {job : Job} {r0 r1 : Word} (hbusy : s.engine = .busy job)
    (hregions : regionsOf Config.params i job.snap = [])
    (hcmd : command Config.params i job.snap s.mem = .ok { result0 := r0, result1 := r1 }) :
    ∃ t, exec i s = .next t ∧ Succeeds s t r0 r1 ∧ RegisterOnly s t := by
  refine ⟨_, exec_busy i hbusy, ?_⟩
  rw [hcmd, hregions]
  exact ⟨complete_ok_succeeds _ _ _ _ s, complete_results_registerOnly _ _ r0 r1 s⟩

/-- `storeMessage` puts the characters that fit into the buffer and nothing past them (40_codec.md R156). -/
theorem complete_storeMessage_stores (p : Params) (rs : List Region) (s : State) (a c : Nat) (m : List Byte) :
    Stores s (complete p rs false (.ok (storeMessage a c m)) s) a c m where
  ends := complete_ok_succeeds p rs false _ s
  config := complete_ok_keepsConfig p rs false s rfl
  outbufFull := rfl
  outDim0 := rfl
  outDim1 := rfl
  written k hk hc := by
    have hfits : k < (m.take c).length := by rw [List.length_take]; omega
    exact (memRead_memWriteBytes s.mem a (m.take c) k hfits).trans List.getElem_take
  outside b hb := by
    refine memRead_memWriteBytes_of_outside s.mem a (m.take c) ?_
    rw [List.length_take]
    omega

/-! ### Region errors -/

/-- A region is admitted by the default build exactly if it fits (20_memory.md R88). -/
theorem admitted_iff_fits (r : Region) : admitted Config.params r = true ↔ Fits r.base r.len := admitted_iff r

/-- Two regions overlap exactly if they are not apart (20_memory.md R89). -/
theorem regionsOverlap_iff_not_apart (r q : Region) :
    regionsOverlap r q = true ↔ ¬ Apart r.base r.len q.base q.len := by
  rw [regionsOverlap_iff, Apart]
  omega

theorem addressError_cons_of_fits {r : Region} {rs : List Region} (h : Fits r.base r.len) :
    addressError Config.params (r :: rs) = addressError Config.params rs := by
  rw [addressError_cons, if_pos ((admitted_iff_fits r).2 h)]

theorem addressError_cons_of_not_fits {r : Region} {rs : List Region} (h : ¬ Fits r.base r.len) :
    addressError Config.params (r :: rs) = some ⟨.addressFault, regionCode r.id, wordOf r.base⟩ := by
  rw [addressError_cons, if_neg (mt (admitted_iff_fits r).1 h)]

/-- An address fault comes before any overlap (60_exceptions.md R310). -/
theorem regionError_of_addressError {p : Params} {rs : List Region} {x : CmdError} (h : addressError p rs = some x) :
    regionError p rs = some x := by rw [regionError, h, Option.some_or]

/-- Once both of two regions fit, only their overlap is left to check. -/
theorem regionError_pair_of_fits {r q : Region} (hr : Fits r.base r.len) (hq : Fits q.base q.len) :
    regionError Config.params [r, q] = overlapError [r, q] := by
  rw [regionError, addressError_cons_of_fits hr, addressError_cons_of_fits hq, addressError_nil, Option.none_or]

/-- The region errors of a command with two regions, in order: the lower id, the higher id, their overlap. -/
theorem endsWith_pair_region_error {i : Instr} {s : State} {job : Job} {r q : Region} (hbusy : s.engine = .busy job)
    (hraced : job.raced = false)
    (hcmd : ∀ x, regionError Config.params [r, q] = some x → command Config.params i job.snap s.mem = .error x) :
    (¬ Fits r.base r.len → EndsWith i s .addressFault (regionCode r.id) (wordOf r.base)) ∧
    (Fits r.base r.len → ¬ Fits q.base q.len → EndsWith i s .addressFault (regionCode q.id) (wordOf q.base)) ∧
    (Fits r.base r.len → Fits q.base q.len → ∀ x, overlapError [r, q] = some x →
      EndsWith i s x.code x.info0 x.info1) := by
  have hends (x : CmdError) (h : regionError Config.params [r, q] = some x) : EndsWith i s x.code x.info0 x.info1 :=
    endsWith_of_command_error hbusy (.inl hraced) (hcmd x h)
  refine ⟨fun hr => ?_, fun hr hq => ?_, fun hr hq x hx => ?_⟩
  · exact hends _ (regionError_of_addressError (addressError_cons_of_not_fits hr))
  · refine hends ⟨.addressFault, regionCode q.id, wordOf q.base⟩ (regionError_of_addressError ?_)
    rw [addressError_cons_of_fits hr, addressError_cons_of_not_fits hq]
  · exact hends x (by rw [regionError_pair_of_fits hr hq, hx])

end

end Sys2Proof.Machine

/-! The Bit/Character Codec: its functions, its framing laws and its four commands (spec/40_codec.md). -/

namespace Sys2Proof.Machine

section
open Sys2Proof.Claim

/-! ### Decoding a message -/

/-- Nothing is decoded exactly where decoding stops at once (R144). -/
theorem bitsToMessage_eq_nil_iff (b : Bits) :
    bitsToMessage b = [] ↔ b.length < 7 ∨ bitsToChar (b.take 7) = 0 := by
  rw [bitsToMessage_eq]
  split
  case isTrue h => simpa [h.1] using h.2
  case isFalse h => simpa [imp_iff_not_or] using h

/-- A character is decoded exactly where a whole group that is no terminator stands (R144). -/
theorem bitsToMessage_eq_cons_iff (b : Bits) (c : Byte) (m : List Byte) :
    bitsToMessage b = c :: m ↔
      7 ≤ b.length ∧ (c = bitsToChar (b.take 7) ∧ c ≠ 0) ∧ bitsToMessage (b.drop 7) = m := by
  rw [bitsToMessage_eq]
  split
  case isTrue h =>
    obtain ⟨hlen, hne⟩ := h
    rw [List.cons.injEq]
    constructor
    · rintro ⟨rfl, rfl⟩
      exact ⟨hlen, ⟨rfl, hne⟩, rfl⟩
    · rintro ⟨-, ⟨rfl, -⟩, rfl⟩
      exact ⟨rfl, rfl⟩
  case isFalse h =>
    refine iff_of_false (List.cons_ne_nil c m).symm ?_
    rintro ⟨hlen, ⟨rfl, hne⟩, -⟩
    exact h ⟨hlen, hne⟩

/-- Settles O23, by induction on the message: one stride of `bitsToMessage` a character. -/
theorem bitsToMessageStopsAtTheTerminator : Obligations.BitsToMessageStopsAtTheTerminator := by
  intro b m
  induction m generalizing b with
  | nil => simp [bitsToMessage_eq_nil_iff]
  | cons c m ih =>
    have hstride (k : Nat) : (b.drop 7).drop (7 * k) = b.drop (7 * (k + 1)) := by
      rw [List.drop_drop, Nat.mul_succ, Nat.add_comm]
    rw [bitsToMessage_eq_cons_iff, ih]
    simp only [hstride, List.length_drop, List.length_cons, Nat.forall_lt_succ_left', List.getElem_cons_zero,
      List.getElem_cons_succ]
    constructor
    · rintro ⟨h7, ⟨hc, hne⟩, hlen, hm, hend⟩
      exact ⟨by omega, ⟨⟨hc, hne, hc ▸ bitsToChar_le _⟩, hm⟩, hend.imp_left (by omega)⟩
    · rintro ⟨hlen, ⟨⟨hc, hne, -⟩, hm⟩, hend⟩
      exact ⟨by omega, ⟨hc, hne⟩, by omega, hm, hend.imp_left (by omega)⟩

/-- Settles O24: the characters before the first 0 are decoded one by one, and what follows them stops the decoding. -/
theorem framingLaws : Obligations.FramingLaws := by
  have hdecode {m : List Byte} {b : Bits} (hc : ∀ c ∈ m, c.toNat ≤ 127) (hz : ∀ c ∈ m, c ≠ 0)
      (hstop : b.length < 7 ∨ b.take 7 = List.replicate 7 false) : bitsToMessage (messageToBits m ++ b) = m := by
    have hnil : bitsToMessage b = [] := bitsToMessage_stop (hstop.imp_right fun h => by rw [h]; rfl)
    rw [bitsToMessage_messageToBits_append b hc hz, hnil, List.append_nil]
  refine ⟨fun m t hc hz => ⟨?_, hdecode hc hz⟩, fun m₁ m₂ hc hz => ?_⟩
  · have hend := hdecode (b := []) hc hz (.inl (by decide))
    rwa [List.append_nil] at hend
  · rw [messageToBits_append, messageToBits_cons]
    exact hdecode (fun c h => hc c (List.mem_append_left _ h)) hz (.inr (List.take_left' (charToBits_length 0)))

/-! ### C2B and B2C -/

/-- The group of a character, left-aligned in a register, is its code point above 25 zero bits (R150). -/
theorem leftAlignedWord_charToBits : ∀ c : Byte, c.toNat ≤ 127 →
    leftAlignedWord (charToBits c) = wordOf (c.toNat * 2 ^ 25) := by decide +kernel

/-- Settles O19: C2B has no region and one check. -/
theorem c2bConvertsCharacter : Obligations.C2bConvertsCharacter := by
  refine ⟨rfl, fun s job hbusy => ⟨fun hc => ?_, fun hc => ?_⟩⟩
  · have hbyte : (BitVec.ofNat 8 job.snap.regs.arg0.toNat).toNat = job.snap.regs.arg0.toNat := by
      rw [BitVec.toNat_ofNat]
      omega
    rw [← hbyte, ← leftAlignedWord_charToBits _ (hbyte.trans_le hc)]
    refine exec_results_of_no_region hbusy rfl ?_
    simp only [command, c2b, if_neg (not_lt.2 hc), unlessError_none]
  · refine endsWith_of_command_error hbusy (.inr rfl) (x := ⟨.invalidCharacter, 0, job.snap.regs.arg0⟩) ?_
    simp only [command, c2b, if_pos hc, unlessError_some]

theorem leftAlignedBits_take (k n : Nat) (w : Word) : (leftAlignedBits k w).take n = leftAlignedBits (min k n) w := by
  rw [leftAlignedBits, ← List.map_take, List.take_range, min_comm, leftAlignedBits]

/-- The first `k` bits of a register as a number: the register shifted down past the others (R152). -/
theorem foldl_leftAlignedBits (w : Word) {k : Nat} (hk : k ≤ 32) :
    (leftAlignedBits k w).foldl (fun v b => 2 * v + b.toNat) 0 = w.toNat / 2 ^ (32 - k) := by
  induction k with
  | zero => exact (Nat.div_eq_of_lt w.isLt).symm
  | succ k ih =>
    have hbit : (w.getLsbD (31 - k)).toNat = w.toNat / 2 ^ (31 - k) % 2 := Nat.toNat_testBit ..
    have hhalf : w.toNat / 2 ^ (32 - k) = w.toNat / 2 ^ (31 - k) / 2 := by
      rw [Nat.div_div_eq_div_mul, ← Nat.pow_succ, Nat.succ_eq_add_one, show 31 - k + 1 = 32 - k by omega]
    rw [leftAlignedBits, List.range_succ, List.map_append, List.foldl_append, ← leftAlignedBits, ih (by omega), hhalf]
    simp only [List.map_cons, List.map_nil, List.foldl_cons, List.foldl_nil, hbit, Nat.reduceSubDiff]
    omega

/-- B2C's character is the number its first bits make, at most 7 of them (R143, R152). -/
theorem bitsToChar_leftAlignedBits (w : Word) {k : Nat} (hk : k ≤ 32) :
    (bitsToChar (leftAlignedBits k w)).toNat = w.toNat / 2 ^ (32 - min k 7) := by
  have hsmall : w.toNat / 2 ^ (32 - min k 7) < 2 ^ 8 := by
    rw [Nat.div_lt_iff_lt_mul (by positivity), ← Nat.pow_add]
    exact w.isLt.trans_le (Nat.pow_le_pow_right (by decide) (by omega))
  rw [bitsToChar, leftAlignedBits_take, foldl_leftAlignedBits w (by omega), BitVec.toNat_ofNat, Nat.mod_eq_of_lt hsmall]

/-- Settles O20: B2C has no region and one check. -/
theorem b2cConvertsBits : Obligations.B2cConvertsBits := by
  refine ⟨rfl, fun s job hbusy => ⟨fun hk => ?_, fun hk => ?_⟩⟩
  · rw [← bitsToChar_leftAlignedBits _ hk]
    refine exec_results_of_no_region hbusy rfl ?_
    simp only [command, b2c, if_neg (not_lt.2 hk), unlessError_none]
  · refine endsWith_of_command_error hbusy (.inr rfl) (x := ⟨.invalidOperand, 0, job.snap.regs.arg0⟩) ?_
    simp only [command, b2c, if_pos hk, unlessError_some]

/-! ### Messages and packed bits in memory -/

theorem getElem_memReadBytes (m : Memory) (a n k : Nat) (h : k < (memReadBytes m a n).length) :
    (memReadBytes m a n)[k] = memRead m (a + k) := by
  simp [memReadBytes]

/-- The bits of the message in memory (R140, R142). -/
theorem messageToBits_memReadBytes {s : State} {a n j : Nat} (hj : j < 7 * n) :
    (messageToBits (memReadBytes s.mem a n))[j]? = some (messageBit s a j) := by
  have hk : j / 7 < (memReadBytes s.mem a n).length := by rw [memReadBytes_length]; omega
  rw [messageToBits_getElem?, List.getElem?_eq_getElem hk, getElem_memReadBytes, Option.map_some, messageBit]

/-- Every bit of a written packed sequence, the pad bits included (20_memory.md R85). -/
theorem packedBit_of_mem_eq {s t : State} {a j : Nat} {b : Bits} (hmem : t.mem = memWriteBytes s.mem a (packBits b))
    (hj : j < 8 * packedBytes b.length) : packedBit t a j = (b[j]?).getD false := by
  have hbyte : j / 8 < (packBits b).length := by rw [packBits_length]; omega
  rw [packedBit, hmem, memRead_memWriteBytes _ _ _ _ hbyte, packBits_getLsbD]

/-- Reading a packed sequence from memory asks for its own bits only (20_memory.md R85). -/
theorem unpackBits_memReadBytes (s : State) (a n : Nat) :
    unpackBits n (memReadBytes s.mem a (packedBytes n)) = (List.range n).map (packedBit s a) := by
  refine List.map_congr_left fun j hj => ?_
  have hbyte : j / 8 < (memReadBytes s.mem a (packedBytes n)).length := by
    rw [memReadBytes_length, packedBytes]
    have := List.mem_range.1 hj
    omega
  rw [List.getElem?_eq_getElem hbyte, getElem_memReadBytes, Option.getD_some, packedBit]

theorem characterError_memReadBytes_eq_none {s : State} {a n : Nat} (h : Characters s a n) :
    characterError (memReadBytes s.mem a n) = none := by
  rw [characterError_eq_none, memReadBytes, List.forall_mem_map]
  exact fun k hk => h k (List.mem_range.1 hk)

theorem characterError_memReadBytes_of_firstBad {s : State} {a n k : Nat} (h : FirstBad s a n k) :
    characterError (memReadBytes s.mem a n) = some ⟨.invalidCharacter, wordOf k, wordOf (memRead s.mem (a + k)).toNat⟩ := by
  obtain ⟨hk, hbad, hfirst⟩ := h
  have hlen : k < (memReadBytes s.mem a n).length := by rwa [memReadBytes_length]
  rw [← getElem_memReadBytes s.mem a n k hlen] at hbad ⊢
  exact characterError_of_first hlen hbad fun j hj => by rw [getElem_memReadBytes]; exact hfirst j hj

/-! ### M2B -/

/-- The region M2B writes (R154). -/
def m2bOutput (o : Snapshot) : Region := ⟨.bits, o.regs.bitsAddr.toNat, packedBytes (7 * o.regs.msgLen.toNat), true⟩

/-- What M2B does when no check fails (R154). -/
def m2bEffect (o : Snapshot) (m : Memory) : Effect where
  base := o.regs.bitsAddr.toNat
  bytes := packBits (messageToBits (messageOf o m))
  result0 := wordOf (7 * o.regs.msgLen.toNat)
  result1 := wordOf (7 * o.regs.msgLen.toNat / 2 ^ 32)

theorem command_m2b (o : Snapshot) (m : Memory) : command Config.params .m2b o m =
    unlessError ((regionError Config.params [messageRegion o false, m2bOutput o]).or (characterError (messageOf o m)))
      (m2bEffect o m) := rfl

/-- The output of M2B, region 4, is checked against its input, region 3 (20_memory.md R89). -/
theorem overlapError_m2b (o : Snapshot) : overlapError [messageRegion o false, m2bOutput o] =
    if regionsOverlap (m2bOutput o) (messageRegion o false) then some ⟨.bufferOverlap, 4, 3⟩ else none :=
  overlapError_input_output _ _ rfl rfl RegionId.noConfusion

/-- What M2B leaves in memory: the message's bits, pad bits 0, and every byte outside its output as it was (R154). -/
theorem m2bEffect_written {s t : State} {o : Snapshot}
    (hmem : t.mem = memWriteBytes s.mem (m2bEffect o s.mem).base (m2bEffect o s.mem).bytes) :
    (∀ j < 7 * o.regs.msgLen.toNat, packedBit t o.regs.bitsAddr.toNat j = messageBit s o.regs.msgAddr.toNat j) ∧
    (∀ j, 7 * o.regs.msgLen.toNat ≤ j → j < 8 * packedBytes (7 * o.regs.msgLen.toNat) →
      packedBit t o.regs.bitsAddr.toNat j = false) ∧
    SameOutside s t o.regs.bitsAddr.toNat (packedBytes (7 * o.regs.msgLen.toNat)) := by
  have hbits : (messageToBits (messageOf o s.mem)).length = 7 * o.regs.msgLen.toNat := by
    rw [messageToBits_length, messageOf_length]
  have hbit (j : Nat) (hj : j < 8 * packedBytes (7 * o.regs.msgLen.toNat)) :
      packedBit t o.regs.bitsAddr.toNat j = ((messageToBits (messageOf o s.mem))[j]?).getD false :=
    packedBit_of_mem_eq hmem (by rwa [hbits])
  refine ⟨fun j hj => ?_, fun j hj hpad => ?_, fun c hc => ?_⟩
  · rw [hbit j (by rw [packedBytes]; omega), messageOf, messageToBits_memReadBytes hj, Option.getD_some]
  · rw [hbit j hpad, List.getElem?_eq_none (by rwa [hbits]), Option.getD_none]
  · rw [hmem]
    refine memRead_memWriteBytes_of_outside _ _ _ ?_
    rwa [m2bEffect, packBits_length, hbits]

/-- Settles O21: the regions of M2B in order, then the characters, then the bits of the packed output. -/
theorem m2bPacksTheMessage : Obligations.M2bPacksTheMessage := by
  refine ⟨rfl, fun s job hbusy hraced => ?_⟩
  extract_lets a n p len
  have hcmd := command_m2b job.snap s.mem
  obtain ⟨hmsg, hbits, hoverlap⟩ := endsWith_pair_region_error hbusy hraced (i := .m2b) fun x hx => by
    rw [hcmd, hx, Option.some_or, unlessError_some]
  rw [overlapError_m2b] at hoverlap
  have hregions (ha : Fits a.toNat n) (hp : Fits p.toNat len) (hapart : Apart p.toNat len a.toNat n) :
      regionError Config.params [messageRegion job.snap false, m2bOutput job.snap] = none := by
    rw [regionError_pair_of_fits ha hp, overlapError_m2b]
    exact if_neg ((regionsOverlap_iff_not_apart ..).not_left.2 hapart)
  refine ⟨fun ha hp hapart hchars => ?_, fun ha => ?_, fun ha hp => ?_, fun ha hp hapart => ?_,
    fun k ha hp hapart hbad => ?_⟩
  · rw [hregions ha hp hapart, Option.none_or, messageOf, characterError_memReadBytes_eq_none hchars, unlessError_none]
      at hcmd
    refine ⟨_, exec_busy .m2b hbusy, ?_⟩
    rw [hcmd, hraced]
    exact ⟨complete_ok_succeeds .., complete_ok_keepsConfig _ _ _ _ rfl, rfl, rfl, rfl, m2bEffect_written rfl⟩
  · exact wordOf_toNat a ▸ hmsg ha
  · exact wordOf_toNat p ▸ hbits ha hp
  · exact hoverlap ha hp _ (if_pos ((regionsOverlap_iff_not_apart ..).2 hapart))
  · refine endsWith_of_command_error hbusy (.inl hraced)
      (x := ⟨.invalidCharacter, wordOf k, wordOf (memRead s.mem (a.toNat + k)).toNat⟩) ?_
    rw [hcmd, hregions ha hp hapart, Option.none_or, messageOf, characterError_memReadBytes_of_firstBad hbad,
      unlessError_some]

/-! ### B2M -/

/-- The region B2M reads (R156). -/
def b2mInput (o : Snapshot) : Region := ⟨.bits, o.regs.bitsAddr.toNat, packedBytes o.regs.bitsLen.toNat, false⟩

theorem command_b2m (o : Snapshot) (m : Memory) : command Config.params .b2m o m =
    unlessError (regionError Config.params [messageRegion o true, b2mInput o])
      (storeMessage o.regs.msgAddr.toNat o.regs.msgLen.toNat (bitsToMessage (bitsOf o m))) := rfl

/-- The output of B2M, region 3, is checked against its input, region 4 (20_memory.md R89). -/
theorem overlapError_b2m (o : Snapshot) : overlapError [messageRegion o true, b2mInput o] =
    if regionsOverlap (messageRegion o true) (b2mInput o) then some ⟨.bufferOverlap, 3, 4⟩ else none :=
  overlapError_output_input _ _ rfl rfl RegionId.noConfusion

/-- Settles O22: the regions of B2M in order, then `storeMessage` of what its bits decode to. -/
theorem b2mDecodesTheBits : Obligations.B2mDecodesTheBits := by
  refine ⟨rfl, fun s job hbusy hraced => ?_⟩
  extract_lets p n a c len
  have hcmd := command_b2m job.snap s.mem
  obtain ⟨hmsg, hbits, hoverlap⟩ := endsWith_pair_region_error hbusy hraced (i := .b2m) fun x hx => by
    rw [hcmd, hx, unlessError_some]
  rw [overlapError_b2m] at hoverlap
  refine ⟨fun ha hp hapart => ?_, fun ha => ?_, fun ha hp => ?_, fun ha hp hapart => ?_⟩
  · rw [regionError_pair_of_fits ha hp, overlapError_b2m, if_neg ((regionsOverlap_iff_not_apart ..).not_left.2 hapart),
      unlessError_none, bitsOf, unpackBits_memReadBytes] at hcmd
    refine ⟨_, exec_busy .b2m hbusy, ?_⟩
    rw [hcmd, hraced]
    exact complete_storeMessage_stores ..
  · exact wordOf_toNat a ▸ hmsg ha
  · exact wordOf_toNat p ▸ hbits ha hp
  · exact hoverlap ha hp _ (if_pos ((regionsOverlap_iff_not_apart ..).2 hapart))

end

end Sys2Proof.Machine

/-! The Capacity Calculator: the checks of a shape, the two capacity commands, and what bounds a capacity
(spec/41_capacity.md). -/

namespace Sys2Proof.Machine

section
open Sys2Proof.Claim

/-! ### The checks of a shape, in the default build -/

/-- An accepted shape passes the check of the LSB commands (R177). -/
theorem shapeError_of_shapeOk {o : Snapshot} (h : ShapeOk o) : shapeError Config.params o = none :=
  shapeError_eq_none.2 h

theorem shapeError_of_bad_rank {o : Snapshot} (h : o.regs.rank.toNat = 0 ∨ 4 < o.regs.rank.toNat) :
    shapeError Config.params o = some ⟨.invalidShape, o.regs.rank, 1⟩ := if_pos h

/-- The number of samples is asked for at a rank that names dimensions (R177). -/
theorem shapeError_of_too_many_samples {o : Snapshot} (hlow : 1 ≤ o.regs.rank.toNat) (hhigh : o.regs.rank.toNat ≤ 4)
    (h : 2 ^ 32 ≤ samples o) : shapeError Config.params o = some ⟨.invalidShape, o.regs.rank, 2⟩ := by
  have hrank : ¬ (o.regs.rank.toNat = 0 ∨ 4 < o.regs.rank.toNat) := by omega
  exact (if_neg hrank).trans (if_pos h)

/-- Before any configuration a DCT command ends with NOT_CONFIGURED (60_exceptions.md R311). -/
theorem configError_of_unconfigured {o : Snapshot} (h : o.dctValid = false) :
    configError o = some ⟨.notConfigured, 0, 0⟩ := if_pos h

theorem dctShapeError_of_rank_ne_two {o : Snapshot} (h : o.regs.rank.toNat ≠ 2) :
    dctShapeError Config.params o = some ⟨.invalidShape, o.regs.rank, 1⟩ := if_pos h

/-- The number of samples is asked for at rank 2 (R176, R177). -/
theorem dctShapeError_of_too_many_samples {o : Snapshot} (hrank : o.regs.rank.toNat = 2)
    (h : 2 ^ 32 ≤ rows o * cols o) : dctShapeError Config.params o = some ⟨.invalidShape, 2, 2⟩ :=
  (if_neg (not_not.2 hrank)).trans (if_pos h)

/-! ### LSB.CAPACITY and DCT.CAPACITY -/

theorem command_lsbCapacity (o : Snapshot) (m : Memory) : command Config.params .lsbCapacity o m =
    unlessError (shapeError Config.params o) { result0 := wordOf (samples o / 7) } := rfl

/-- Settles O26: LSB.CAPACITY has no region, and the check of the shape is its only one. -/
theorem lsbCapacityOfTheShape : Obligations.LsbCapacityOfTheShape := by
  refine ⟨rfl, fun s job hbusy => ?_⟩
  extract_lets o
  have hcmd := command_lsbCapacity o s.mem
  have hends (x : CmdError) (hx : shapeError Config.params o = some x) :
      EndsWith .lsbCapacity s x.code x.info0 x.info1 :=
    endsWith_of_command_error hbusy (.inr rfl) (by rw [hcmd, hx, unlessError_some])
  refine ⟨fun hshape => ?_, fun hrank => ?_, fun hlow hhigh hsamples => ?_⟩
  · refine exec_results_of_no_region hbusy rfl ?_
    rw [hcmd, shapeError_of_shapeOk hshape, unlessError_none]
  · exact hends _ (shapeError_of_bad_rank hrank)
  · exact hends _ (shapeError_of_too_many_samples hlow hhigh hsamples)

theorem command_dctCapacity (o : Snapshot) (m : Memory) : command Config.params .dctCapacity o m =
    unlessError ((configError o).or (dctShapeError Config.params o))
      { result0 := wordOf ((blocks o - 7) / 7), result1 := wordOf (blocks o) } := rfl

/-- Settles O27: DCT.CAPACITY has no region; the configuration is checked first, then the shape. -/
theorem dctCapacityOfTheShape : Obligations.DctCapacityOfTheShape := by
  refine ⟨rfl, fun s job hbusy => ?_⟩
  extract_lets o
  have hcmd := command_dctCapacity o s.mem
  have hends (x : CmdError) (hx : (configError o).or (dctShapeError Config.params o) = some x) :
      EndsWith .dctCapacity s x.code x.info0 x.info1 :=
    endsWith_of_command_error hbusy (.inr rfl) (by rw [hcmd, hx, unlessError_some])
  have hshape (hvalid : o.dctValid = true) :
      (configError o).or (dctShapeError Config.params o) = dctShapeError Config.params o := by
    rw [configError_eq_none.2 hvalid, Option.none_or]
  refine ⟨fun ⟨hvalid, hdims⟩ => ?_, fun hvalid => ?_, fun hvalid hrank => ?_, fun hvalid hrank hsamples => ?_⟩
  · refine exec_results_of_no_region hbusy rfl ?_
    rw [hcmd, hshape hvalid, dctShapeError_eq_none.2 hdims, unlessError_none]
  · refine hends ⟨.notConfigured, 0, 0⟩ ?_
    rw [configError_of_unconfigured hvalid, Option.some_or]
  · exact hends _ ((hshape hvalid).trans (dctShapeError_of_rank_ne_two hrank))
  · exact hends _ ((hshape hvalid).trans (dctShapeError_of_too_many_samples hrank hsamples))

/-! ### Bounds of a capacity -/

/-- R174 in numbers. -/
theorem capDct_eq (h w b : Nat) : capDct h w b = (totalBlocks h w b - 7) / 7 := rfl

/-- Settles O28: both capacities are quotients by 7, the DCT one of what the terminator leaves. -/
theorem capacityIsBoundedAndMonotone : Obligations.CapacityIsBoundedAndMonotone := by
  refine ⟨fun n => ?_, fun h w b => ⟨?_, fun hterm => ?_⟩, fun n n' hle => ?_, fun h w h' w' b hle => ?_⟩
  · exact Nat.mul_div_le n 7
  · rw [Nat.zero_max]
    exact Nat.mul_div_le _ 7
  · rw [capDct_eq]
    omega
  · exact Nat.div_le_div_right hle
  · exact Nat.div_le_div_right (Nat.sub_le_sub_right hle 7)

end

end Sys2Proof.Machine

/-! The LSB Engine: what its functions do to a sample, the regions of its two commands, and the round trip (spec/42_lsb.md). -/

namespace Sys2Proof.Machine

section
open Sys2Proof.Claim

/-! ### Samples -/

/-- A sample with its message bit, 0 where the message has none (R190). -/
def embedBit (x : Byte) (b : Bool) : Byte := (x &&& 0xFE) + BitVec.ofNat 8 b.toNat

/-- The parity of a sample is the bit embedded into it (R190, R192). -/
theorem parity_embedBit : ∀ (x : Byte) (b : Bool), ((embedBit x b).toNat % 2 == 1) = b := by
  unfold embedBit
  decide +kernel

/-- One sample of an embedding (R190). -/
theorem lsbEmbedSamples_cons (x : Byte) (xs : List Byte) (bs : Bits) :
    lsbEmbedSamples (x :: xs) bs = embedBit x (bs.headD false) :: lsbEmbedSamples xs bs.tail := by
  cases bs with
  | nil => simp [lsbEmbedSamples, embedBit]
  | cons b bs => rfl

/-- Sample `i` of an embedding carries bit `i` of the message (R190). -/
theorem getElem_lsbEmbedSamples (xs : List Byte) (bs : Bits) (i : Nat) (h : i < (lsbEmbedSamples xs bs).length) :
    (lsbEmbedSamples xs bs)[i] = embedBit (xs[i]'(by rwa [lsbEmbedSamples_length] at h)) (bs[i]?.getD false) := by
  induction xs generalizing bs i with
  | nil => exact absurd h (Nat.not_lt_zero i)
  | cons x xs ih =>
    cases i with
    | zero => simp [lsbEmbedSamples_cons, List.headD_eq_head?_getD, List.head?_eq_getElem?]
    | succ i => simp [lsbEmbedSamples_cons, ih]

/-- The bits of an embedding are the message's, then zeros (R190, R192). -/
theorem lsbExtractBits_lsbEmbedSamples {xs : List Byte} {bs : Bits} (h : bs.length ≤ xs.length) :
    lsbExtractBits (lsbEmbedSamples xs bs) = bs ++ List.replicate (xs.length - bs.length) false := by
  have hpad : (bs ++ List.replicate (xs.length - bs.length) false).length = xs.length := by simp; omega
  refine List.ext_getElem (by simp [lsbExtractBits, hpad]) fun i hi hi' => ?_
  have hbit : (lsbExtractBits (lsbEmbedSamples xs bs))[i] = bs[i]?.getD false := by
    simp only [lsbExtractBits, List.getElem_map, getElem_lsbEmbedSamples, parity_embedBit]
  rw [hbit]
  by_cases hb : i < bs.length
  · rw [List.getElem_append_left hb, List.getElem?_eq_getElem hb, Option.getD_some]
  · rw [List.getElem_append_right (Nat.le_of_not_lt hb), List.getElem_replicate,
      List.getElem?_eq_none (Nat.le_of_not_lt hb), Option.getD_none]

/-- The parities of the samples in memory (R192; 20_memory.md R83). -/
theorem lsbExtractBits_samplesOf (o : Snapshot) (m : Memory) : lsbExtractBits (samplesOf o m) =
    (List.range (samples o)).map fun i => (memRead m (o.regs.srcAddr.toNat + i)).toNat % 2 == 1 :=
  List.map_map

/-! ### The regions of an embedding and of an extraction -/

/-- The `n` samples a command reads (20_memory.md R87). -/
def sourceRegion (o : Snapshot) (n : Nat) : Region := ⟨.src, o.regs.srcAddr.toNat, n, false⟩

/-- The `n` samples an embedding writes (20_memory.md R87). -/
def embeddedRegion (o : Snapshot) (n : Nat) : Region := ⟨.dst, o.regs.dstAddr.toNat, n, true⟩

/-- The regions of an embedding into `n` samples. -/
def embedRegions (o : Snapshot) (n : Nat) : List Region := [sourceRegion o n, embeddedRegion o n, messageRegion o false]

/-- The regions of an extraction from `n` samples. -/
def extractRegions (o : Snapshot) (n : Nat) : List Region := [sourceRegion o n, messageRegion o true]

/-- The output of an embedding, region 2, is checked against region 1, then against region 3 (20_memory.md R89). -/
theorem overlapError_embedRegions (o : Snapshot) (n : Nat) : overlapError (embedRegions o n) =
    if regionsOverlap (embeddedRegion o n) (sourceRegion o n) then some ⟨.bufferOverlap, 2, 1⟩
    else if regionsOverlap (embeddedRegion o n) (messageRegion o false) then some ⟨.bufferOverlap, 2, 3⟩ else none :=
  overlapError_embed _ _ _ rfl rfl rfl RegionId.noConfusion RegionId.noConfusion

/-- The output of an extraction, region 3, is checked against the channel, region 1 (20_memory.md R89). -/
theorem overlapError_extractRegions (o : Snapshot) (n : Nat) : overlapError (extractRegions o n) =
    if regionsOverlap (messageRegion o true) (sourceRegion o n) then some ⟨.bufferOverlap, 3, 1⟩ else none :=
  overlapError_input_output _ _ rfl rfl RegionId.noConfusion

/-- Once the three regions of an embedding fit, only the overlaps of its output are left to check. -/
theorem regionError_embedRegions_of_fits {o : Snapshot} {n : Nat} (hsrc : Fits o.regs.srcAddr.toNat n)
    (hdst : Fits o.regs.dstAddr.toNat n) (hmsg : Fits o.regs.msgAddr.toNat o.regs.msgLen.toNat) :
    regionError Config.params (embedRegions o n) = overlapError (embedRegions o n) := by
  rw [regionError, embedRegions, addressError_cons_of_fits hsrc, addressError_cons_of_fits hdst,
    addressError_cons_of_fits hmsg, addressError_nil, Option.none_or]

theorem regionError_embedRegions_eq_none {o : Snapshot} {n : Nat} (hsrc : Fits o.regs.srcAddr.toNat n)
    (hdst : Fits o.regs.dstAddr.toNat n) (hmsg : Fits o.regs.msgAddr.toNat o.regs.msgLen.toNat)
    (hapart : Apart o.regs.dstAddr.toNat n o.regs.srcAddr.toNat n)
    (hapart' : Apart o.regs.dstAddr.toNat n o.regs.msgAddr.toNat o.regs.msgLen.toNat) :
    regionError Config.params (embedRegions o n) = none := by
  rw [regionError_embedRegions_of_fits hsrc hdst hmsg, overlapError_embedRegions,
    if_neg ((regionsOverlap_iff_not_apart ..).not_left.2 hapart),
    if_neg ((regionsOverlap_iff_not_apart ..).not_left.2 hapart')]

theorem regionError_extractRegions_eq_none {o : Snapshot} {n : Nat} (h : ExtractRegions o n) :
    regionError Config.params (extractRegions o n) = none := by
  obtain ⟨hsrc, hmsg, hapart⟩ := h
  rw [extractRegions, regionError_pair_of_fits hsrc hmsg, ← extractRegions, overlapError_extractRegions,
    if_neg ((regionsOverlap_iff_not_apart ..).not_left.2 hapart)]

/-- A command that ends with the errors of an embedding's regions meets the claim about them. -/
theorem embedRegionErrors_of_command {i : Instr} {s : State} {job : Job} {n : Nat} (hbusy : s.engine = .busy job)
    (hraced : job.raced = false)
    (hcmd : ∀ x, regionError Config.params (embedRegions job.snap n) = some x →
      command Config.params i job.snap s.mem = .error x) : EmbedRegionErrors i s job.snap n := by
  have hends (x : CmdError) (h : regionError Config.params (embedRegions job.snap n) = some x) :
      EndsWith i s x.code x.info0 x.info1 := endsWith_of_command_error hbusy (.inl hraced) (hcmd x h)
  have hfault (x : CmdError) (h : addressError Config.params (embedRegions job.snap n) = some x) :
      EndsWith i s x.code x.info0 x.info1 := hends x (regionError_of_addressError h)
  refine ⟨fun hsrc => ?_, fun hsrc hdst => ?_, fun hsrc hdst hmsg => ?_,
    fun hsrc hdst hmsg => ⟨fun hover => ?_, fun hapart hover => ?_⟩⟩
  · refine hfault ⟨.addressFault, 1, job.snap.regs.srcAddr⟩ ?_
    rw [embedRegions, addressError_cons_of_not_fits hsrc, sourceRegion, wordOf_toNat, regionCode]
  · refine hfault ⟨.addressFault, 2, job.snap.regs.dstAddr⟩ ?_
    rw [embedRegions, addressError_cons_of_fits hsrc, addressError_cons_of_not_fits hdst, embeddedRegion, wordOf_toNat,
      regionCode]
  · refine hfault ⟨.addressFault, 3, job.snap.regs.msgAddr⟩ ?_
    rw [embedRegions, addressError_cons_of_fits hsrc, addressError_cons_of_fits hdst, addressError_cons_of_not_fits hmsg,
      messageRegion, wordOf_toNat, regionCode]
  · refine hends ⟨.bufferOverlap, 2, 1⟩ ?_
    rw [regionError_embedRegions_of_fits hsrc hdst hmsg, overlapError_embedRegions,
      if_pos ((regionsOverlap_iff_not_apart ..).2 hover)]
  · refine hends ⟨.bufferOverlap, 2, 3⟩ ?_
    rw [regionError_embedRegions_of_fits hsrc hdst hmsg, overlapError_embedRegions,
      if_neg ((regionsOverlap_iff_not_apart ..).not_left.2 hapart), if_pos ((regionsOverlap_iff_not_apart ..).2 hover)]

/-- A command that ends with the errors of an extraction's regions meets the claim about them. -/
theorem extractRegionErrors_of_command {i : Instr} {s : State} {job : Job} {n : Nat} (hbusy : s.engine = .busy job)
    (hraced : job.raced = false)
    (hcmd : ∀ x, regionError Config.params (extractRegions job.snap n) = some x →
      command Config.params i job.snap s.mem = .error x) : ExtractRegionErrors i s job.snap n := by
  obtain ⟨hsrc, hmsg, hoverlap⟩ := endsWith_pair_region_error hbusy hraced hcmd
  refine ⟨fun h => ?_, fun h h' => ?_, fun h h' hover => ?_⟩
  · exact wordOf_toNat job.snap.regs.srcAddr ▸ hsrc h
  · exact wordOf_toNat job.snap.regs.msgAddr ▸ hmsg h h'
  · refine hoverlap h h' ⟨.bufferOverlap, 3, 1⟩ ?_
    exact (overlapError_extractRegions ..).trans (if_pos ((regionsOverlap_iff_not_apart ..).2 hover))

/-! ### The two capacity checks -/

/-- The bits fit exactly if the characters do (R194). -/
theorem le_div_seven_iff (l n : Nat) : l ≤ n / 7 ↔ 7 * l ≤ n := by omega

theorem bitBudgetError_eq_none {o : Snapshot} : bitBudgetError o = none ↔ 7 * o.regs.msgLen.toNat ≤ sampleCount o := by
  unfold bitBudgetError
  split_ifs <;> simp_all

/-- The second capacity check passes after the first one (R194). -/
theorem bitBudgetError_of_capacityError {o : Snapshot} (h : capacityError o (capLsb (sampleCount o)) = none) :
    bitBudgetError o = none :=
  bitBudgetError_eq_none.2 ((le_div_seven_iff _ _).1 (capacityError_eq_none.1 h))

/-- What LSB.EMBED reports without its second capacity check (R194, R200). -/
theorem lsbEmbedError_eq (p : Params) (o : Snapshot) (m : Memory) : lsbEmbedError p o m =
    (shapeError p o).or ((regionError p (regionsOf p .lsbEmbed o)).or
      ((capacityError o (capLsb (sampleCount o))).or (characterError (messageOf o m)))) := by
  rw [lsbEmbedError]
  cases hcap : capacityError o (capLsb (sampleCount o)) with
  | some x => rw [Option.some_or, Option.some_or]
  | none => rw [bitBudgetError_of_capacityError hcap, Option.or_none]

/-- The error codes of each command (60_exceptions.md R311), but for CAPACITY_EXCEEDED_BITS. -/
def errorCodes : Instr → List ErrCode
  | .lsbEmbed => [.invalidShape, .addressFault, .bufferOverlap, .capacityExceeded, .invalidCharacter]
  | .lsbExtract => [.invalidShape, .addressFault, .bufferOverlap]
  | .lsbCapacity => [.invalidShape]
  | .c2b => [.invalidCharacter]
  | .b2c => [.invalidOperand]
  | .m2b => [.addressFault, .bufferOverlap, .invalidCharacter]
  | .b2m => [.addressFault, .bufferOverlap]
  | .qembed => [.invalidOperand]
  | .qextract => [.invalidOperand]
  | .dctEmbed =>
    [.notConfigured, .invalidShape, .addressFault, .bufferOverlap, .capacityExceeded, .invalidCharacter, .collaboratorFault]
  | .dctExtract => [.notConfigured, .invalidShape, .addressFault, .bufferOverlap, .collaboratorFault]
  | .dctCapacity => [.notConfigured, .invalidShape]
  | .dctConfig => [.invalidParameter]

/-- A command reports only codes of its own list (60_exceptions.md R311). -/
theorem command_error_code_mem {p : Params} {i : Instr} {o : Snapshot} {m : Memory} {x : CmdError}
    (h : command p i o m = .error x) : x.code ∈ errorCodes i := by
  have hregion {rs : List Region} {cs : List ErrCode} (h : regionError p rs = some x) (hfault : .addressFault ∈ cs)
      (hoverlap : .bufferOverlap ∈ cs) : x.code ∈ cs := by
    obtain hx | hx := regionError_code h
    · rwa [hx]
    · rwa [hx]
  cases i <;> simp only [command, lsbEmbed, lsbExtract, lsbCapacity, c2b, b2c, m2b, b2m, qembed, qextract, dctEmbed,
    dctExtract, dctCapacity, dctConfig, unlessError_eq_error, lsbEmbedError_eq, qembedError, dctEmbedError,
    Option.or_eq_some_iff] at h
  case lsbEmbed =>
    obtain h | ⟨-, h | ⟨-, h | ⟨-, h⟩⟩⟩ := h
    exacts [by simp [errorCodes, shapeError_code h], hregion h (by decide) (by decide),
      by simp [errorCodes, capacityError_code h], by simp [errorCodes, characterError_code h]]
  case lsbExtract =>
    obtain h | ⟨-, h⟩ := h
    exacts [by simp [errorCodes, shapeError_code h], hregion h (by decide) (by decide)]
  case lsbCapacity => simp [errorCodes, shapeError_code h]
  case c2b => split_ifs at h; cases h; simp [errorCodes]
  case b2c => split_ifs at h; cases h; simp [errorCodes]
  case m2b =>
    obtain h | ⟨-, h⟩ := h
    exacts [hregion h (by decide) (by decide), by simp [errorCodes, characterError_code h]]
  case b2m => exact hregion h (by decide) (by decide)
  case qembed =>
    obtain h | ⟨-, h | ⟨-, h | ⟨-, h⟩⟩⟩ := h
    · split_ifs at h; cases h; simp [errorCodes]
    exacts [by simp [errorCodes, factorError_code h], by simp [errorCodes, finiteError_code h],
      by simp [errorCodes, finiteError_code h]]
  case qextract =>
    obtain h | ⟨-, h⟩ := h
    exacts [by simp [errorCodes, factorError_code h], by simp [errorCodes, finiteError_code h]]
  case dctEmbed =>
    obtain h | ⟨-, h | ⟨-, h | ⟨-, h | ⟨-, h | ⟨-, h⟩⟩⟩⟩⟩ := h
    exacts [by simp [errorCodes, configError_code h], by simp [errorCodes, dctShapeError_code h],
      hregion h (by decide) (by decide), by simp [errorCodes, capacityError_code h],
      by simp [errorCodes, characterError_code h], by simp [errorCodes, embedCollaboratorError_code h]]
  case dctExtract =>
    obtain h | ⟨-, h | ⟨-, h | ⟨-, h⟩⟩⟩ := h
    exacts [by simp [errorCodes, configError_code h], by simp [errorCodes, dctShapeError_code h],
      hregion h (by decide) (by decide), by simp [errorCodes, extractCollaboratorError_code h]]
  case dctCapacity =>
    obtain h | ⟨-, h⟩ := h
    exacts [by simp [errorCodes, configError_code h], by simp [errorCodes, dctShapeError_code h]]
  case dctConfig => simp [errorCodes, parameterError_code h]

/-- STATUS shows the code it showed before, or one of the command's list (60_exceptions.md R302, R303). -/
theorem exec_errCode {i : Instr} {s t : State} (h : exec i s = .next t) :
    t.status.errCode = s.status.errCode ∨ t.status.errCode ∈ errorCodes i := by
  obtain ⟨job, -, rfl⟩ := exec_next h
  cases hcmd : command Config.params i job.snap s.mem with
  | ok e =>
    left
    rw [(complete_ok ..).1, statusDone]
  | error x =>
    right
    rw [(complete_error ..).1, statusError]
    exact command_error_code_mem hcmd

theorem capacityExceededBits_not_mem_errorCodes (i : Instr) : .capacityExceededBits ∉ errorCodes i := by
  cases i <;> decide

/-- Settles O31: the second check passes after the first, so its code is in no command's list. -/
theorem secondLsbCheckNeverFails : Obligations.SecondLsbCheckNeverFails := by
  refine ⟨le_div_seven_iff, fun i s t hs h => ?_⟩
  obtain hkept | hmem := exec_errCode h
  · rwa [hkept]
  · exact fun hcode => capacityExceededBits_not_mem_errorCodes i (hcode ▸ hmem)

/-! ### LSB.EMBED -/

/-- What LSB.EMBED does when no check fails (R200). -/
def lsbEmbedEffect (o : Snapshot) (m : Memory) : Effect where
  base := o.regs.dstAddr.toNat
  bytes := lsbEmbedSamples (samplesOf o m) (messageToBits (messageOf o m))
  result0 := wordOf (7 * o.regs.msgLen.toNat)
  result1 := wordOf (samples o / 7)

theorem lsbEmbedEffect_length (o : Snapshot) (m : Memory) : (lsbEmbedEffect o m).bytes.length = samples o :=
  (lsbEmbedSamples_length ..).trans (samplesOf_length ..)

theorem command_lsbEmbed (o : Snapshot) (m : Memory) : command Config.params .lsbEmbed o m =
    unlessError (lsbEmbedError Config.params o m) (lsbEmbedEffect o m) := rfl

/-- The checks of LSB.EMBED at an accepted shape (R200). -/
theorem lsbEmbedError_of_shapeOk {o : Snapshot} (h : ShapeOk o) (m : Memory) : lsbEmbedError Config.params o m =
    (regionError Config.params (embedRegions o (samples o))).or
      ((capacityError o (samples o / 7)).or (characterError (messageOf o m))) := by
  have hshape := shapeError_of_shapeOk h
  rw [lsbEmbedError_eq, hshape, Option.none_or, regionsOf_lsbEmbed hshape]
  rfl

/-- With its regions admitted and apart, LSB.EMBED checks the message only (R200). -/
theorem lsbEmbedError_of_regions {o : Snapshot} (h : ShapeOk o) (hregions : LsbEmbedRegions o) (m : Memory) :
    lsbEmbedError Config.params o m = (capacityError o (samples o / 7)).or (characterError (messageOf o m)) := by
  obtain ⟨hsrc, hdst, hmsg, hapart, hapart'⟩ := hregions
  rw [lsbEmbedError_of_shapeOk h, regionError_embedRegions_eq_none hsrc hdst hmsg hapart hapart', Option.none_or]

/-- CAPACITY_EXCEEDED with what the message needs and what there is (60_exceptions.md R312). -/
theorem capacityError_of_lt {o : Snapshot} {c : Nat} (h : c < o.regs.msgLen.toNat) :
    capacityError o c = some ⟨.capacityExceeded, o.regs.msgLen, wordOf c⟩ := if_pos h

/-- Sample `i` of LSB.EMBED's output, and every byte outside it (R190, R200). -/
theorem lsbEmbedEffect_written {s t : State} {o : Snapshot}
    (hmem : t.mem = memWriteBytes s.mem (lsbEmbedEffect o s.mem).base (lsbEmbedEffect o s.mem).bytes) :
    (∀ i < samples o, memRead t.mem (o.regs.dstAddr.toNat + i) = (memRead s.mem (o.regs.srcAddr.toNat + i) &&& 0xFE) +
      (if i < 7 * o.regs.msgLen.toNat then BitVec.ofNat 8 (messageBit s o.regs.msgAddr.toNat i).toNat else 0)) ∧
    SameOutside s t o.regs.dstAddr.toNat (samples o) := by
  refine ⟨fun i hi => ?_, fun c hc => ?_⟩
  · have hlen : i < (lsbEmbedEffect o s.mem).bytes.length := by rwa [lsbEmbedEffect_length]
    rw [hmem]
    refine (memRead_memWriteBytes _ _ _ i hlen).trans ((getElem_lsbEmbedSamples _ _ i _).trans ?_)
    simp only [samplesOf, messageOf, getElem_memReadBytes, embedBit]
    split_ifs with hbit
    · rw [messageToBits_memReadBytes hbit, Option.getD_some]
    · rw [List.getElem?_eq_none (by rw [messageToBits_length, memReadBytes_length]; omega), Option.getD_none]
      rfl
  · rw [hmem]
    refine memRead_memWriteBytes_of_outside _ _ _ ?_
    rwa [lsbEmbedEffect_length]

/-- Settles O29: the checks of LSB.EMBED in order, then the samples of its output. -/
theorem lsbEmbedHidesTheMessage : Obligations.LsbEmbedHidesTheMessage := by
  refine ⟨rfl, fun s job hbusy hraced => ?_⟩
  extract_lets o n src dst msg l
  have hcmd := command_lsbEmbed o s.mem
  have hends (x : CmdError) (hx : lsbEmbedError Config.params o s.mem = some x) :
      EndsWith .lsbEmbed s x.code x.info0 x.info1 :=
    endsWith_of_command_error hbusy (.inl hraced) (by rw [hcmd, hx, unlessError_some])
  have hshapeError {x : CmdError} (hx : shapeError Config.params o = some x) :
      lsbEmbedError Config.params o s.mem = some x := by rw [lsbEmbedError, hx, Option.some_or]
  refine ⟨fun hshape hregions hcap hchars => ?_, fun hrank => ?_, fun hlow hhigh hsamples => ?_, fun hshape => ?_,
    fun hshape hregions hcap => ?_, fun k hshape hregions hcap hbad => ?_⟩
  · rw [lsbEmbedError_of_regions hshape hregions, capacityError_eq_none.2 hcap, Option.none_or, messageOf,
      characterError_memReadBytes_eq_none hchars, unlessError_none] at hcmd
    refine ⟨_, exec_busy .lsbEmbed hbusy, ?_⟩
    rw [hcmd, hraced]
    exact ⟨complete_ok_succeeds .., complete_ok_keepsConfig _ _ _ _ rfl, rfl, rfl, rfl, lsbEmbedEffect_written rfl⟩
  · exact hends _ (hshapeError (shapeError_of_bad_rank hrank))
  · exact hends _ (hshapeError (shapeError_of_too_many_samples hlow hhigh hsamples))
  · refine embedRegionErrors_of_command hbusy hraced fun x hx => ?_
    rw [hcmd, lsbEmbedError_of_shapeOk hshape, hx, Option.some_or, unlessError_some]
  · refine hends ⟨.capacityExceeded, o.regs.msgLen, wordOf (n / 7)⟩ ?_
    rw [lsbEmbedError_of_regions hshape hregions, capacityError_of_lt hcap, Option.some_or]
  · refine hends ⟨.invalidCharacter, wordOf k, wordOf (memRead s.mem (msg + k)).toNat⟩ ?_
    rw [lsbEmbedError_of_regions hshape hregions, capacityError_eq_none.2 hcap, Option.none_or, messageOf,
      characterError_memReadBytes_of_firstBad hbad]

/-! ### LSB.EXTRACT -/

/-- LSB.EXTRACT at an accepted shape (R203). -/
theorem command_lsbExtract_of_shapeOk {o : Snapshot} (h : ShapeOk o) (m : Memory) :
    command Config.params .lsbExtract o m = unlessError (regionError Config.params (extractRegions o (samples o)))
      (storeMessage o.regs.msgAddr.toNat o.regs.msgLen.toNat (bitsToMessage (lsbExtractBits (samplesOf o m)))) := by
  have hshape := shapeError_of_shapeOk h
  rw [command, lsbExtract, hshape, Option.none_or, regionsOf_lsbExtract hshape]
  rfl

/-- LSB.EXTRACT with an accepted shape and regions stores what its samples decode to (R203). -/
theorem exec_lsbExtract_stores {s : State} {job : Job} (hbusy : s.engine = .busy job) (hraced : job.raced = false)
    (hshape : ShapeOk job.snap) (hregions : ExtractRegions job.snap (samples job.snap)) :
    ∃ t, exec .lsbExtract s = .next t ∧ Stores s t job.snap.regs.msgAddr.toNat job.snap.regs.msgLen.toNat
      (bitsToMessage (lsbExtractBits (samplesOf job.snap s.mem))) := by
  refine ⟨_, exec_busy .lsbExtract hbusy, ?_⟩
  rw [command_lsbExtract_of_shapeOk hshape, regionError_extractRegions_eq_none hregions, unlessError_none, hraced]
  exact complete_storeMessage_stores ..

/-- Settles O30: the checks of LSB.EXTRACT in order, then `storeMessage` of what its parities decode to. -/
theorem lsbExtractReadsTheMessage : Obligations.LsbExtractReadsTheMessage := by
  refine ⟨rfl, fun s job hbusy hraced => ?_⟩
  extract_lets o n
  have hends (x : CmdError) (hx : shapeError Config.params o = some x) :
      EndsWith .lsbExtract s x.code x.info0 x.info1 :=
    endsWith_of_command_error hbusy (.inl hraced) (by rw [command, lsbExtract, hx, Option.some_or, unlessError_some])
  refine ⟨fun hshape hregions => ?_, fun hrank => ?_, fun hlow hhigh hsamples => ?_, fun hshape => ?_⟩
  · rw [← lsbExtractBits_samplesOf o s.mem]
    exact exec_lsbExtract_stores hbusy hraced hshape hregions
  · exact hends _ (shapeError_of_bad_rank hrank)
  · exact hends _ (shapeError_of_too_many_samples hlow hhigh hsamples)
  · refine extractRegionErrors_of_command hbusy hraced fun x hx => ?_
    rw [command_lsbExtract_of_shapeOk hshape, hx, unlessError_some]

/-! ### The round trip -/

/-- A completion that shows no error had an effect (60_exceptions.md R302, R303). -/
theorem command_ok_of_no_error {i : Instr} {s t : State} {job : Job} (hbusy : s.engine = .busy job)
    (h : exec i s = .next t) (herr : t.status.err = false) : ∃ e, command Config.params i job.snap s.mem = .ok e ∧
      t = complete Config.params (regionsOf Config.params i job.snap) job.raced (.ok e) s := by
  rw [exec_busy i hbusy] at h
  cases h
  cases hcmd : command Config.params i job.snap s.mem with
  | ok e => exact ⟨e, rfl, rfl⟩
  | error x =>
    rw [hcmd, (complete_error ..).1] at herr
    cases herr

/-- LSB.EMBED that shows no error has passed its checks and written its output (R200). -/
theorem lsbEmbed_of_no_error {s t : State} {job : Job} (hbusy : s.engine = .busy job) (hraced : job.raced = false)
    (h : exec .lsbEmbed s = .next t) (herr : t.status.err = false) :
    ShapeOk job.snap ∧ 7 * job.snap.regs.msgLen.toNat ≤ samples job.snap ∧
      (∀ c ∈ messageOf job.snap s.mem, c.toNat ≤ 127) ∧
      memReadBytes t.mem job.snap.regs.dstAddr.toNat (samples job.snap) =
        lsbEmbedSamples (samplesOf job.snap s.mem) (messageToBits (messageOf job.snap s.mem)) := by
  obtain ⟨e, hcmd, rfl⟩ := command_ok_of_no_error hbusy h herr
  obtain ⟨hnone, rfl⟩ := unlessError_eq_ok.1 ((command_lsbEmbed ..).symm.trans hcmd)
  simp only [lsbEmbedError, Option.or_eq_none_iff] at hnone
  obtain ⟨hshape, -, -, hchars, hbits⟩ := hnone
  refine ⟨shapeError_eq_none.1 hshape, bitBudgetError_eq_none.1 hbits, characterError_eq_none.1 hchars, ?_⟩
  rw [hraced, complete_mem_of_not_raced, ← lsbEmbedEffect_length job.snap s.mem]
  exact memReadBytes_memWriteBytes ..

/-- A message of characters other than 0 is decoded from the samples it is embedded into (R206). -/
theorem bitsToMessage_lsbEmbedSamples {xs m : List Byte} (hfits : 7 * m.length ≤ xs.length)
    (hchars : ∀ c ∈ m, c.toNat ≤ 127) (hnonzero : ∀ c ∈ m, c ≠ 0) :
    bitsToMessage (lsbExtractBits (lsbEmbedSamples xs (messageToBits m))) = m := by
  rw [lsbExtractBits_lsbEmbedSamples (by rwa [messageToBits_length])]
  refine (framingLaws.1 m _ hchars hnonzero).2 ?_
  rw [List.length_replicate, List.take_replicate]
  obtain hshort | hlong := Nat.lt_or_ge (xs.length - (messageToBits m).length) 7
  · exact .inl hshort
  · exact .inr (by rw [min_eq_left hlong])

/-- Settles O32: the samples in memory are `lsbEmbedSamples` of the message, and decoding them gives it back. -/
theorem lsbRoundTrip : Obligations.LsbRoundTrip := by
  intro s t s' job job' hbusy hraced hexec _ herr o l hnonzero hbusy' hraced' hmem hrank hcount hsrc hbuf hregions
  obtain ⟨hshape, hfits, hchars, hout⟩ := lsbEmbed_of_no_error hbusy hraced hexec herr
  have hlen : (messageOf o s.mem).length = l := messageOf_length ..
  have hshape' : ShapeOk job'.snap := by rwa [ShapeOk, hrank, hcount]
  obtain ⟨u, hexec', hstores⟩ := exec_lsbExtract_stores hbusy' hraced' hshape' (hcount.symm ▸ hregions)
  have hsamples : samplesOf job'.snap s'.mem = lsbEmbedSamples (samplesOf o s.mem) (messageToBits (messageOf o s.mem)) := by
    rw [← hout, ← hcount, ← hsrc, ← hmem]
    rfl
  have hdecoded : bitsToMessage (lsbExtractBits (samplesOf job'.snap s'.mem)) = messageOf o s.mem := by
    rw [hsamples]
    refine bitsToMessage_lsbEmbedSamples (by rwa [hlen, samplesOf_length]) hchars ?_
    rw [messageOf, memReadBytes, List.forall_mem_map]
    exact fun k hk => hnonzero k (List.mem_range.1 hk)
  rw [hdecoded] at hstores
  obtain ⟨hends, -, hfull, -, -, hwritten, -⟩ := hstores
  refine ⟨u, hexec', hends.done, ?_, ?_, ?_, fun k hk => ?_⟩
  · rw [hends.result0, hlen, min_eq_left hbuf, wordOf_toNat]
  · rw [hends.result1, hlen, wordOf_toNat]
  · rw [hfull, hlen, decide_eq_false (not_lt.2 hbuf)]
  · rw [hwritten k (hlen.symm ▸ hk) (by omega)]
    exact getElem_memReadBytes ..

end

end Sys2Proof.Machine

/-! The DCT quantizer: its arithmetic, the checks of its operands and its three commands (spec/43_dct_quantizer.md). -/

namespace Sys2Proof.Machine

section
open Sys2Proof.Claim

/-! ### The parity of a quantized coefficient -/

theorem natCast_parity (n : Int) : (parity n : Int) = n % 2 := Int.toNat_of_nonneg (Int.emod_nonneg n (by decide))

theorem parity_eq_iff (n : Int) (b : Nat) : parity n = b ↔ n % 2 = b := by rw [← natCast_parity, Nat.cast_inj]

theorem adjust_of_parity (pa : ParityAdjust) {n : Int} {b : Nat} (h : n % 2 = b) : adjust pa n b = n :=
  if_pos ((parity_eq_iff n b).2 h)

/-- On a mismatch `SET_LSB` moves to the other member of the pair (R222). -/
theorem adjust_setLsb_of_mismatch {n : Int} {b : Nat} (h : n % 2 ≠ b) :
    adjust .setLsb n b = if n % 2 = 1 then n - 1 else n + 1 :=
  (if_neg (mt (parity_eq_iff n b).1 h)).trans (if_congr (parity_eq_iff n 1) rfl rfl)

/-- On a mismatch `ALWAYS_DOWN` moves to the integer below (R222). -/
theorem adjust_alwaysDown_of_mismatch {n : Int} {b : Nat} (h : n % 2 ≠ b) : adjust .alwaysDown n b = n - 1 :=
  if_neg (mt (parity_eq_iff n b).1 h)

theorem adjust_emod_two (pa : ParityAdjust) (n : Int) {b : Nat} (hb : b ≤ 1) : adjust pa n b % 2 = b := by
  by_cases h : n % 2 = b
  · rw [adjust_of_parity pa h, h]
  · cases pa
    case setLsb => rw [adjust_setLsb_of_mismatch h]; split <;> omega
    case alwaysDown => rw [adjust_alwaysDown_of_mismatch h]; omega

/-- Settles O37: the integer is left or moved by one, as its parity says. -/
theorem adjustForcesTheParity : Obligations.AdjustForcesTheParity := by
  refine fun pa n b hb => ⟨adjust_emod_two pa n hb, adjust_of_parity pa, fun h => ?_⟩
  cases pa
  case setLsb => exact adjust_setLsb_of_mismatch h
  case alwaysDown => exact adjust_alwaysDown_of_mismatch h

/-! ### Whole numbers in binary64 -/

/-- The binary64 of an integer up to `2 ^ 53` in magnitude has its sign and its magnitude (R223). -/
theorem fp_whole {v : Int} (hv : v.natAbs ≤ 2 ^ 53) :
    f64Neg (fp v) = decide (v < 0) ∧ f64Units (fp v) = v.natAbs * f64One := by
  obtain ⟨hneg, -, hunits⟩ := f64OfUnits_whole (decide (v < 0)) v.natAbs 1 hv Nat.one_pos
  rw [Nat.mul_one] at hneg hunits
  exact ⟨hneg, hunits⟩

/-- A whole quotient up to `2 ^ 53` in magnitude is encoded with its value. -/
theorem f64Int_f64OfUnits_whole {n : Int} {den : Nat} (hn : n.natAbs ≤ 2 ^ 53) (hden : 0 < den) :
    f64Int (f64OfUnits (decide (n < 0)) (n.natAbs * f64One * den) den) = n * f64One := by
  obtain ⟨hneg, -, hunits⟩ := f64OfUnits_whole (decide (n < 0)) n.natAbs den hn hden
  rw [f64Int, hneg, hunits, Nat.cast_mul]
  by_cases hlt : n < 0
  · rw [if_pos (decide_eq_true hlt), Int.ofNat_natAbs_of_nonpos hlt.le, neg_mul, neg_neg]
  · rw [if_neg (by simpa using hlt), Int.natAbs_of_nonneg (not_lt.1 hlt)]

/-- The division of a product by its positive factor answers the other factor exactly (R234). -/
theorem f64Int_fdiv_fp_mul {n q : Int} (hq : 1 ≤ q) (hmul : (n * q).natAbs ≤ 2 ^ 53) (hfactor : q.natAbs ≤ 2 ^ 53) :
    f64Int (fdiv (fp (n * q)) (fp q)) = n * f64One := by
  obtain ⟨hneg, hunits⟩ := fp_whole hmul
  obtain ⟨hqneg, hqunits⟩ := fp_whole hfactor
  have hq0 : 0 < q.natAbs := by omega
  have hn : n.natAbs ≤ 2 ^ 53 := by
    rw [Int.natAbs_mul] at hmul
    exact (Nat.le_mul_of_pos_right _ hq0).trans hmul
  have hsign : n * q < 0 ↔ n < 0 := lt_iff_lt_of_le_iff_le (mul_nonneg_iff_of_pos_right (by omega))
  rw [fdiv, hneg, hunits, hqneg, hqunits, decide_eq_decide.2 hsign, decide_eq_false (p := q < 0) (by omega),
    Bool.xor_false, Int.natAbs_mul, Nat.mul_assoc (n.natAbs * q.natAbs), Nat.mul_mul_mul_comm]
  exact f64Int_f64OfUnits_whole hn (Nat.mul_pos hq0 f64One_pos)

/-- Rounding leaves a whole number as it is. -/
theorem roundInt_mul (mode : TieMode) (n : Int) {d : Nat} (hd : 0 < d) : roundInt mode (n * d) d = n := by
  have habs : (n * d).natAbs = n.natAbs * d := by rw [Int.natAbs_mul, Int.natAbs_natCast]
  have hsign : n * d < 0 ↔ n < 0 := lt_iff_lt_of_le_iff_le (mul_nonneg_iff_of_pos_right (Int.natCast_pos.2 hd))
  rw [roundInt, habs, roundNat_mul mode _ d hd]
  split <;> omega

/-- A multiple of the factor up to `2 ^ 53` is quantized without loss (R234). -/
theorem quant_fp_mul (mode : TieMode) {n q : Int} (hq : 1 ≤ q) (hmul : (n * q).natAbs ≤ 2 ^ 53)
    (hfactor : q.natAbs ≤ 2 ^ 53) : quant mode (fp (n * q)) q = n := by
  rw [quant, rnd, f64Int_fdiv_fp_mul hq hmul hfactor, roundInt_mul mode n f64One_pos]

/-- Settles O39: the embedded coefficient quantizes to the adjusted integer again, whose parity is the bit. -/
theorem embeddedParityIsStable : Obligations.EmbeddedParityIsStable := by
  intro p c b q _ hb hq hq31 hmul
  rw [extractBitFromCoefficient, embedBitInCoefficient, quant_fp_mul _ hq hmul (by omega), parity_eq_iff]
  exact adjust_emod_two _ _ hb

/-! ### Huge quotients -/

@[simp] theorem natAbs_f64Int (x : Binary64) : (f64Int x).natAbs = f64Units x := by
  rw [f64Int]
  split <;> simp

/-- A value of `2 ^ 53` or more rounds to an even integer, in either tie mode (R224). -/
theorem rnd_even_of_large (mode : TieMode) {x : Binary64} (h : 2 ^ 53 * f64One ≤ f64Units x) : rnd mode x % 2 = 0 := by
  obtain ⟨k, hk⟩ := f64Units_even_of_large x h
  have habs : (rnd mode x).natAbs = 2 * k := by
    rw [rnd, natAbs_roundInt, natAbs_f64Int, hk, mul_right_comm, roundNat_mul mode _ _ f64One_pos]
  omega

/-- Settles O40: the extracted bit is the parity of an integer that is even from `2 ^ 53` on. -/
theorem hugeQuotientsExtractZero : Obligations.HugeQuotientsExtractZero := fun p _ _ _ _ _ =>
  ⟨natCast_parity _, fun hlarge => (parity_eq_iff _ 0).2 (rnd_even_of_large p.tieMode hlarge)⟩

/-! ### The checks of QEMBED and QEXTRACT -/

theorem factorError_of_nonpos {o : Snapshot} (h : s32 o.regs.arg3 ≤ 0) :
    factorError o = some ⟨.invalidOperand, 3, o.regs.arg3⟩ := if_pos h

theorem finiteError_of_not_finite {o : Snapshot} {x : Binary64} (h : f64Finite x = false) :
    finiteError o x = some ⟨.invalidOperand, 0, o.regs.arg1⟩ := if_pos h

/-- An infinite operand and an infinite result are reported alike (R230). -/
theorem finiteError_or_of_not_finite {o : Snapshot} {x y : Binary64} (h : f64Finite x = false ∨ f64Finite y = false) :
    (finiteError o x).or (finiteError o y) = some ⟨.invalidOperand, 0, o.regs.arg1⟩ := by
  by_cases hx : f64Finite x = true
  · rw [finiteError_eq_none.2 hx, Option.none_or, finiteError_of_not_finite (h.resolve_left (by simp [hx]))]
  · rw [finiteError_of_not_finite (Bool.not_eq_true _ ▸ hx), Option.some_or]

theorem qembedError_of_no_bit (p : Params) {o : Snapshot} (h : 1 < o.regs.arg2.toNat) :
    qembedError p o = some ⟨.invalidOperand, 2, o.regs.arg2⟩ := by
  rw [qembedError, if_pos h, Option.some_or]

theorem qembedError_of_bit (p : Params) {o : Snapshot} (h : o.regs.arg2.toNat ≤ 1) : qembedError p o =
    (factorError o).or ((finiteError o (coefOperand o)).or (finiteError o (qembedValue p o))) := by
  rw [qembedError, if_neg (not_lt.2 h), Option.none_or]

/-! ### QEMBED and QEXTRACT -/

theorem command_qembed (o : Snapshot) (m : Memory) : command Config.params .qembed o m =
    unlessError (qembedError Config.params o)
      { result0 := f64Low (qembedValue Config.params o), result1 := f64High (qembedValue Config.params o) } := rfl

/-- Settles O34: QEMBED has no region; the bit is checked first, then the factor, the coefficient and the result. -/
theorem qembedForcesTheParity : Obligations.QembedForcesTheParity := by
  refine ⟨rfl, fun s job hbusy => ?_⟩
  intro r c q y
  have hcmd := command_qembed job.snap s.mem
  have hends (x : CmdError) (hx : qembedError Config.params job.snap = some x) :
      EndsWith .qembed s x.code x.info0 x.info1 :=
    endsWith_of_command_error hbusy (.inr rfl) (by rw [hcmd, hx, unlessError_some])
  have hfinite (hbit : r.arg2.toNat ≤ 1) (hq : 0 < q) : qembedError Config.params job.snap =
      (finiteError job.snap c).or (finiteError job.snap y) := by
    rw [qembedError_of_bit _ hbit, factorError_eq_none.2 hq, Option.none_or]
    rfl
  refine ⟨fun hbit hq hc hy => ?_, fun hbit => ?_, fun hbit hq => ?_, fun hbit hq hnot => ?_⟩
  · refine exec_results_of_no_region hbusy rfl ?_
    rw [hcmd, hfinite hbit hq, finiteError_eq_none.2 hc, finiteError_eq_none.2 hy]
    rfl
  · exact hends _ (qembedError_of_no_bit _ hbit)
  · refine hends ⟨.invalidOperand, 3, r.arg3⟩ ?_
    rw [qembedError_of_bit _ hbit, factorError_of_nonpos hq, Option.some_or]
  · exact hends _ ((hfinite hbit hq).trans (finiteError_or_of_not_finite hnot))

theorem command_qextract (o : Snapshot) (m : Memory) : command Config.params .qextract o m =
    unlessError ((factorError o).or (finiteError o (coefOperand o)))
      { result0 := wordOf (extractBitFromCoefficient Config.params (coefOperand o) (s32 o.regs.arg3)) } := rfl

/-- Settles O35: QEXTRACT has no region; the factor is checked first, then the coefficient. -/
theorem qextractReadsTheParity : Obligations.QextractReadsTheParity := by
  refine ⟨rfl, fun s job hbusy => ?_⟩
  intro r c q
  have hcmd := command_qextract job.snap s.mem
  have hends (x : CmdError) (hx : (factorError job.snap).or (finiteError job.snap c) = some x) :
      EndsWith .qextract s x.code x.info0 x.info1 :=
    endsWith_of_command_error hbusy (.inr rfl) (hcmd.trans (unlessError_eq_error.2 hx))
  have hfinite (hq : 0 < q) : (factorError job.snap).or (finiteError job.snap c) = finiteError job.snap c := by
    rw [factorError_eq_none.2 hq, Option.none_or]
  refine ⟨fun hq hc => ?_, fun hq => ?_, fun hq hc => ?_⟩
  · exact exec_results_of_no_region hbusy rfl
      (hcmd.trans (unlessError_eq_ok.2 ⟨(hfinite hq).trans (finiteError_eq_none.2 hc), rfl⟩))
  · refine hends ⟨.invalidOperand, 3, r.arg3⟩ ?_
    rw [factorError_of_nonpos hq, Option.some_or]
  · exact hends _ ((hfinite hq).trans (finiteError_of_not_finite hc))

/-! ### DCT.CONFIG -/

/-- A block size the default build accepts: a power of two up to 64 (R226). -/
def BlockSizeOk (o : Snapshot) : Prop := (∃ n, o.regs.blockSize.toNat = 2 ^ n) ∧ o.regs.blockSize.toNat ≤ 64

/-- A coefficient index inside the block that is not the first one (R226). -/
def CoefIndexOk (o : Snapshot) : Prop :=
  1 ≤ o.regs.coefIndex.toNat ∧ o.regs.coefIndex.toNat ≤ o.regs.blockSize.toNat * o.regs.blockSize.toNat - 1

theorem parameterError_of_bad_block {o : Snapshot} (h : ¬ BlockSizeOk o) :
    parameterError Config.params o = some ⟨.invalidParameter, 1, o.regs.blockSize⟩ :=
  if_pos ((blockSizeCheck_iff _).2 h)

theorem parameterError_of_bad_coefIndex {o : Snapshot} (hblock : BlockSizeOk o) (h : ¬ CoefIndexOk o) :
    parameterError Config.params o = some ⟨.invalidParameter, 2, o.regs.coefIndex⟩ := by
  rw [CoefIndexOk, not_and_or, not_le, not_le] at h
  exact (if_neg (mt (blockSizeCheck_iff _).1 (not_not.2 hblock))).trans (if_pos h)

theorem parameterError_of_nonpos_factor {o : Snapshot} (hblock : BlockSizeOk o) (hcoef : CoefIndexOk o)
    (h : s32 o.regs.quant ≤ 0) : parameterError Config.params o = some ⟨.invalidParameter, 3, o.regs.quant⟩ := by
  rw [CoefIndexOk, ← not_lt, ← not_lt, ← not_or] at hcoef
  exact (if_neg (mt (blockSizeCheck_iff _).1 (not_not.2 hblock))).trans ((if_neg hcoef).trans (if_pos h))

theorem command_dctConfig (o : Snapshot) (m : Memory) : command Config.params .dctConfig o m =
    unlessError (parameterError Config.params o)
      { config := some ⟨o.regs.blockSize, o.regs.coefIndex, o.regs.quant⟩ } := rfl

/-- A completion that sets the configuration makes it valid, and changes no byte and no other register (R226). -/
theorem complete_config (p : Params) (raced : Bool) (c : DctConfig) (s : State) :
    let t := complete p [] raced (.ok { config := some c }) s
    t.act = c ∧ t.status.dctValid = true ∧ t.status.outbufFull = s.status.outbufFull ∧ t.outDim0 = 0 ∧
      t.outDim1 = 0 ∧ SameMemory s t := by
  obtain ⟨hstatus, hact, -, -, hdim0, hdim1, -, -⟩ := complete_ok p [] raced s { config := some c }
  refine ⟨hact, ?_, ?_, hdim0, hdim1, ?_⟩
  · rw [hstatus]
    exact Bool.or_true _
  · rw [hstatus]
    rfl
  · cases raced <;> exact fun _ => rfl

/-- Settles O33: DCT.CONFIG has no region; the block size is checked first, then the index, then the factor. -/
theorem dctConfigValidatesAndCopies : Obligations.DctConfigValidatesAndCopies := by
  refine ⟨rfl, fun s job hbusy => ?_⟩
  intro b k q blockOk coefOk
  have hcmd := command_dctConfig job.snap s.mem
  have hends (x : CmdError) (hx : parameterError Config.params job.snap = some x) :
      EndsWith .dctConfig s x.code x.info0 x.info1 :=
    endsWith_of_command_error hbusy (.inr rfl) (by rw [hcmd, hx, unlessError_some])
  refine ⟨fun ⟨hpow, hmax⟩ ⟨hlow, hhigh⟩ hq => ?_, fun hblock => ?_, fun hblock hcoef => ?_, fun hblock hcoef hq => ?_⟩
  · refine ⟨_, exec_busy _ hbusy, ?_⟩
    rw [hcmd, parameterError_eq_none.2 ⟨hpow, hmax, hlow, hhigh, hq⟩, unlessError_none]
    exact ⟨complete_ok_succeeds _ _ _ _ s, complete_config _ _ _ s⟩
  · exact hends _ (parameterError_of_bad_block hblock)
  · exact hends _ (parameterError_of_bad_coefIndex hblock hcoef)
  · exact hends _ (parameterError_of_nonpos_factor hblock hcoef hq)

end

end Sys2Proof.Machine

/-! The DCT Engine: clipping a sample and rounding it commute, and what DCT.EXTRACT does (spec/44_dct_engine.md). -/

namespace Sys2Proof.Machine

section
open Sys2Proof.Claim

/-! ### Samples -/

theorem roundInt_monotone (mode : TieMode) {d : Nat} (hd : 0 < d) : Monotone (roundInt mode · d) := by
  intro v w hvw
  have hneg (h : w < 0) : roundNat mode w.natAbs d ≤ roundNat mode v.natAbs d := roundNat_mono mode hd (by omega)
  have hnonneg (h : 0 ≤ v) : roundNat mode v.natAbs d ≤ roundNat mode w.natAbs d := roundNat_mono mode hd (by omega)
  simp only [roundInt]
  split_ifs <;> omega

theorem clip_eq_max_min {lo hi : Int} (h : lo ≤ hi) (v : Int) : clip v lo hi = max lo (min hi v) := by
  rw [clip]
  split_ifs <;> omega

/-- Whole bounds are left by rounding, which keeps the order: clipping may come before or after it (R263). -/
theorem roundInt_clip (mode : TieMode) (v : Int) {lo hi : Int} (h : lo ≤ hi) {d : Nat} (hd : 0 < d) :
    roundInt mode (clip v (lo * d) (hi * d)) d = clip (roundInt mode v d) lo hi := by
  have hmono := roundInt_monotone mode hd
  have hscaled : lo * d ≤ hi * d := mul_le_mul_of_nonneg_right h (Int.natCast_nonneg d)
  rw [clip_eq_max_min h, clip_eq_max_min hscaled, hmono.map_max, hmono.map_min, roundInt_mul mode lo hd,
    roundInt_mul mode hi hd]

/-- A value clipped to a byte's range is held by a byte. -/
theorem toNat_ofInt_clip (v : Int) : ((BitVec.ofInt 8 (clip v 0 255)).toNat : Int) = clip v 0 255 := by
  rw [BitVec.toNat_ofInt, clip_eq_max_min (by decide)]
  omega

/-- Settles O42: the bounds 0 and 255 are whole numbers of `f64One`. -/
theorem clippingCommutesWithRounding : Obligations.ClippingCommutesWithRounding := by
  intro mode x _
  have hcomm := roundInt_clip mode (f64Int x) (lo := 0) (hi := 255) (by decide) f64One_pos
  rw [zero_mul, ← rnd] at hcomm
  rw [toSample, hcomm, toNat_ofInt_clip, and_self]

/-! ### The first block that faults -/

/-- The search through the blocks in scan order answers for the smallest one that has an answer (R268, R276). -/
theorem findSome?_range_of_first {α : Type} {f : Nat → Option α} {n i : Nat} {x : α} (hi : i < n)
    (hfirst : ∀ j < i, f j = none) (hx : f i = some x) : (List.range n).findSome? f = some x := by
  have hbefore : (List.range i).findSome? f = none :=
    List.findSome?_eq_none_iff.2 fun j hj => hfirst j (List.mem_range.1 hj)
  have hupto : (List.range (i + 1)).findSome? f = some x := by
    rw [List.range_succ, List.findSome?_append, hbefore, Option.none_or, List.findSome?_singleton, hx]
  obtain ⟨k, rfl⟩ := Nat.exists_eq_add_of_le (Nat.succ_le_of_lt hi)
  rw [List.range_add, List.findSome?_append, hupto, Option.some_or]

/-- Every target coefficient finite: no fault (R276). -/
theorem extractCollaboratorError_of_finite {p : Params} {s : State} {o : Snapshot}
    (h : ∀ i < blocks o, f64Finite (targetOf p s o o.regs.srcAddr.toNat i) = true) :
    extractCollaboratorError p o s.mem = none :=
  List.findSome?_eq_none_iff.2 fun i hi => if_neg (Bool.not_eq_false _ ▸ h i (List.mem_range.1 hi))

/-- The smallest block whose target coefficient is not finite faults (R276). -/
theorem extractCollaboratorError_of_first {p : Params} {s : State} {o : Snapshot} {i : Nat} (hi : i < blocks o)
    (hfirst : ∀ j < i, f64Finite (targetOf p s o o.regs.srcAddr.toNat j) = true)
    (hbad : f64Finite (targetOf p s o o.regs.srcAddr.toNat i) = false) :
    extractCollaboratorError p o s.mem = some ⟨.collaboratorFault, wordOf i, 0⟩ :=
  findSome?_range_of_first hi (fun j hj => if_neg (Bool.not_eq_false _ ▸ hfirst j hj)) (if_pos hbad)

/-! ### DCT.EXTRACT -/

/-- The checks of DCT.EXTRACT in order, then its message stored (R274). -/
theorem command_dctExtract (s : State) (o : Snapshot) : command Config.params .dctExtract o s.mem =
    unlessError
      ((configError o).or <| (dctShapeError Config.params o).or <|
        (regionError Config.params (extractRegions o (rows o * cols o))).or <|
          extractCollaboratorError Config.params o s.mem)
      (storeMessage o.regs.msgAddr.toNat o.regs.msgLen.toNat (bitsToMessage
        ((List.range (blocks o)).map (extractedBit Config.params s o o.regs.srcAddr.toNat)))) := rfl

/-- Configured and with an accepted shape, a DCT command has its regions to check and what follows them (R176, R177). -/
theorem dctChecks_of_ready {o : Snapshot} (h : DctReady o) (rest : Option CmdError) :
    (configError o).or ((dctShapeError Config.params o).or rest) = rest := by
  obtain ⟨hvalid, hshape⟩ := h
  rw [configError_eq_none.2 hvalid, dctShapeError_eq_none.2 hshape, Option.none_or, Option.none_or]

/-- A command that reports the errors of a DCT command's configuration and shape first meets the claim about them. -/
theorem endsWith_dctChecks {i : Instr} {s : State} {job : Job} (hbusy : s.engine = .busy job) (hraced : job.raced = false)
    (hcmd : ∀ x, (configError job.snap).or (dctShapeError Config.params job.snap) = some x →
      command Config.params i job.snap s.mem = .error x) :
    (job.snap.dctValid = false → EndsWith i s .notConfigured 0 0) ∧
    (job.snap.dctValid = true → job.snap.regs.rank.toNat ≠ 2 → EndsWith i s .invalidShape job.snap.regs.rank 1) ∧
    (job.snap.dctValid = true → job.snap.regs.rank.toNat = 2 → 2 ^ 32 ≤ rows job.snap * cols job.snap →
      EndsWith i s .invalidShape 2 2) := by
  have hends (x : CmdError) (h : (configError job.snap).or (dctShapeError Config.params job.snap) = some x) :
      EndsWith i s x.code x.info0 x.info1 := endsWith_of_command_error hbusy (.inl hraced) (hcmd x h)
  have hconfigured (hvalid : job.snap.dctValid = true) {x : CmdError}
      (h : dctShapeError Config.params job.snap = some x) : EndsWith i s x.code x.info0 x.info1 :=
    hends x (by rw [configError_eq_none.2 hvalid, Option.none_or, h])
  refine ⟨fun hvalid => ?_, fun hvalid hrank => ?_, fun hvalid hrank hsamples => ?_⟩
  · exact hends ⟨.notConfigured, 0, 0⟩ (by rw [configError_of_unconfigured hvalid, Option.some_or])
  · exact hconfigured hvalid (dctShapeError_of_rank_ne_two hrank)
  · exact hconfigured hvalid (dctShapeError_of_too_many_samples hrank hsamples)

/-- Settles O44: the checks of DCT.EXTRACT in order, the collaborator's fault last, then `storeMessage` of what its blocks'
bits decode to. -/
theorem dctExtractReadsTheMessage : Obligations.DctExtractReadsTheMessage := by
  refine ⟨rfl, fun s job hbusy hraced => ?_⟩
  extract_lets p o src n
  have hcmd := command_dctExtract s o
  have hready (h : DctReady o) := hcmd.trans (congrArg (unlessError · _) (dctChecks_of_ready h _))
  obtain ⟨hconfig, hrank, hsamples⟩ := endsWith_dctChecks (i := .dctExtract) hbusy hraced fun x hx => by
    rw [hcmd, ← Option.or_assoc, hx, Option.some_or, unlessError_some]
  refine ⟨fun h hregions => ?_, hconfig, hrank, hsamples, fun h => ?_⟩
  · refine ⟨_, exec_busy .dctExtract hbusy, ?_⟩
    rw [hready h, regionError_extractRegions_eq_none hregions, Option.none_or, hraced]
    refine ⟨fun hfinite => ?_, fun i hi hfirst hbad => ?_⟩
    · rw [extractCollaboratorError_of_finite hfinite, unlessError_none]
      exact complete_storeMessage_stores ..
    · rw [extractCollaboratorError_of_first hi hfirst hbad, unlessError_some]
      exact complete_error_fails ..
  · refine extractRegionErrors_of_command hbusy hraced fun x hx => ?_
    rw [hready h, hx, Option.some_or, unlessError_some]

end

end Sys2Proof.Machine

/-! Issue, overrun and precise errors: what a host write to CMD does, how CMD_OVERRUN falls, and what a completion with an error
leaves alone (spec/60_exceptions.md R300, R304, R313). -/

namespace Sys2Proof.Machine

section
open Sys2Proof.Claim

/-! ### A host write of a register -/

/-- Every register of the window is at an offset a 32-bit transaction may name (10_state.md R31, R32). -/
theorem transactionRefusal_regOffset (r : Reg) : transactionRefusal 32 (regOffset r) = none := by cases r <;> rfl

/-- A 32-bit host write at a register's offset is the write of that register, and the host moves on. -/
theorem step_of_hostRuns_wr {s : State} {r : Reg} {v : HostVal} {w : Word} (hruns : HostRuns s (.wr 32 (regOffset r) v))
    (hval : hostValue s v = some w) : step s = .next (advance (writeReg Config.params (takeTurn s) r w)) := by
  have hval' : hostValue (takeTurn s) v = some w := hval
  simp only [step_of_hostRuns hruns, hostExec, transactionRefusal_regOffset, hval', writeAt, regAt_regOffset]

/-! ### Issue -/

/-- An issue clears DONE and ERR, so IRQ is low whatever IRQ_EN is (60_exceptions.md R300). -/
@[simp] theorem irq_issue (s : State) (w : Word) : irq (issue s w) = false := Bool.and_false _

/-- Settles O9: the host's write is the issue of the word, each field of which is known. -/
theorem cmdWriteIssuesTheCommand : Obligations.CmdWriteIssuesTheCommand := by
  intro s v w hidle hruns hval
  have hnotBusy : isBusy (takeTurn s) = false := congrArg engineBusy hidle
  have hstep : step s = .next (advance (issue (takeTurn s) w)) := by
    rw [step_of_hostRuns_wr (r := .cmd) hruns hval, writeReg_cmd_of_not_busy _ w hnotBusy]
  refine ⟨_, hstep, ?_⟩
  simp [takeSnapshot, isBusy, engineBusy, statusIssue, passed]

/-! ### Overrun -/

/-- A CMD write while BUSY is dropped and flagged (60_exceptions.md R304). -/
theorem writeReg_cmd_of_busy (p : Params) {s : State} {job : Job} (w : Word) (h : s.engine = .busy job) :
    writeReg p s .cmd w = overrun s := if_pos (congrArg engineBusy h)

/-- Only a write to CTRL, STATUS or CMD reaches STATUS (10_state.md R40). -/
theorem writeReg_status_of_ne (p : Params) (s : State) {r : Reg} (w : Word) (hctrl : r ≠ .ctrl) (hstatus : r ≠ .status)
    (hcmd : r ≠ .cmd) : (writeReg p s r w).status = s.status := by
  cases r
  case ctrl => exact absurd rfl hctrl
  case status => exact absurd rfl hstatus
  case cmd => exact absurd rfl hcmd
  all_goals rfl

/-- A register write clears CMD_OVERRUN by bit 5 of STATUS or by a soft reset, and in no other way (60_exceptions.md R304). -/
theorem writeReg_clears_cmdOverrun {p : Params} {s : State} {r : Reg} {w : Word} (hset : s.status.cmdOverrun = true)
    (hclear : (writeReg p s r w).status.cmdOverrun = false) :
    (r = .status ∧ w.getLsbD 5 = true) ∨ writeReg p s r w = resetMachine p s := by
  have hchanged : (writeReg p s r w).status ≠ s.status := fun h => by simp [h, hset] at hclear
  by_cases hctrl : r = .ctrl
  · subst hctrl
    cases hreset : w.getLsbD 0 with
    | true => exact .inr (writeReg_ctrl_of_softReset p s hreset)
    | false => exact absurd (congrArg State.status (writeReg_ctrl_of_not_softReset p s hreset)) hchanged
  by_cases hstatus : r = .status
  · subst hstatus
    exact .inl ⟨rfl, by simpa [writeReg, statusWrite, hset] using hclear⟩
  by_cases hcmd : r = .cmd
  · subst hcmd
    cases hengine : s.engine with
    | idle => simp [writeReg_cmd_of_not_busy p w (congrArg engineBusy hengine), statusIssue, hset] at hclear
    | busy job => simp [writeReg_cmd_of_busy p w hengine, statusOverrun] at hclear
  · exact absurd (writeReg_status_of_ne p s w hctrl hstatus hcmd) hchanged

@[simp] theorem interfere_status (p : Params) (hits : List Region → Bool) (s : State) :
    (interfere p hits s).status = s.status := by
  obtain ⟨_, _, _, h, -⟩ := interfere_eq p hits s
  rw [h]

/-- A host statement clears CMD_OVERRUN as a write to STATUS with bit 5 set or as a reset (60_exceptions.md R304). -/
theorem HostEffect.clears_cmdOverrun {p : Params} {s u : State} {st : HostStmt} (h : HostEffect p s st u)
    (hset : s.status.cmdOverrun = true) (hclear : u.status.cmdOverrun = false) :
    (∃ v w, st = .wr 32 (regOffset .status) v ∧ hostValue s v = some w ∧ w.getLsbD 5 = true) ∨ u = resetMachine p s := by
  have hchanged : u.status ≠ s.status := fun h => by simp [h, hset] at hclear
  cases h with
  | quiet => exact absurd rfl hchanged
  | observe => exact absurd rfl hchanged
  | write r v w hval =>
    obtain ⟨rfl, hbit⟩ | hreset := writeReg_clears_cmdOverrun hset hclear
    · exact .inl ⟨v, w, rfl, hval, hbit⟩
    · exact .inr hreset
  | store => exact absurd (interfere_status ..) hchanged
  | load => exact absurd (interfere_status ..) hchanged
  | reset => exact .inr rfl

/-- A completion keeps CMD_OVERRUN, with an error and without (60_exceptions.md R302, R303). -/
@[simp] theorem complete_cmdOverrun (p : Params) (rs : List Region) (raced : Bool) (r : CmdResult) (s : State) :
    (complete p rs raced r s).status.cmdOverrun = s.status.cmdOverrun := by
  cases r with
  | ok e => rw [(complete_ok ..).1, statusDone]
  | error x => rw [(complete_error ..).1, statusError]

/-- Settles O10: the write is the overrun; of all a step can do, only a host statement clears the flag. -/
theorem cmdWriteWhileBusyOnlyOverruns : Obligations.CmdWriteWhileBusyOnlyOverruns := by
  refine ⟨fun s v w job hbusy hruns hval => ⟨?_, rfl⟩, fun s t hstep hset hclear => ?_⟩
  · rw [step_of_hostRuns_wr (r := .cmd) hruns hval, writeReg_cmd_of_busy (s := takeTurn s) _ w hbusy]
    rfl
  · obtain rfl | ⟨-, job, -, rfl⟩ | ⟨hturn, st, u, hst, heffect, -, -, ht⟩ := step_next hstep
    · simp [hset] at hclear
    · simp [completed, hset] at hclear
    · have hclear' : u.status.cmdOverrun = false := congrArg (·.status.cmdOverrun) ht ▸ hclear
      obtain ⟨v, w, rfl, hval, hbit⟩ | rfl := heffect.clears_cmdOverrun hset hclear'
      · exact .inl ⟨v, w, ⟨hturn, hst⟩, hval, hbit⟩
      · rw [ht]
        exact .inr ⟨hturn, rfl, rfl, rfl⟩

/-! ### Precise errors -/

/-- An illegal word's meaning completes the command in progress with ILLEGAL_COMMAND (30_encoding.md R114). -/
theorem performIllegal_next {p : Params} {s t : State} (h : performIllegal p s = .next t) :
    ∃ job, s.engine = .busy job ∧ t = complete p [] job.raced (.error ⟨.illegalCommand, job.word, 0⟩) s := by
  rw [performIllegal] at h
  split at h
  case h_1 => cases h
  case h_2 job hbusy =>
    cases h
    exact ⟨job, hbusy, rfl⟩

/-- A completion that raises ERR is one with an error, since one without leaves ERR as it was (60_exceptions.md R302). -/
theorem eq_error_of_complete_err {p : Params} {rs : List Region} {raced : Bool} {r : CmdResult} {s : State}
    (hclear : s.status.err = false) (herr : (complete p rs raced r s).status.err = true) : ∃ x, r = .error x := by
  cases r with
  | ok e => simp [(complete_ok_succeeds p rs raced e s).err, hclear] at herr
  | error x => exact ⟨x, rfl⟩

/-- Settles O12: a command and an illegal word end in one completion, which with an error writes nothing but the error. -/
theorem errorsArePrecise : Obligations.ErrorsArePrecise := by
  intro i s t hfree hclear hnext herr
  have hcomplete : ∃ rs r, t = complete Config.params rs false r s ∧ ∀ x, r = .error x → x.code ≠ .none := by
    obtain h | h := hnext
    · obtain ⟨job, hbusy, rfl⟩ := exec_next h
      exact ⟨_, _, by rw [hfree job hbusy], fun x => command_error_code⟩
    · obtain ⟨job, hbusy, rfl⟩ := performIllegal_next h
      exact ⟨_, _, by rw [hfree job hbusy], by rintro x ⟨⟩ ⟨⟩⟩
  obtain ⟨rs, r, rfl, hcode⟩ := hcomplete
  obtain ⟨x, rfl⟩ := eq_error_of_complete_err hclear.err herr
  exact ⟨complete_error_fails _ rs x s, hcode x rfl, hclear.result0, hclear.result1, complete_mem_of_not_raced ..⟩

end

end Sys2Proof.Machine

/-! Operand writes while BUSY and the acknowledgement of a completion (spec/70_reset_and_hazards.md R363, R366). -/

namespace Sys2Proof.Machine

/-! ### Operand writes while BUSY -/

/-- A completion neither reads nor writes the operand registers: it commutes with any write to them (10_state.md R55). -/
theorem complete_update_regs (p : Params) (rs : List Region) (raced : Bool) (r : CmdResult) (s : State)
    (regs : OperandRegs) :
    complete p rs raced r { s with regs := regs } = { complete p rs raced r s with regs := regs } := by
  cases r <;> cases raced <;> rfl

/-- Settles O14: the command's result is of its snapshot and of data memory, and its completion commutes with the writes. -/
theorem operandWritesWhileBusyDoNotReachTheCommand : Obligations.OperandWritesWhileBusyDoNotReachTheCommand := by
  intro i s t job regs hbusy hnext
  have hbusy' : { s with regs := regs }.engine = .busy job := hbusy
  rw [exec_busy i hbusy] at hnext
  cases hnext
  rw [exec_busy i hbusy', complete_update_regs]

/-! ### Acknowledging and masking -/

/-- A write to STATUS that writes 1 to each of DONE and ERR that is set leaves neither, so IRQ is low (10_state.md R35, R43). -/
theorem irq_writeReg_status_of_acknowledged (p : Params) {s : State} {v : Word}
    (hdone : s.status.done = true → v.getLsbD 1 = true) (herr : s.status.err = true → v.getLsbD 2 = true) :
    irq (writeReg p s .status v) = false := by
  have hdone' : (writeReg p s .status v).status.done = false :=
    Bool.and_eq_false_imp.2 fun h => congrArg not (hdone h)
  have herr' : (writeReg p s .status v).status.err = false :=
    Bool.and_eq_false_imp.2 fun h => congrArg not (herr h)
  simp [irq, hdone', herr']

/-- A write to CTRL with IRQ_EN = 0 masks IRQ (10_state.md R35, R42). -/
theorem irq_writeReg_ctrl_of_masked (p : Params) (s : State) {v : Word} (hreset : v.getLsbD 0 = false)
    (hmask : v.getLsbD 1 = false) : irq (writeReg p s .ctrl v) = false := by
  rw [writeReg_ctrl_of_not_softReset p s hreset, hmask]
  exact Bool.false_and _

/-- The acknowledgement is the write of ACK's word to STATUS (30_encoding.md R123). -/
theorem acknowledge_eq_writeReg (p : Params) (s : State) : acknowledge s = writeReg p s .status 0x26 := rfl

/-- Settles O53: ACK's word has the bits of DONE and of ERR set. -/
theorem acknowledgeLowersIrq : Obligations.AcknowledgeLowersIrq := by
  intro s v
  have hack : irq (acknowledge s) = false := by
    rw [acknowledge_eq_writeReg Config.params]
    exact irq_writeReg_status_of_acknowledged _ (fun _ => rfl) (fun _ => rfl)
  exact ⟨irq_writeReg_status_of_acknowledged _, irq_writeReg_ctrl_of_masked _ s, hack, acknowledge_eq_writeReg _ s⟩

end Sys2Proof.Machine

/-! The encoding, whose turn it is, and that every issued command ends (spec/30_encoding.md; spec/60_exceptions.md R301, R305). -/

namespace Sys2Proof.Machine

section
open Sys2Proof.Claim

/-! ### Encoding -/

/-- Settles O2: a row of the opcode map is its command's encoding, and every encoding has its row. -/
theorem decodeAndEncodeAgree : Obligations.DecodeAndEncodeAgree := fun _ _ => decode_eq_instr_iff

/-- Settles O3: the five words are the encodings of their commands. -/
theorem wordsDecodeToTheirCommands : Obligations.WordsDecodeToTheirCommands :=
  ⟨decode_encode .lsbEmbed, decode_encode .c2b, decode_encode .qembed, decode_encode .dctCapacity,
    decode_encode .dctConfig⟩

/-! ### The engine's turn -/

/-- The engine's turn is its command's meaning, in every build (60_exceptions.md R301). -/
theorem stepIn_of_decode (p : Params) {s : State} {job : Job} {i : Instr} (hbusy : s.engine = .busy job)
    (hturn : nextAgent s = .engine) (hdecode : decode job.word = .instr i) : stepIn p s = execIn p i (takeTurn s) := by
  simp only [stepIn, stepWith, hturn, engineStepWith, fetch, takeTurn_engine, hbusy, hdecode]

theorem step_of_decode {s : State} {job : Job} {i : Instr} (hbusy : s.engine = .busy job)
    (hturn : nextAgent s = .engine) (hdecode : decode job.word = .instr i) : step s = exec i (takeTurn s) := by
  rw [step_eq_stepIn, stepIn_of_decode _ hbusy hturn hdecode, exec_eq_execIn]

/-- Settles O5: both dispatches perform the command in progress, which completes. -/
theorem stepRunsTheDecodedCommand : Obligations.StepRunsTheDecodedCommand := by
  refine ⟨fun s job i hbusy hturn hdecode => ⟨step_of_decode hbusy hturn hdecode, fun p => ?_⟩, exec_eq_execIn,
    congrFun step_eq_stepIn⟩
  have hstep := stepIn_of_decode p hbusy hturn hdecode
  have hbusy' : (takeTurn s).engine = .busy job := hbusy
  exact ⟨hstep, _, hstep.trans (execIn_busy p i hbusy'), complete_engine ..⟩

theorem tableWord_toNat (w : Word) : tableWord 32 w.toNat = w := by
  rw [tableWord, Nat.mod_eq_of_lt w.isLt, BitVec.ofNat_toNat, BitVec.setWidth_eq]

/-- Settles O6: the placed word is in progress, and the placed turn is the engine's. -/
theorem fetchWordIsRunNext : Obligations.FetchWordIsRunNext := by
  intro s i
  have hbusy : (s.withFetchWord 32 (encode i).toNat).engine = .busy ⟨encode i, takeSnapshot s, false⟩ :=
    congrArg (fun w => Engine.busy ⟨w, takeSnapshot s, false⟩) (tableWord_toNat (encode i))
  exact ⟨_, step_of_decode hbusy rfl (decode_encode i), hbusy, rfl, rfl⟩

/-! ### Turns -/

theorem step_of_engine_idle {s : State} (hturn : nextAgent s = .engine) (hidle : s.engine = .idle) :
    step s = .next (takeTurn s) := by
  rw [step_engine hturn, engineStep_idle (s := takeTurn s) hidle]

theorem step_of_host_done {s : State} (hturn : nextAgent s = .host) (hdone : s.host.program[s.host.pc]? = none) :
    step s = .next (takeTurn s) := by
  simp only [step_host hturn, hostStep, takeTurn_host, hdone]

theorem nextAgent_of_no_turns {s : State} (h : s.turns = []) :
    nextAgent s = if isBusy s then .engine else .host := by rw [nextAgent, h]

/-- Settles O7: `nextAgent` is the head of the schedule, and an agent with nothing to do passes. -/
theorem turnIsTakenAsScheduled : Obligations.TurnIsTakenAsScheduled := by
  refine ⟨fun s h hbusy => ?_, fun s h hidle => ?_, fun s a as h => ?_, fun s => step_of_engine_idle,
    fun s => step_of_host_done⟩
  · rw [nextAgent_of_no_turns h, if_pos hbusy]
  · rw [nextAgent_of_no_turns h, hidle]
    rfl
  · rw [nextAgent, h]

/-! ### Every issued command ends -/

/-- A step uses up one turn. -/
theorem step_turns {s t : State} (h : step s = .next t) : t.turns = s.turns.tail := by
  obtain rfl | ⟨-, job, -, rfl⟩ | ⟨-, st, u, -, heffect, -, -, ht⟩ := step_next h
  · rfl
  · exact complete_turns ..
  · rw [ht]
    exact heffect.turns_eq

/-- The host's turn stops only where its statement has no meaning: at an address that does not exist, or for one of three
reasons of refusal (10_state.md R31, R32; 20_memory.md R80; 30_encoding.md R122). -/
theorem hostExec_stops {p : Params} {st : HostStmt} {s : State} :
    (∀ r, hostExec p st s = .fault r → r = .absentAddress) ∧
    ∀ r, hostExec p st s = .refused r → r = .badTransaction ∨ r = .outsideWindow ∨ r = .unassignedHostVar := by
  have hrefusal {n off : Nat} {r : Refusal} (h : transactionRefusal n off = some r) :
      r = .badTransaction ∨ r = .outsideWindow ∨ r = .unassignedHostVar := by
    rw [transactionRefusal] at h
    split_ifs at h <;> cases h
    · exact .inl rfl
    · exact .inr (.inl rfl)
  cases st with
  | wr n off v =>
    simp only [hostExec]
    split
    case h_1 r hr => exact ⟨nofun, fun _ h => by cases h; exact hrefusal hr⟩
    case h_2 =>
      split
      case h_1 => exact ⟨nofun, fun _ h => by cases h; exact .inr (.inr rfl)⟩
      case h_2 => exact ⟨nofun, nofun⟩
  | rd n off x =>
    simp only [hostExec]
    split
    case h_1 r hr => exact ⟨nofun, fun _ h => by cases h; exact hrefusal hr⟩
    case h_2 => exact ⟨nofun, nofun⟩
  | wait x => simp only [hostExec]; split_ifs <;> exact ⟨nofun, nofun⟩
  | waitIrq => simp only [hostExec]; split_ifs <;> exact ⟨nofun, nofun⟩
  | branchIf x bit target =>
    simp only [hostExec]
    split
    case h_1 => exact ⟨nofun, fun _ h => by cases h; exact .inr (.inr rfl)⟩
    case h_2 => exact ⟨nofun, nofun⟩
  | store a b =>
    simp only [hostExec]
    split_ifs
    · exact ⟨nofun, nofun⟩
    · exact ⟨fun _ h => by cases h; rfl, nofun⟩
  | load a x =>
    simp only [hostExec]
    split_ifs
    · exact ⟨nofun, nofun⟩
    · exact ⟨fun _ h => by cases h; rfl, nofun⟩
  | resetPin => exact ⟨nofun, nofun⟩

/-- A step of the host that stops does so at its statement. -/
theorem step_host_stops {s : State} (hturn : nextAgent s = .host) :
    (∀ r, step s = .fault r → r = .absentAddress) ∧
    ∀ r, step s = .refused r → r = .badTransaction ∨ r = .outsideWindow ∨ r = .unassignedHostVar := by
  cases hst : s.host.program[s.host.pc]? with
  | none => rw [step_of_host_done hturn hst]; exact ⟨nofun, nofun⟩
  | some st => rw [step_host_stmt hturn hst]; exact hostExec_stops

theorem coreRun_one (M : Host.Core) (s : M.State) : M.run 1 s = M.step s := by
  simp only [Host.Core.run]
  cases M.step s <;> rfl

theorem coreRun_succ_of_next (M : Host.Core) {s t : M.State} (k : Nat) (h : M.step s = .next t) :
    M.run (k + 1) s = M.run k t := by
  simp only [Host.Core.run, h]

/-- One step of the machine handed to the host is `step`. -/
theorem run_one (s : State) : core.run 1 s = step s := coreRun_one core s

/-- The engine moves next, or the schedule names the host and is one turn longer than what follows it. -/
theorem engine_or_host_turn {s : State} (hbusy : isBusy s = true) :
    nextAgent s = .engine ∨ nextAgent s = .host ∧ s.turns.length = s.turns.tail.length + 1 := by
  cases hturns : s.turns with
  | nil => rw [nextAgent_of_no_turns hturns, if_pos hbusy]; exact .inl rfl
  | cons a as => cases a <;> simp [nextAgent, hturns]

/-- Settles O8, by induction on the schedule: the engine's turn completes the command, a host's turn leaves a shorter schedule. -/
theorem everyIssuedCommandEnds : Obligations.EveryIssuedCommandEnds := by
  intro s hbusy
  induction hn : s.turns.length using Nat.strong_induction_on generalizing s with
  | _ n ih =>
  obtain hturn | ⟨hturn, hlen⟩ := engine_or_host_turn hbusy
  · cases hengine : s.engine with
    | idle => rw [isBusy, hengine] at hbusy; cases hbusy
    | busy job =>
      refine ⟨1, by omega, ?_⟩
      rw [run_one, step_engine_busy hturn hengine]
      exact complete_engine ..
  · obtain ⟨hfault, hrefused⟩ := step_host_stops hturn
    cases hstep : step s with
    | fault r => exact ⟨1, by omega, by rw [run_one, hstep]; exact hfault r hstep⟩
    | refused r => exact ⟨1, by omega, by rw [run_one, hstep]; exact hrefused r hstep⟩
    | next t =>
      cases hengine : t.engine with
      | idle => exact ⟨1, by omega, by rw [run_one, hstep]; exact hengine⟩
      | busy job =>
        have hturns := congrArg List.length (step_turns hstep)
        obtain ⟨k, hk, hend⟩ := ih t.turns.length (by omega) t (congrArg engineBusy hengine) rfl
        exact ⟨k + 1, by omega, by rw [coreRun_succ_of_next core k hstep]; exact hend⟩

end

end Sys2Proof.Machine

/-! What every step keeps: the machine's invariant, memory inside the address space, the configuration (spec/10_state.md R43,
R47; 20_memory.md R80, R88; 70_reset_and_hazards.md R361, R365). -/

namespace Sys2Proof.Machine

section
open Sys2Proof.Claim

/-! ### What a register write can do -/

/-- STATUS after a write that issues nothing and resets nothing: as it was, acknowledged or overrun (10_state.md R43;
60_exceptions.md R304). -/
def StatusAfterWrite (w : Word) (f f' : Status) : Prop := f' = f ∨ f' = statusWrite w f ∨ f' = statusOverrun f

/-- A register write resets the machine, or issues a command to an IDLE engine, or updates CTRL, STATUS and the operand registers
alone. -/
theorem writeReg_cases (p : Params) (s : State) (r : Reg) (w : Word) :
    writeReg p s r w = resetMachine p s ∨
    (isBusy s = false ∧ writeReg p s r w = issue s w) ∨
    ∃ irqEn regs f, StatusAfterWrite w s.status f ∧
      writeReg p s r w = { s with irqEn := irqEn, regs := regs, status := f } := by
  cases r
  case ctrl =>
    cases hreset : w.getLsbD 0 with
    | true => exact .inl (writeReg_ctrl_of_softReset p s hreset)
    | false => exact .inr (.inr ⟨_, s.regs, _, .inl rfl, writeReg_ctrl_of_not_softReset p s hreset⟩)
  case status => exact .inr (.inr ⟨s.irqEn, s.regs, _, .inr (.inl rfl), rfl⟩)
  case cmd =>
    cases hbusy : isBusy s with
    | false => exact .inr (.inl ⟨rfl, writeReg_cmd_of_not_busy p w hbusy⟩)
    | true => exact .inr (.inr ⟨s.irqEn, s.regs, _, .inr (.inr rfl), if_pos hbusy⟩)
  all_goals exact .inr (.inr ⟨s.irqEn, _, s.status, .inl rfl, rfl⟩)

/-! ### What a completion computes -/

/-- The command in progress sets no configuration but a legal one (10_state.md R47). -/
theorem jobResult_config {job : Job} {m : Memory} {e : Effect} {c : DctConfig}
    (h : jobResult Config.params job m = .ok e) (hc : e.config = some c) : LegalConfig Config.params c := by
  rw [jobResult] at h
  split at h
  · exact command_config h hc
  · cases h

/-- The command in progress reports no error without a code (60_exceptions.md R311). -/
theorem jobResult_error_code {p : Params} {job : Job} {m : Memory} {x : CmdError} (h : jobResult p job m = .error x) :
    x.code ≠ .none := by
  rw [jobResult] at h
  split at h
  · exact command_error_code h
  · cases h
    exact ErrCode.noConfusion

/-! ### The invariant -/

/-- Settles O58: every field of the reset state is a literal. -/
theorem resetMeetsTheInvariant : Obligations.ResetMeetsTheInvariant :=
  ⟨⟨reset_memory_wf, tableWf_nil, rfl, nofun, nofun, nofun, fun _ => rfl, nofun⟩, nofun⟩

/-- The invariant of an IDLE machine says nothing about results or a snapshot. -/
theorem Inv.of_idle {s : State} (hidle : s.engine = .idle) (hmem : Memory.wf s.mem = true)
    (hvars : tableWf s.host.vars = true) (hdoneErr : (s.status.done && s.status.err) = false)
    (hcode : s.status.err = true → s.status.errCode ≠ .none)
    (hlegal : s.status.dctValid = true → LegalConfig Config.params s.act)
    (hzero : s.status.dctValid = false → s.act = ⟨0, 0, 0⟩) : Inv s := by
  refine ⟨hmem, hvars, hdoneErr, hcode, fun hbusy => ?_, hlegal, hzero, fun job hjob => ?_⟩
  · rw [isBusy, hidle] at hbusy
    cases hbusy
  · rw [hidle] at hjob
    cases hjob

/-- An update of what is none of the results and not STATUS. -/
theorem ResultsClear.of_update {s : State} (h : ResultsClear s) (irqEn : Bool) (regs : OperandRegs) (engine : Engine)
    (mem : Memory) (unobserved : List (List Region)) (freeCount : Nat) (host : HostState) (turns : List Agent) :
    ResultsClear { s with irqEn := irqEn, regs := regs, engine := engine, mem := mem, unobserved := unobserved,
                          freeCount := freeCount, host := host, turns := turns } :=
  ⟨h.done, h.err, h.outbufFull, h.errCode, h.result0, h.result1, h.errInfo0, h.errInfo1, h.outDim0, h.outDim1⟩

/-- An update of what the invariant does not speak of, and of memory and the host within it. -/
theorem Inv.of_update {s : State} (h : Inv s) (irqEn : Bool) (regs : OperandRegs) {mem : Memory}
    (unobserved : List (List Region)) (freeCount : Nat) {host : HostState} (turns : List Agent)
    (hmem : Memory.wf mem = true) (hvars : tableWf host.vars = true) :
    Inv { s with irqEn := irqEn, regs := regs, mem := mem, unobserved := unobserved, freeCount := freeCount,
                 host := host, turns := turns } := by
  obtain ⟨-, -, hdoneErr, hcode, hclear, hlegal, hzero, hsnap⟩ := h
  exact ⟨hmem, hvars, hdoneErr, hcode, fun hbusy => (hclear hbusy).of_update .., hlegal, hzero, hsnap⟩

/-- A write to STATUS may clear DONE and ERR, and an overrun touches neither (10_state.md R43). -/
theorem Inv.of_statusAfterWrite {s : State} {w : Word} {f : Status} (h : Inv s) (hf : StatusAfterWrite w s.status f) :
    Inv { s with status := f } := by
  have hdone : f.done = true → s.status.done = true := by
    obtain rfl | rfl | rfl := hf <;> simp +contextual [statusWrite, statusOverrun]
  have herr : f.err = true → s.status.err = true := by
    obtain rfl | rfl | rfl := hf <;> simp +contextual [statusWrite, statusOverrun]
  have hsame : f.dctValid = s.status.dctValid ∧ f.outbufFull = s.status.outbufFull ∧ f.errCode = s.status.errCode := by
    obtain rfl | rfl | rfl := hf <;> exact ⟨rfl, rfl, rfl⟩
  obtain ⟨hvalid, hfull, hcodeSame⟩ := hsame
  obtain ⟨hmem, hvars, hdoneErr, hcode, hclear, hlegal, hzero, hsnap⟩ := h
  refine ⟨hmem, hvars, ?_, fun he => hcodeSame ▸ hcode (herr he), fun hbusy => ?_, fun hv => hlegal (hvalid ▸ hv),
    fun hv => hzero (hvalid ▸ hv), fun job hj => hvalid ▸ hsnap job hj⟩
  · refine Bool.eq_false_iff.2 fun hboth => ?_
    obtain ⟨hd, he⟩ := Bool.and_eq_true_iff.1 hboth
    exact Bool.false_ne_true (hdoneErr.symm.trans (congrArg₂ and (hdone hd) (herr he)))
  · have hres := hclear hbusy
    exact ⟨Bool.eq_false_iff.2 fun hd => Bool.eq_false_iff.1 hres.done (hdone hd),
      Bool.eq_false_iff.2 fun he => Bool.eq_false_iff.1 hres.err (herr he), hfull.trans hres.outbufFull,
      hcodeSame.trans hres.errCode, hres.result0, hres.result1, hres.errInfo0, hres.errInfo1, hres.outDim0, hres.outDim1⟩

/-- Marking the command in progress as raced keeps its snapshot (20_memory.md R98). -/
theorem Inv.of_raced {s : State} {job : Job} (h : Inv s) (hbusy : s.engine = .busy job) (raced : Bool) :
    Inv { s with engine := .busy { job with raced := raced } } := by
  obtain ⟨hmem, hvars, hdoneErr, hcode, hclear, hlegal, hzero, hsnap⟩ := h
  refine ⟨hmem, hvars, hdoneErr, hcode, fun _ => ?_, hlegal, hzero, ?_⟩
  · exact (hclear (congrArg engineBusy hbusy)).of_update s.irqEn s.regs _ s.mem s.unobserved s.freeCount s.host s.turns
  · rintro _ ⟨⟩
    exact hsnap job hbusy

/-- An issue clears the results and takes the snapshot of the configuration there is (60_exceptions.md R300). -/
theorem Inv.issue {s : State} (h : Inv s) (w : Word) : Inv (issue s w) := by
  obtain ⟨hmem, hvars, -, -, -, hlegal, hzero, -⟩ := h
  refine ⟨hmem, hvars, rfl, nofun, fun _ => ⟨rfl, rfl, rfl, rfl, rfl, rfl, rfl, rfl, rfl, rfl⟩, hlegal, hzero, ?_⟩
  rintro _ ⟨⟩
  exact ⟨rfl, rfl⟩

theorem Inv.resetMachine {s : State} (p : Params) (h : Inv s) : Inv (resetMachine p s) :=
  .of_idle rfl (abort_wf p h.memCanonical) h.varsCanonical rfl nofun nofun fun _ => rfl

theorem Inv.writeReg {s : State} (p : Params) (h : Inv s) (r : Reg) (w : Word) : Inv (writeReg p s r w) := by
  obtain e | ⟨-, e⟩ | ⟨irqEn, regs, f, hf, e⟩ := writeReg_cases p s r w <;> rw [e]
  · exact h.resetMachine p
  · exact h.issue w
  · exact (h.of_statusAfterWrite hf).of_update irqEn regs _ _ _ h.memCanonical h.varsCanonical

theorem Inv.interfere {s : State} (p : Params) (hits : List Region → Bool) (h : Inv s) : Inv (interfere p hits s) := by
  obtain ⟨e, m, n, heq, hidle, hraced, hm⟩ := interfere_eq p hits s
  have hwf : Memory.wf m = true := by
    obtain ⟨rfl, -, -⟩ | ⟨as, rfl, -⟩ := hm
    · exact h.memCanonical
    · exact scramble_wf p as h.memCanonical
  have hengine : Inv { s with engine := e } := by
    cases hs : s.engine with
    | idle => rw [hidle hs, ← hs]; exact h
    | busy job => rw [hraced job hs]; exact h.of_raced hs _
  rw [heq]
  exact hengine.of_update s.irqEn s.regs s.unobserved n s.turns hwf h.varsCanonical

/-- One effect of the host keeps the invariant. -/
theorem Inv.hostEffect {p : Params} {s u : State} {st : HostStmt} (h : Inv s) (heffect : HostEffect p s st u) : Inv u := by
  have hwith {mem : Memory} (hmem : Memory.wf mem = true) (unobserved : List (List Region)) (n : Nat) :
      Inv { s with mem := mem, unobserved := unobserved, freeCount := n } :=
    h.of_update s.irqEn s.regs unobserved n s.turns hmem h.varsCanonical
  cases heffect with
  | quiet => exact h
  | observe => exact hwith h.memCanonical [] s.freeCount
  | write r v w => exact h.writeReg p r w
  | store a b => exact (hwith (memWrite_wf h.memCanonical a b) s.unobserved s.freeCount).interfere p _
  | load a x => exact (hwith h.memCanonical s.unobserved (s.freeCount + 1)).interfere p _
  | reset => exact h.resetMachine p

/-- A completion without error: DONE alone, and the configuration the command set or the one there was (60_exceptions.md R302). -/
theorem Inv.complete_ok {s : State} (p : Params) (rs : List Region) (raced : Bool) {e : Effect} (h : Inv s)
    (herr : s.status.err = false) (hconfig : ∀ c, e.config = some c → LegalConfig Config.params c) :
    Inv (complete p rs raced (.ok e) s) := by
  obtain ⟨hstatus, hact, -⟩ := Machine.complete_ok p rs raced s e
  have hends := complete_ok_succeeds p rs raced e s
  have herr' := hends.err.trans herr
  have hvalid : (complete p rs raced (.ok e) s).status.dctValid = (s.status.dctValid || e.config.isSome) := by
    rw [hstatus, statusDone]
  refine .of_idle hends.idle (complete_wf _ _ _ _ _ h.memCanonical) (hends.kept.host ▸ h.varsCanonical)
    (by rw [herr', Bool.and_false]) (fun he => absurd (herr'.symm.trans he) Bool.false_ne_true) ?_ ?_
  · rw [hvalid, hact]
    cases hc : e.config with
    | none => simpa using h.configLegal
    | some c => exact fun _ => hconfig c hc
  · rw [hvalid, hact]
    cases hc : e.config with
    | none => simpa using h.unconfigured
    | some c => simp

/-- A completion with an error: ERR alone, with its code (60_exceptions.md R303). -/
theorem Inv.complete_error {s : State} (p : Params) (rs : List Region) (raced : Bool) {x : CmdError} (h : Inv s)
    (hdone : s.status.done = false) (hcode : x.code ≠ .none) : Inv (complete p rs raced (.error x) s) := by
  obtain ⟨hstatus, hact, -⟩ := Machine.complete_error p rs raced s x
  refine .of_idle (complete_engine ..) (complete_wf _ _ _ _ _ h.memCanonical) ?_ ?_ ?_ ?_ ?_
  · rw [complete_host]
    exact h.varsCanonical
  · rw [hstatus, statusError, hdone, Bool.false_and]
  · rw [hstatus]
    exact fun _ => hcode
  · rw [hstatus, hact]
    exact h.configLegal
  · rw [hstatus, hact]
    exact h.unconfigured

theorem Inv.completed {s : State} {job : Job} (h : Inv s) (hbusy : s.engine = .busy job) :
    Inv (completed Config.params job s) := by
  have hclear := h.busyClear (congrArg engineBusy hbusy)
  rw [Machine.completed]
  cases hr : jobResult Config.params job s.mem with
  | ok e => exact h.complete_ok _ _ _ hclear.err fun c => jobResult_config hr
  | error x => exact h.complete_error _ _ _ hclear.done (jobResult_error_code hr)

theorem VarsAfter.wf {vars vars' : List (Nat × Word)} (h : VarsAfter vars vars') (hwf : tableWf vars = true) :
    tableWf vars' = true := by
  obtain rfl | ⟨x, v, rfl⟩ := h
  · exact hwf
  · exact tableWf_tableSet hwf x v

/-- Settles O59: the engine's completion and every effect of the host keep the invariant. -/
theorem everyStepKeepsTheInvariant : Obligations.EveryStepKeepsTheInvariant := by
  intro s t h hstep
  have hturn : Inv (takeTurn s) := h.of_update s.irqEn s.regs _ _ _ h.memCanonical h.varsCanonical
  obtain rfl | ⟨-, job, hbusy, rfl⟩ | ⟨-, st, u, -, heffect, -, hvars, ht⟩ := step_next hstep
  · exact hturn
  · exact hturn.completed hbusy
  · have hu := hturn.hostEffect heffect
    rw [ht]
    exact hu.of_update u.irqEn u.regs u.unobserved u.freeCount u.turns hu.memCanonical (hvars.wf h.varsCanonical)

/-! ### Memory inside the address space -/

theorem MemoryExists.scramble {s : State} (h : MemoryExists s) (as : List Nat) :
    MemoryExists (scramble Config.params as s) := by
  intro a ha
  rw [tableGet_scramble] at ha
  split_ifs at ha with hfree
  · exact hfree.2
  · exact h a ha

theorem MemoryExists.memWrite {s : State} (h : MemoryExists s) {a : Nat} (ha : addressExists Config.params a = true)
    (b : Byte) : MemoryExists { s with mem := memWrite s.mem a b } := by
  intro c hc
  rw [Machine.memWrite, tableGet_tableSet] at hc
  split_ifs at hc with heq
  · exact heq ▸ ha
  · exact h c hc

theorem MemoryExists.resetMachine {s : State} (h : MemoryExists s) : MemoryExists (resetMachine Config.params s) := by
  have hmem : (Machine.resetMachine Config.params s).mem = (abort Config.params s).mem := rfl
  rw [MemoryExists, hmem, abort]
  split
  · exact h
  · exact h.scramble _

theorem MemoryExists.writeReg {s : State} (h : MemoryExists s) (r : Reg) (w : Word) :
    MemoryExists (writeReg Config.params s r w) := by
  obtain e | ⟨-, e⟩ | ⟨irqEn, regs, f, -, e⟩ := writeReg_cases Config.params s r w <;> rw [e]
  · exact h.resetMachine
  · exact h
  · exact h

theorem MemoryExists.interfere {s : State} (h : MemoryExists s) (hits : List Region → Bool) :
    MemoryExists (interfere Config.params hits s) := by
  obtain ⟨e, m, n, heq, -, -, ⟨rfl, -, -⟩ | ⟨as, rfl, -⟩⟩ := interfere_eq Config.params hits s <;> rw [heq]
  · exact h
  · exact h.scramble as

theorem MemoryExists.hostEffect {s u : State} {st : HostStmt} (h : MemoryExists s)
    (heffect : HostEffect Config.params s st u) : MemoryExists u := by
  cases heffect with
  | quiet => exact h
  | observe => exact h
  | write r v w => exact h.writeReg r w
  | store a b ha => exact (h.memWrite ha b).interfere _
  | load a x => exact MemoryExists.interfere (s := { s with freeCount := s.freeCount + 1 }) h _
  | reset => exact h.resetMachine

/-- What a completion writes has passed the region check; an illegal word has no region (20_memory.md R88). -/
theorem MemoryExists.completed {s : State} (h : MemoryExists s) (job : Job) :
    MemoryExists (completed Config.params job s) := by
  intro a ha
  cases hdecode : decode job.word with
  | instr i =>
    rw [Machine.completed, jobRegions, jobResult, hdecode] at ha
    exact (addressExists_of_complete _ i job.snap job.raced s ha).elim (h a) id
  | reject r =>
    rw [completed_of_reject _ hdecode, complete] at ha
    cases hraced : job.raced <;> rw [hraced] at ha
    · exact h a ha
    · exact h.scramble _ a ha

/-- Settles O60: the engine writes admitted regions, the host existing addresses, and free bytes are drawn at existing
addresses. -/
theorem everyStepWritesOnlyExistingMemory : Obligations.EveryStepWritesOnlyExistingMemory := by
  intro s t h hstep
  have hturn : MemoryExists (takeTurn s) := h
  obtain rfl | ⟨-, job, -, rfl⟩ | ⟨-, st, u, -, heffect, -, -, ht⟩ := step_next hstep
  · exact hturn
  · exact hturn.completed job
  · have hu := hturn.hostEffect heffect
    rw [ht]
    exact hu

/-! ### The configuration -/

theorem StatusAfterWrite.dctValid {w : Word} {f f' : Status} (h : StatusAfterWrite w f f') : f'.dctValid = f.dctValid := by
  obtain rfl | rfl | rfl := h <;> rfl

/-- A host statement keeps the configuration or resets the machine (10_state.md R47). -/
theorem HostEffect.keepsConfig_or_reset {p : Params} {s u : State} {st : HostStmt} (h : HostEffect p s st u) :
    KeepsConfig s u ∨ u = resetMachine p s := by
  have hinterfere (hits : List Region → Bool) (v : State) : KeepsConfig v (interfere p hits v) := by
    obtain ⟨e, m, n, heq, -⟩ := interfere_eq p hits v
    rw [heq]
    exact ⟨rfl, rfl⟩
  cases h with
  | quiet => exact .inl ⟨rfl, rfl⟩
  | observe => exact .inl ⟨rfl, rfl⟩
  | write r v w =>
    obtain e | ⟨-, e⟩ | ⟨irqEn, regs, f, hf, e⟩ := writeReg_cases p s r w
    · exact .inr e
    · rw [e]; exact .inl ⟨rfl, rfl⟩
    · rw [e]; exact .inl ⟨rfl, hf.dctValid⟩
  | store a b =>
    obtain ⟨hact, hvalid⟩ := hinterfere (touches · a) { s with mem := memWrite s.mem a b }
    exact .inl ⟨hact, hvalid⟩
  | load a x =>
    obtain ⟨hact, hvalid⟩ := hinterfere (touchesOutput · a) { s with freeCount := s.freeCount + 1 }
    exact .inl ⟨hact, hvalid⟩
  | reset => exact .inr rfl

/-- Only DCT.CONFIG sets a configuration (10_state.md R47). -/
theorem config_eq_none_of_command_ok {p : Params} {i : Instr} {o : Snapshot} {m : Memory} {e : Effect}
    (hi : i ≠ .dctConfig) (h : command p i o m = .ok e) : e.config = none := by
  cases i
  case dctConfig => exact absurd rfl hi
  all_goals
    obtain ⟨-, rfl⟩ := unlessError_eq_ok.1 h
    rfl

theorem complete_error_keepsConfig (p : Params) (rs : List Region) (raced : Bool) (x : CmdError) (s : State) :
    KeepsConfig s (complete p rs raced (.error x) s) := by
  obtain ⟨hstatus, hact, -⟩ := complete_error p rs raced s x
  exact ⟨hact, by rw [hstatus, statusError]⟩

/-- A completion keeps the configuration, or is a successful DCT.CONFIG. -/
theorem completed_keepsConfig_or_config (p : Params) (job : Job) (s : State) :
    KeepsConfig s (completed p job s) ∨
      job.word = encode .dctConfig ∧ (completed p job s).status.done = true ∧ (completed p job s).status.dctValid = true := by
  rw [completed]
  cases hr : jobResult p job s.mem with
  | error x => exact .inl (complete_error_keepsConfig ..)
  | ok e =>
    cases hc : e.config with
    | none => exact .inl (complete_ok_keepsConfig _ _ _ _ hc)
    | some c =>
      rw [jobResult] at hr
      split at hr
      case h_1 i hdecode =>
        have hi : i = .dctConfig := by
          by_contra hi
          rw [config_eq_none_of_command_ok hi hr] at hc
          cases hc
        subst hi
        rw [(complete_ok ..).1, statusDone, hc, Option.isSome_some, Bool.or_true]
        exact .inr ⟨(encode_eq_of_decode hdecode).symm, rfl, rfl⟩
      case h_2 => cases hr

/-- Settles O18: of all a step can do, a successful DCT.CONFIG and a reset alone reach the configuration. -/
theorem onlyConfigAndResetChangeTheConfiguration : Obligations.OnlyConfigAndResetChangeTheConfiguration := by
  intro s t hstep
  obtain rfl | ⟨hturn, job, hbusy, rfl⟩ | ⟨hturn, st, u, -, heffect, -, -, ht⟩ := step_next hstep
  · exact .inl ⟨rfl, rfl⟩
  · obtain ⟨hact, hvalid⟩ | ⟨hword, hends⟩ := completed_keepsConfig_or_config Config.params job (takeTurn s)
    · exact .inl ⟨hact, hvalid⟩
    · refine .inr (.inl ⟨hturn, ?_, hends⟩)
      simp only [fetch, hbusy, hword]
      rfl
  · rw [ht]
    obtain ⟨hact, hvalid⟩ | rfl := heffect.keepsConfig_or_reset
    · exact .inl ⟨hact, hvalid⟩
    · exact .inr (.inr ⟨hturn, rfl, rfl, rfl, rfl, rfl⟩)

end

end Sys2Proof.Machine

/-! What a completion writes and what it leaves alone, over every command (spec/60_exceptions.md R302, R303, R311;
20_memory.md R87, R90). -/

namespace Sys2Proof.Machine

section
open Sys2Proof.Claim

/-! ### Completion of any command -/

/-- Settles O11: a completion without error sets DONE, one with an error sets ERR, and neither touches the other flag. -/
theorem everyCommandCompletesWithDoneOrErr : Obligations.EveryCommandCompletesWithDoneOrErr := by
  intro i s job hbusy hdone herr
  refine ⟨_, exec_busy i hbusy, complete_engine .., congrArg engineBusy (complete_engine ..), ?_⟩
  cases command Config.params i job.snap s.mem with
  | ok e =>
    have hends := complete_ok_succeeds Config.params (regionsOf Config.params i job.snap) job.raced e s
    exact .inl ⟨hends.done, hends.err.trans herr⟩
  | error x =>
    rw [(complete_error ..).1]
    exact .inr ⟨hdone, rfl⟩

/-- ERR_CODE as STATUS reads (10_state.md R43). -/
theorem extractLsb'_readReg_status (s : State) :
    (readReg Config.params s .status).extractLsb' 8 8 = errCodeBits s.status.errCode := by
  obtain ⟨-, -, -, -, -, -, hcode, -⟩ := statusWord_fields (isBusy s) s.status
  exact hcode

/-- Settles O13: STATUS shows the code's number, and a command's codes are those of its list. -/
theorem commandsReportOnlyTheirErrorCodes : Obligations.CommandsReportOnlyTheirErrorCodes := by
  refine ⟨fun s c hc => ?_, fun i s t hclear hnext => ?_⟩
  · rw [extractLsb'_readReg_status, hc]
    cases c <;> rfl
  · rw [extractLsb'_readReg_status]
    obtain hkept | hmem := exec_errCode hnext
    · rw [hkept, hclear]
      exact .inl rfl
    · right
      generalize t.status.errCode = c at hmem
      revert c
      cases i <;> decide

/-! ### Where a command writes -/

/-- A byte outside the output regions reads as before, raced or not (20_memory.md R90). -/
theorem memRead_complete_of_outside (p : Params) (i : Instr) (o : Snapshot) (raced : Bool) (s : State) {a : Nat}
    (ha : ∀ r ∈ regionsOf p i o, r.output = true → ¬ (r.base ≤ a ∧ a < r.base + r.len)) :
    memRead (complete p (regionsOf p i o) raced (command p i o s.mem) s).mem a = memRead s.mem a := by
  have hout : a ∉ outputAddrs (regionsOf p i o) := by
    rw [mem_outputAddrs]
    rintro ⟨r, hr, ho, hin⟩
    exact ha r hr ho hin
  rw [memRead, tableGet_complete_of_outside p i o raced s hout, memRead]

/-- A byte of an input region reads as before: a command without error has its output apart, one with an error writes nothing
(20_memory.md R89, R90). -/
theorem memRead_complete_of_input {p : Params} {i : Instr} {o : Snapshot} {r : Region} (hr : r ∈ regionsOf p i o)
    (hinput : r.output = false) (s : State) {a : Nat} (ha : r.base ≤ a ∧ a < r.base + r.len) :
    memRead (complete p (regionsOf p i o) false (command p i o s.mem) s).mem a = memRead s.mem a := by
  cases hcmd : command p i o s.mem with
  | error x => rw [complete_mem_of_not_raced]
  | ok e =>
    have hout := output_apart hcmd hr hinput ha
    rw [← hcmd, memRead, tableGet_complete_of_outside p i o false s hout, memRead]

/-! ### The listed regions -/

theorem hasSampleCount_iff (o : Snapshot) :
    hasSampleCount Config.params o = true ↔ 1 ≤ o.regs.rank.toNat ∧ o.regs.rank.toNat ≤ 4 := decide_eq_true_iff

/-- At a rank that names dimensions the samples are a region (10_state.md R44). -/
theorem sampleRegion_of_counted {o : Snapshot} (h : 1 ≤ o.regs.rank.toNat ∧ o.regs.rank.toNat ≤ 4) (id : RegionId)
    (base : Word) (output : Bool) :
    sampleRegion Config.params o id base output = [⟨id, base.toNat, samples o, output⟩] :=
  if_pos ((hasSampleCount_iff o).2 h)

/-- At any other rank there is no sample region (log 9). -/
theorem sampleRegion_of_not_counted {o : Snapshot} (h : ¬ (1 ≤ o.regs.rank.toNat ∧ o.regs.rank.toNat ≤ 4)) (id : RegionId)
    (base : Word) (output : Bool) : sampleRegion Config.params o id base output = [] :=
  if_neg (mt (hasSampleCount_iff o).1 h)

theorem eq_of_mem_sampleRegion {p : Params} {o : Snapshot} {id : RegionId} {base : Word} {output : Bool} {r : Region}
    (h : r ∈ sampleRegion p o id base output) : r = ⟨id, base.toNat, sampleCount o, output⟩ := by
  rw [sampleRegion] at h
  split at h
  · exact List.mem_singleton.1 h
  · exact absurd h List.not_mem_nil

/-- The regions of LSB.EMBED, whatever its rank (42_lsb.md R200). -/
theorem eq_of_mem_regionsOf_lsbEmbed {p : Params} {o : Snapshot} {r : Region} (h : r ∈ regionsOf p .lsbEmbed o) :
    r = sourceRegion o (samples o) ∨ r = embeddedRegion o (samples o) ∨ r = messageRegion o false := by
  obtain h | h := List.mem_append.1 h
  · exact (List.mem_append.1 h).imp eq_of_mem_sampleRegion fun h => .inl (eq_of_mem_sampleRegion h)
  · exact .inr (.inr (List.mem_singleton.1 h))

/-- The regions of LSB.EXTRACT, whatever its rank (42_lsb.md R203). -/
theorem eq_of_mem_regionsOf_lsbExtract {p : Params} {o : Snapshot} {r : Region} (h : r ∈ regionsOf p .lsbExtract o) :
    r = sourceRegion o (samples o) ∨ r = messageRegion o true :=
  (List.mem_append.1 h).imp eq_of_mem_sampleRegion List.mem_singleton.1

/-- Every region has a register's value as its base (20_memory.md R87). -/
theorem base_lt_of_mem_regionsOf (p : Params) (i : Instr) (o : Snapshot) : ∀ r ∈ regionsOf p i o, r.base < 2 ^ 32 := by
  have hword (w : Word) : w.toNat < 4294967296 := w.isLt
  cases i
  case lsbEmbed =>
    intro r hr
    obtain rfl | rfl | rfl := eq_of_mem_regionsOf_lsbEmbed hr <;> exact hword _
  case lsbExtract =>
    intro r hr
    obtain rfl | rfl := eq_of_mem_regionsOf_lsbExtract hr <;> exact hword _
  all_goals simp [regionsOf, messageRegion, hword]

/-- With the default border DCT.EMBED's output has the shape of its input (44_dct_engine.md R266, R270). -/
theorem outRows_default (o : Snapshot) : outRows Config.params o = rows o := rfl

theorem outCols_default (o : Snapshot) : outCols Config.params o = cols o := rfl

/-- The regions are those the rules list (20_memory.md R87). -/
theorem map_asListed_regionsOf {i : Instr} {o : Snapshot}
    (h : (1 ≤ o.regs.rank.toNat ∧ o.regs.rank.toNat ≤ 4) ∨ i ∉ [Instr.lsbEmbed, .lsbExtract]) :
    (regionsOf Config.params i o).map asListed = listedRegions i o := by
  have hsource {id : RegionId} {base : Word} {output : Bool} (hi : i ∈ [Instr.lsbEmbed, .lsbExtract]) :
      sampleRegion Config.params o id base output = [⟨id, base.toNat, samples o, output⟩] :=
    sampleRegion_of_counted (h.resolve_right (not_not.2 hi)) id base output
  cases i
  case lsbEmbed => simp [regionsOf, hsource, messageRegion, asListed, listedRegions, regionCode]
  case lsbExtract => simp [regionsOf, hsource, messageRegion, asListed, listedRegions, regionCode]
  case m2b => simp [regionsOf, messageRegion, asListed, listedRegions, regionCode, packedBytes]
  case b2m => simp [regionsOf, messageRegion, asListed, listedRegions, regionCode, packedBytes]
  case dctEmbed =>
    simp [regionsOf, messageRegion, asListed, listedRegions, regionCode, height, width, rows, cols, outRows_default,
      outCols_default]
  case dctExtract => simp [regionsOf, messageRegion, asListed, listedRegions, regionCode, height, width, rows, cols]
  all_goals rfl

/-- Where the rank names no dimensions the LSB commands have their message buffer alone (log 9). -/
theorem map_asListed_regionsOf_of_not_counted {i : Instr} {o : Snapshot}
    (h : ¬ (1 ≤ o.regs.rank.toNat ∧ o.regs.rank.toNat ≤ 4)) (hi : i ∈ [Instr.lsbEmbed, .lsbExtract]) :
    (regionsOf Config.params i o).map asListed = (listedRegions i o).filter (·.1 == 3) := by
  have hnone {id : RegionId} {base : Word} {output : Bool} : sampleRegion Config.params o id base output = [] :=
    sampleRegion_of_not_counted h id base output
  obtain rfl | rfl : i = .lsbEmbed ∨ i = .lsbExtract := by simpa using hi
  · simp [regionsOf, hnone, messageRegion, asListed, listedRegions, regionCode]
  · simp [regionsOf, hnone, messageRegion, asListed, listedRegions, regionCode]

theorem jobRegions_of_instr (p : Params) {job : Job} {i : Instr} (h : decode job.word = .instr i) :
    jobRegions p job = regionsOf p i job.snap := by simp only [jobRegions, h]

theorem jobRegions_of_reject (p : Params) {job : Job} {r : Reject} (h : decode job.word = .reject r) :
    jobRegions p job = [] := by simp only [jobRegions, h]

/-- Settles O15: the frame of a completion, and the regions written out. -/
theorem commandsWriteOnlyTheirOutputRegions : Obligations.CommandsWriteOnlyTheirOutputRegions := by
  refine ⟨fun i s t job hbusy hraced hclear hnext => ?_, fun i o => ?_,
    fun job => ⟨fun i => jobRegions_of_instr _, fun r => jobRegions_of_reject _⟩⟩
  · rw [exec_busy i hbusy, hraced] at hnext
    cases hnext
    refine ⟨fun a => memRead_complete_of_outside _ i job.snap false s, fun herr a => ?_, fun r hr hinput a hlow hhigh =>
      memRead_complete_of_input hr hinput s ⟨hlow, hhigh⟩⟩
    obtain ⟨x, hx⟩ := eq_error_of_complete_err hclear herr
    rw [hx, complete_mem_of_not_raced]
  · exact ⟨map_asListed_regionsOf, map_asListed_regionsOf_of_not_counted, base_lt_of_mem_regionsOf _ i o⟩

/-! ### The frame of a completion -/

theorem complete_kept (p : Params) (rs : List Region) (raced : Bool) (r : CmdResult) (s : State) :
    Kept s (complete p rs raced r s) := ⟨by simp, by simp, by simp, by simp, by simp⟩

/-- A command other than DCT.CONFIG keeps the configuration (10_state.md R47). -/
theorem complete_command_keepsConfig {i : Instr} (hi : i ≠ .dctConfig) (p : Params) (rs : List Region) (raced : Bool)
    (o : Snapshot) (m : Memory) (s : State) : KeepsConfig s (complete p rs raced (command p i o m) s) := by
  cases hcmd : command p i o m with
  | ok e => exact complete_ok_keepsConfig p rs raced s (config_eq_none_of_command_ok hi hcmd)
  | error x => exact complete_error_keepsConfig ..

/-- Only a command that decodes a message writes OUTBUF_FULL (10_state.md R43). -/
theorem outbufFull_eq_none_of_command_ok {p : Params} {i : Instr} {o : Snapshot} {m : Memory} {e : Effect}
    (hi : i ∉ [Instr.lsbExtract, .b2m, .dctExtract]) (h : command p i o m = .ok e) : e.outbufFull = none := by
  cases i
  case lsbExtract | b2m | dctExtract => exact absurd (by decide) hi
  all_goals
    obtain ⟨-, rfl⟩ := unlessError_eq_ok.1 h
    rfl

theorem complete_command_outbufFull {i : Instr} (hi : i ∉ [Instr.lsbExtract, .b2m, .dctExtract]) (p : Params)
    (rs : List Region) (raced : Bool) (o : Snapshot) (m : Memory) (s : State) :
    (complete p rs raced (command p i o m) s).status.outbufFull = s.status.outbufFull := by
  cases hcmd : command p i o m with
  | ok e => rw [(complete_ok ..).1, statusDone, outbufFull_eq_none_of_command_ok hi hcmd, Option.getD_none]
  | error x => rw [(complete_error ..).1, statusError]

/-! ### Commands that store nothing -/

/-- The commands without a region. -/
def registerCommands : List Instr := [.c2b, .b2c, .qembed, .qextract, .lsbCapacity, .dctCapacity, .dctConfig]

theorem regionsOf_registerCommand (p : Params) {i : Instr} (o : Snapshot) (hi : i ∈ registerCommands) :
    regionsOf p i o = [] := by
  cases i
  case lsbEmbed | lsbExtract | m2b | b2m | dctEmbed | dctExtract => exact absurd hi (by decide)
  all_goals rfl

/-- A command without a region leaves OUT_DIM0 and OUT_DIM1 at 0 (10_state.md R52). -/
theorem outDims_eq_zero_of_registerCommand {p : Params} {i : Instr} {o : Snapshot} {m : Memory} {e : Effect}
    (hi : i ∈ registerCommands) (h : command p i o m = .ok e) : e.outDim0 = 0 ∧ e.outDim1 = 0 := by
  cases i
  case lsbEmbed | lsbExtract | m2b | b2m | dctEmbed | dctExtract => exact absurd hi (by decide)
  all_goals
    obtain ⟨-, rfl⟩ := unlessError_eq_ok.1 h
    exact ⟨rfl, rfl⟩

theorem not_mem_of_registerCommand {i : Instr} (hi : i ∈ registerCommands) : i ∉ [Instr.lsbExtract, .b2m, .dctExtract] := by
  revert i
  decide

/-- Settles O16: a completion without regions writes no byte; what else it leaves is that of its result. -/
theorem frameOfRegisterCommands : Obligations.FrameOfRegisterCommands := by
  intro i s t hi hnext
  obtain ⟨job, hbusy, rfl⟩ := exec_next hnext
  have hregions := regionsOf_registerCommand Config.params job.snap hi
  have hmem (a : Nat) := memRead_complete_of_outside Config.params i job.snap job.raced s (a := a)
    (by rw [hregions]; exact fun r hr => absurd hr List.not_mem_nil)
  refine ⟨complete_kept .., hmem, complete_command_outbufFull (not_mem_of_registerCommand hi) .., ?_⟩
  have hconfig (h : i ≠ .dctConfig) := complete_command_keepsConfig h Config.params
    (regionsOf Config.params i job.snap) job.raced job.snap s.mem s
  cases hcmd : command Config.params i job.snap s.mem with
  | ok e =>
    rw [hcmd] at hconfig
    obtain ⟨-, -, -, -, hdim0, hdim1, -⟩ := complete_ok Config.params (regionsOf Config.params i job.snap) job.raced s e
    obtain ⟨hzero0, hzero1⟩ := outDims_eq_zero_of_registerCommand hi hcmd
    have hends := complete_ok_succeeds Config.params (regionsOf Config.params i job.snap) job.raced e s
    exact ⟨hdim0.trans hzero0, hdim1.trans hzero1, hconfig,
      .inl ⟨hends.errInfo0, hends.errInfo1, hends.errCode, hends.err, hends.done⟩⟩
  | error x =>
    rw [hregions]
    have hfails := complete_error_fails_of_no_region Config.params job.raced x s
    exact ⟨hfails.outDim0, hfails.outDim1, fun _ => hfails.config,
      .inr ⟨hfails.result0, hfails.result1, hfails.config, hfails.done, hfails.err⟩⟩

/-! ### Commands that store to memory -/

/-- A completion whose only output region is the `n` bytes at `base` changes no other byte (20_memory.md R90). -/
theorem sameOutside_complete {p : Params} {i : Instr} {o : Snapshot} {base n : Nat}
    (h : ∀ r ∈ regionsOf p i o, r.output = true → r.base = base ∧ r.len = n) (raced : Bool) (s : State) :
    SameOutside s (complete p (regionsOf p i o) raced (command p i o s.mem) s) base n := by
  intro a ha
  refine memRead_complete_of_outside p i o raced s fun r hr hout => ?_
  obtain ⟨hbase, hlen⟩ := h r hr hout
  omega

/-- The one output region of each command that stores to memory (40_codec.md R154, R156; 42_lsb.md R200, R203;
44_dct_engine.md R266, R274). -/
theorem output_of_storing_command (o : Snapshot) :
    (∀ r ∈ regionsOf Config.params .lsbEmbed o, r.output = true → r.base = o.regs.dstAddr.toNat ∧ r.len = samples o) ∧
    (∀ r ∈ regionsOf Config.params .dctEmbed o, r.output = true →
      r.base = o.regs.dstAddr.toNat ∧ r.len = rows o * cols o) ∧
    (∀ r ∈ regionsOf Config.params .m2b o, r.output = true →
      r.base = o.regs.bitsAddr.toNat ∧ r.len = (7 * o.regs.msgLen.toNat + 7) / 8) ∧
    ∀ i ∈ [Instr.lsbExtract, .b2m, .dctExtract], ∀ r ∈ regionsOf Config.params i o, r.output = true →
      r.base = o.regs.msgAddr.toNat ∧ r.len = o.regs.msgLen.toNat := by
  refine ⟨fun r hr hout => ?_, ?_, ?_, fun i hi => ?_⟩
  · obtain rfl | rfl | rfl := eq_of_mem_regionsOf_lsbEmbed hr
    · cases hout
    · exact ⟨rfl, rfl⟩
    · cases hout
  · simp [regionsOf, messageRegion, outRows_default, outCols_default]
  · simp [regionsOf, messageRegion, packedBytes]
  · obtain rfl | rfl | rfl : i = .lsbExtract ∨ i = .b2m ∨ i = .dctExtract := by simpa using hi
    · intro r hr hout
      obtain rfl | rfl := eq_of_mem_regionsOf_lsbExtract hr
      · cases hout
      · exact ⟨rfl, rfl⟩
    · simp [regionsOf, messageRegion]
    · simp [regionsOf, messageRegion]

/-- Settles O17: the frame of a completion, with the one output region of each command. -/
theorem frameOfStoringCommands : Obligations.FrameOfStoringCommands := by
  intro i s t job hbusy hraced hnext o
  rw [exec_busy i hbusy] at hnext
  cases hnext
  obtain ⟨hlsb, hdct, hm2b, hdecoding⟩ := output_of_storing_command o
  have hkept := complete_kept Config.params (regionsOf Config.params i o) job.raced (command Config.params i o s.mem) s
  have hconfig (h : i ≠ .dctConfig) := complete_command_keepsConfig h Config.params
    (regionsOf Config.params i o) job.raced o s.mem s
  have hfull (h : i ∉ [Instr.lsbExtract, .b2m, .dctExtract]) := complete_command_outbufFull h Config.params
    (regionsOf Config.params i o) job.raced o s.mem s
  refine ⟨?_, ?_, ?_, fun hi => ?_⟩
  · rintro rfl
    exact ⟨hkept, hconfig nofun, hfull (by decide), sameOutside_complete hlsb _ s⟩
  · rintro rfl
    exact ⟨hkept, hconfig nofun, hfull (by decide), sameOutside_complete hdct _ s⟩
  · rintro rfl
    exact ⟨hkept, hconfig nofun, hfull (by decide), sameOutside_complete hm2b _ s⟩
  · exact ⟨hkept, hconfig (by rintro rfl; revert hi; decide), sameOutside_complete (hdecoding i hi) _ s⟩

end

end Sys2Proof.Machine

/-! Whole numbers in binary64, and ties of a non-negative quotient (spec/43_dct_quantizer.md R223, R236). -/

namespace Sys2Proof.Machine

/-- Settles O38: an integer up to `2 ^ 53` in magnitude is encoded with its value. -/
theorem smallIntegersAreExact : Obligations.SmallIntegersAreExact := by
  intro v hv
  have hfp : fp v = f64OfUnits (decide (v < 0)) (v.natAbs * f64One * 1) 1 := by rw [fp, Nat.mul_one]
  obtain ⟨-, hfinite, -⟩ := f64OfUnits_whole (decide (v < 0)) v.natAbs 1 hv Nat.one_pos
  rw [hfp]
  exact ⟨hfinite, f64Int_f64OfUnits_whole hv Nat.one_pos⟩

/-- `SET_LSB` answers the member of the integer's pair whose parity is the bit (R222). -/
theorem adjust_setLsb_eq {n : Int} {b : Nat} (hb : b ≤ 1) : adjust .setLsb n b = 2 * (n / 2) + b := by
  by_cases h : n % 2 = b
  · rw [adjust_of_parity _ h]
    omega
  · rw [adjust_setLsb_of_mismatch h]
    split <;> omega

/-- Both tie modes answer integers of the same pair: at an exact half one may answer the even member, the other the next. -/
theorem roundNat_div_two (mode mode' : TieMode) (n d : Nat) : roundNat mode n d / 2 = roundNat mode' n d / 2 := by
  have heven : ∀ m, roundNat m n d / 2 = roundNat .halfEven n d / 2 := by
    rintro ⟨⟩
    · rfl
    · simp only [roundNat]
      split_ifs <;> omega
  rw [heven mode, heven mode']

/-- A value that is not negative rounds as its magnitude does (00_scope.md R16). -/
theorem rnd_of_nonneg (mode : TieMode) {x : Binary64} (h : 0 ≤ f64Int x) :
    rnd mode x = roundNat mode (f64Units x) f64One := by
  rw [rnd, roundInt, if_neg (not_lt.2 h), natAbs_f64Int]

/-- Settles O41: the quantized integers of the two modes are of one pair, and `SET_LSB` looks at the pair alone. -/
theorem tiesDoNotMatterForNonNegativeQuotients : Obligations.TiesDoNotMatterForNonNegativeQuotients := by
  intro p p' c b q hp hp' _ hb _ _ hquot
  have hpair : quant p.tieMode c q / 2 = quant p'.tieMode c q / 2 := by
    rw [quant, quant, rnd_of_nonneg _ hquot, rnd_of_nonneg _ hquot]
    exact congrArg Nat.cast (roundNat_div_two p.tieMode p'.tieMode (f64Units (fdiv c (fp q))) f64One)
  rw [embedBitInCoefficient, embedBitInCoefficient, hp, hp', adjust_setLsb_eq hb, adjust_setLsb_eq hb, hpair]

end Sys2Proof.Machine

/-! The register window: offsets, reads, operand writes, the bus list of a program, STATUS and WAIT (spec/10_state.md R31, R40,
R43, R57; 30_encoding.md R123, R124). -/

namespace Sys2Proof.Machine

section
open Sys2Proof.Claim

/-! ### STATUS and WAIT -/

/-- Settles O51: the word's fields, and the write's field by field. -/
theorem statusReadsAndClearsByBit : Obligations.StatusReadsAndClearsByBit := by
  intro s v w t
  obtain ⟨hbusy, hdone, herr, hvalid, hfull, hover, hcode, -⟩ := statusWord_fields (isBusy s) s.status
  exact ⟨⟨hbusy, hdone, herr, hvalid, hfull, hover, hcode⟩, rfl, rfl, rfl, rfl, rfl, rfl, rfl⟩

/-- A WAIT that sees BUSY = 1 assigns STATUS and stays (30_encoding.md R123). -/
theorem step_wait_of_busy {s : State} {x : Nat} (hruns : HostRuns s (.wait x)) (hbusy : isBusy s = true) :
    step s = .next (assign x (readReg Config.params s .status) (takeTurn s)) :=
  (step_of_hostRuns hruns).trans (if_pos hbusy)

/-- A WAIT that sees BUSY = 0 assigns STATUS, has observed the end of every earlier command and moves on (30_encoding.md R123;
20_memory.md R97). -/
theorem step_wait_of_idle {s : State} {x : Nat} (hruns : HostRuns s (.wait x)) (hidle : isBusy s = false) :
    step s = .next (advance (assign x (readReg Config.params s .status) (observeIdle (takeTurn s)))) :=
  (step_of_hostRuns hruns).trans (if_neg (Bool.eq_false_iff.1 hidle))

/-- Settles O54: both ends of a WAIT assign STATUS and leave the machine as it is. -/
theorem waitPollsUntilNotBusy : Obligations.WaitPollsUntilNotBusy := by
  intro s x hruns
  cases hbusy : isBusy s with
  | true => exact ⟨_, step_wait_of_busy hruns hbusy, tableGet_tableSet_self .., rfl, rfl, rfl, rfl, rfl⟩
  | false => exact ⟨_, step_wait_of_idle hruns hbusy, tableGet_tableSet_self .., rfl, rfl, rfl, rfl, rfl⟩

/-! ### Offsets -/

theorem fst_eq_regOffset_of_mem_registerMap : ∀ e ∈ registerMap, e.1 = regOffset e.2 := by decide

theorem eq_regOffset_of_mem_registerMap {off : Nat} {r : Reg} (h : (off, r) ∈ registerMap) : off = regOffset r :=
  fst_eq_regOffset_of_mem_registerMap _ h

theorem regOffset_injective : Function.Injective regOffset := fun r r' h =>
  Option.some.inj (((regAt_regOffset r).symm.trans (congrArg regAt h)).trans (regAt_regOffset r'))

theorem mem_registerMap (r : Reg) : (regOffset r, r) ∈ registerMap := by cases r <;> decide

/-- The window reads, offset by offset, as its registers do (10_state.md R40). -/
theorem window_eq (s : State) : window s = registerMap.map fun e => (e.1, readReg Config.params s e.2) := by
  simp [window, registerMap, readReg, ctrlWord_eq_ite, Config.params]

/-- The value the window shows at a register's offset is what the register reads. -/
theorem readReg_of_mem_window {s : State} {r : Reg} {w : Word} (h : (regOffset r, w) ∈ window s) :
    readReg Config.params s r = w := by
  rw [window_eq, List.mem_map] at h
  obtain ⟨⟨off, r'⟩, hmem, heq⟩ := h
  obtain ⟨rfl, rfl⟩ := Prod.mk.inj heq
  rw [regOffset_injective (fst_eq_regOffset_of_mem_registerMap _ hmem)]

/-! ### Reads -/

/-- A 32-bit host read at a register's offset assigns what it reads, and the host moves on. -/
theorem step_of_hostRuns_rd {s : State} {r : Reg} {x : Nat} (hruns : HostRuns s (.rd 32 (regOffset r) x)) :
    step s = .next (advance (assign x (readReg Config.params (takeTurn s) r) (afterRead (takeTurn s) r))) := by
  simp only [step_of_hostRuns hruns, hostExec, transactionRefusal_regOffset, readAt, readEffect, regAt_regOffset]

/-- A read changes no register, and neither engine, memory nor host; it may have observed the end of a command
(20_memory.md R97). -/
theorem afterRead_frame (s : State) (r : Reg) : ∃ unobserved, afterRead s r = { s with unobserved := unobserved } := by
  obtain h | ⟨-, h⟩ := afterRead_eq s r
  · exact ⟨s.unobserved, h⟩
  · exact ⟨[], h⟩

/-! ### Operand writes -/

/-- An operand register takes the value written, and a write to it reaches no other register (10_state.md R57). -/
theorem readReg_writeReg_operand (p : Params) (s : State) {r : Reg} (hr : r ∈ operandRegs) (v : Word) :
    readReg p (writeReg p s r v) r = v ∧
    (∀ r', r' ≠ r → readReg p (writeReg p s r v) r' = readReg p s r') ∧
    (writeReg p s r v).engine = s.engine ∧ (writeReg p s r v).mem = s.mem := by
  cases r
  case id | ctrl | status | cmd | actBlockSize | actCoefIndex | actQuant | result0 | result1 | errInfo0 | errInfo1 |
      outDim0 | outDim1 => exact absurd hr (by decide)
  all_goals
    refine ⟨rfl, fun r' hne => ?_, rfl, rfl⟩
    cases r' <;> try rfl
    exact absurd rfl hne

theorem exists_operandReg_of_offset : ∀ off ∈ operandOffsets, ∃ r ∈ operandRegs, off = regOffset r := by decide

/-- A write to an operand register changes the window at its offset alone. -/
theorem window_writeReg_operand (s : State) {r : Reg} (hr : r ∈ operandRegs) (w : Word) :
    window (writeReg Config.params s r w) =
      (window s).map fun e => if e.1 = regOffset r then (regOffset r, w) else e := by
  obtain ⟨hsame, hother, -⟩ := readReg_writeReg_operand Config.params s hr w
  rw [window_eq, window_eq, List.map_map]
  refine List.map_congr_left fun e he => ?_
  have hoff := fst_eq_regOffset_of_mem_registerMap e he
  rw [Function.comp_apply]
  split_ifs with heq
  · obtain rfl : e.2 = r := regOffset_injective (hoff.symm.trans heq)
    rw [hoff, hsame]
  · rw [hother e.2 (by rintro rfl; exact heq hoff)]

@[simp] theorem window_advance (s : State) : window (advance s) = window s := rfl

/-! ### The bus list of a program -/

/-- A step that answers a next state adds its transaction, if it is one to show, and the list goes on from there (30_encoding.md
R124). -/
theorem transactions_succ {p : Params} {s t : State} (shown : State → Bool) (k : Nat) (h : stepIn p s = .next t) :
    transactions p shown (k + 1) s =
      (if shown s then (stepTransaction p s).toList else []) ++ transactions p shown k t := by
  rw [transactions, h]

theorem stepTransaction_of_engine (p : Params) {s : State} (h : nextAgent s = .engine) : stepTransaction p s = none := by
  simp only [stepTransaction, h]

theorem stepTransaction_of_hostRuns (p : Params) {s : State} {st : HostStmt} (h : HostRuns s st) :
    stepTransaction p s = busTransaction p s st := by
  simp only [stepTransaction, h.1, h.2, Option.bind_some]

theorem isPoll_of_wait {s : State} {x : Nat} (h : HostRuns s (.wait x)) : isPoll s = isBusy s := by
  simp only [isPoll, h.2]

theorem isPoll_of_not_wait {s : State} {st : HostStmt} (h : HostRuns s st) (hst : ∀ x, st ≠ .wait x) : isPoll s = false := by
  rw [isPoll, h.2]
  split
  case h_1 x heq => exact absurd (Option.some.inj heq) (hst x)
  case h_2 => rfl

/-- Settles O48: the offsets by the map, a transaction by the register at its offset, the bus list one step at a time. -/
theorem transactionsReadAndWriteRegisters : Obligations.TransactionsReadAndWriteRegisters := by
  refine ⟨mem_registerMap, by decide, fun s => rfl, ?_, ?_, ?_, ?_, ?_⟩
  · intro s off r v w hmem hruns hval
    obtain rfl := eq_regOffset_of_mem_registerMap hmem
    refine ⟨?_, ?_⟩
    · rw [step_of_hostRuns_wr hruns hval, advance, writeReg_host]
      rfl
    · rw [busTransaction, transactionRefusal_regOffset, hval]
      rfl
  · intro s off r w x hmem hwindow hruns
    obtain rfl := eq_regOffset_of_mem_registerMap hmem
    have hread := readReg_of_mem_window hwindow
    obtain ⟨unobserved, hafter⟩ := afterRead_frame (takeTurn s) r
    refine ⟨_, step_of_hostRuns_rd hruns, ?_⟩
    rw [hafter]
    refine ⟨?_, hread, rfl, fun r' => readReg_update_host _ s _ _ _ r', rfl, rfl, ?_⟩
    · rw [advance_host, assign_host, tableGet_tableSet_self]
      exact congrArg some hread
    · rw [busTransaction, transactionRefusal_regOffset, readAt, regAt_regOffset]
      exact congrArg (fun w => some (false, regOffset r, w)) hread
  · intro s off v w hoff hruns hval
    obtain ⟨r, hr, rfl⟩ := exists_operandReg_of_offset off hoff
    obtain ⟨-, -, hengine, hmemory⟩ := readReg_writeReg_operand Config.params (takeTurn s) hr w
    refine ⟨_, step_of_hostRuns_wr hruns hval, ?_, hengine, hmemory⟩
    rw [window_advance, window_writeReg_operand _ hr]
    rfl
  · exact fun s r v hr => readReg_writeReg_operand _ s hr v
  · intro s t k hstep
    rw [step_eq_stepIn] at hstep
    refine ⟨fun hturn => ?_, fun st hruns => ?_⟩
    · simp [busTrace, encodingOf, transactions_succ _ k hstep, stepTransaction_of_engine _ hturn]
    · have hshown := stepTransaction_of_hostRuns Config.params hruns
      refine ⟨?_, ?_, ?_⟩
      · rw [busTrace, transactions_succ _ k hstep, hshown]
        rfl
      · rintro x rfl
        rfl
      · rw [encodingOf, transactions_succ _ k hstep, hshown]
        cases st
        case wait x =>
          rw [isPoll_of_wait hruns]
          cases isBusy s <;> rfl
        all_goals
          rw [isPoll_of_not_wait hruns nofun]
          rfl

end

end Sys2Proof.Machine

/-! Reset of a BUSY machine, and host and engine sharing memory (spec/70_reset_and_hazards.md R352, R362; 20_memory.md R97,
R98). -/

namespace Sys2Proof.Machine

section
open Sys2Proof.Claim

/-! ### Free bytes -/

/-- A draw of free bytes, as a read sees it (log 5). -/
theorem memRead_scramble (p : Params) (as : List Nat) (s : State) (c : Nat) :
    memRead (scramble p as s).mem c =
      if c ∈ as ∧ addressExists p c = true then Config.freeByte s.freeCount c else memRead s.mem c := by
  rw [memRead, tableGet_scramble]
  split_ifs
  · rfl
  · rw [memRead]

theorem mem_outputAddrs_iff_inOutputs (rs : List Region) (a : Nat) : a ∈ outputAddrs rs ↔ InOutputs rs a :=
  mem_outputAddrs rs a

theorem touchesInput_iff_inInputs (rs : List Region) (a : Nat) : touchesInput rs a = true ↔ InInputs rs a := by
  simp [touchesInput, regionHas, InInputs]

/-! ### Reset -/

/-- An abort leaves free what is in an output region and in no input region (70_reset_and_hazards.md R352; log 5). -/
theorem mem_abortedAddrs_iff (p : Params) (job : Job) (a : Nat) :
    a ∈ abortedAddrs p job ↔ InOutputs (jobRegions p job) a ∧ ¬ InInputs (jobRegions p job) a := by
  rw [abortedAddrs, List.mem_filter, mem_outputAddrs_iff_inOutputs, ← touchesInput_iff_inInputs]
  simp

theorem resetMachine_mem_of_busy (p : Params) {s : State} {job : Job} (h : s.engine = .busy job) :
    (resetMachine p s).mem = (scramble p (abortedAddrs p job) s).mem := by
  rw [resetMachine_eq]
  simp only [abort, h, retire_mem]

/-- A reset while BUSY abandons the command (70_reset_and_hazards.md R352). -/
theorem abandoned_resetMachine {s : State} {job : Job} (h : s.engine = .busy job) :
    Abandoned s (resetMachine Config.params s) job := by
  have hmem := resetMachine_mem_of_busy Config.params h
  have hkept {a : Nat} (ha : a ∉ abortedAddrs Config.params job) :
      memRead (resetMachine Config.params s).mem a = memRead s.mem a := by
    rw [hmem, memRead_scramble_of_not_mem _ s ha]
  refine ⟨rfl, rfl, rfl, rfl, fun r hr hinput a hlow hhigh => hkept ?_, fun a ha hout hin => ?_, fun a ha => hkept ?_⟩
  · rw [mem_abortedAddrs_iff]
    exact fun hfree => hfree.2 ⟨r, hr, hinput, hlow, hhigh⟩
  · rw [hmem, memRead_scramble, if_pos ⟨(mem_abortedAddrs_iff ..).2 ⟨hout, hin⟩, (addressExists_iff a).2 ha⟩]
  · rw [mem_abortedAddrs_iff]
    rintro ⟨⟨r, hr, hout, hin⟩, -⟩
    exact ha r hr hout hin

/-- Settles O56: SOFT_RESET and the reset input both are `resetMachine`. -/
theorem resetAbandonsTheCommand : Obligations.ResetAbandonsTheCommand := by
  refine fun s job hbusy => ⟨fun v hv => ?_, fun hruns => ⟨_, step_resetPin hruns, ?_⟩⟩
  · rw [writeReg_ctrl_of_softReset _ _ hv]
    exact abandoned_resetMachine hbusy
  · obtain ⟨hidle, hdone, herr, hirq, hinputs, houtputs, houtside⟩ := abandoned_resetMachine (s := takeTurn s) hbusy
    exact ⟨hidle, hdone, herr, hirq, hinputs, houtputs, houtside⟩

/-! ### The host's accesses to memory -/

theorem touches_iff_inRegions (rs : List Region) (a : Nat) : touches rs a = true ↔ InRegions rs a := touches_iff rs a

theorem touchesOutput_iff_inOutputs (rs : List Region) (a : Nat) : touchesOutput rs a = true ↔ InOutputs rs a := by
  rw [touchesOutput_iff, mem_outputAddrs_iff_inOutputs]

section Interfere
variable {mem : List Region → Nat → Prop} {hits : List Region → Bool} {s : State} {a : Nat}
  (hhits : ∀ rs, hits rs = true ↔ mem rs a)
include hhits

/-- An access off every region in the window interferes with nothing (20_memory.md R98). -/
theorem interfere_of_clear (h : Clear mem s a) : interfere Config.params hits s = s := by
  obtain ⟨hjob, hunobserved⟩ := h
  refine interfere_clear (fun job hbusy => Bool.eq_false_iff.2 fun hhit => hjob job hbusy ((hhits _).1 hhit)) ?_
  rw [List.any_eq_false]
  exact fun rs hrs hhit => hunobserved rs hrs ((hhits rs).1 hhit)

/-- An access to a region of the command in progress marks it as raced, and one off them does not (20_memory.md R98). -/
theorem interfere_engine_of_busy {job : Job} (hbusy : s.engine = .busy job) :
    ∃ raced, (interfere Config.params hits s).engine = .busy ⟨job.word, job.snap, raced⟩ ∧
      (raced = true ↔ job.raced = true ∨ mem (jobRegions Config.params job) a) := by
  obtain ⟨e, m, n, heq, -, hraced, -⟩ := interfere_eq Config.params hits s
  rw [heq]
  refine ⟨_, hraced job hbusy, ?_⟩
  rw [Bool.or_eq_true, hhits]

/-- The bytes an access spoils hold this draw's free byte, every other byte is as before (20_memory.md R98). -/
theorem memRead_interfere_spoiled (c : Nat) :
    (Spoiled mem s a c → memRead (interfere Config.params hits s).mem c = Config.freeByte s.freeCount c) ∧
    (¬ Spoiled mem s a c → memRead (interfere Config.params hits s).mem c = memRead s.mem c) := by
  have hspoiled : (c ∈ (s.unobserved.filter hits).flatMap outputAddrs ∧ addressExists Config.params c = true) ↔
      Spoiled mem s a c := by
    simp only [List.mem_flatMap, List.mem_filter, hhits, mem_outputAddrs_iff_inOutputs, addressExists_iff, Spoiled,
      and_assoc, and_comm (b := c < 2 ^ 32)]
  rw [memRead_interfere, ← hspoiled]
  exact ⟨fun h => if_pos h, fun h => if_neg h⟩

end Interfere

/-- A host write off every region in the window is plain, one on a region is remembered or spoils (20_memory.md R98). -/
theorem hostWriteRule : HostWriteRule := by
  intro s a b t
  have hhits (rs : List Region) : touches rs a = true ↔ InRegions rs a := touches_iff_inRegions rs a
  have hwritten (c : Nat) : memRead (memWrite s.mem a b) c = if c = a then b else memRead s.mem c := by
    split_ifs with heq
    · rw [heq, memRead_memWrite_self]
    · rw [memRead_memWrite_of_ne _ _ heq]
  refine ⟨fun hclear => ?_, fun job hbusy => interfere_engine_of_busy hhits (s := { s with mem := _ }) hbusy, fun c => ?_⟩
  · have ht : t = { s with mem := memWrite s.mem a b } :=
      interfere_of_clear hhits (s := { s with mem := memWrite s.mem a b }) hclear
    rw [ht]
    exact ⟨rfl, memRead_memWrite_self .., fun c hc => memRead_memWrite_of_ne _ _ hc⟩
  · obtain ⟨hfree, hkept⟩ := memRead_interfere_spoiled hhits (s := { s with mem := memWrite s.mem a b }) c
    exact ⟨hfree, fun h => (hkept h).trans (hwritten c)⟩

/-- A read is free to return any byte exactly if it is not clear of every output region in the window (20_memory.md R98). -/
theorem readForbidden_iff_not_clear (s : State) (a : Nat) :
    readForbidden Config.params s a = true ↔ ¬ Clear InOutputs s a := by
  rw [readForbidden_iff, Clear]
  simp only [mem_outputAddrs_iff_inOutputs, not_and_or, not_forall, not_not, exists_prop]

/-- A host read off every output region in the window is plain, one in an output region is free and is remembered or spoils
(20_memory.md R98). -/
theorem hostReadRule : HostReadRule := by
  intro s a t
  refine ⟨fun hclear => ?_, fun hclear => ?_⟩
  · have hallowed : ¬ readForbidden Config.params s a = true := fun h => (readForbidden_iff_not_clear s a).1 h hclear
    exact ⟨if_neg hallowed, if_neg hallowed⟩
  · have hforbidden := (readForbidden_iff_not_clear s a).2 hclear
    have ht : t = interfere Config.params (touchesOutput · a) { s with freeCount := s.freeCount + 1 } := if_pos hforbidden
    have hhits (rs : List Region) : touchesOutput rs a = true ↔ InOutputs rs a := touchesOutput_iff_inOutputs rs a
    rw [ht]
    refine ⟨if_pos hforbidden, ?_, fun job hbusy =>
      interfere_engine_of_busy hhits (s := { s with freeCount := _ }) hbusy, fun c =>
      memRead_interfere_spoiled hhits (s := { s with freeCount := s.freeCount + 1 }) c⟩
    obtain ⟨e, m, n, heq, -, -, hcount⟩ :=
      interfere_eq Config.params (touchesOutput · a) { s with freeCount := s.freeCount + 1 }
    rw [heq]
    obtain ⟨-, rfl, -⟩ | ⟨as, -, rfl⟩ := hcount
    · exact Nat.lt_succ_self _
    · exact Nat.lt_succ_of_lt (Nat.lt_succ_self _)

/-! ### The window -/

theorem complete_unobserved (p : Params) (rs : List Region) (raced : Bool) (r : CmdResult) (s : State) :
    (complete p rs raced r s).unobserved = s.unobserved ++ if rs.isEmpty then [] else [rs] := by
  cases r <;> simp [complete]

theorem mem_ifNonempty_iff (rs rs' : List Region) :
    rs ∈ (if rs'.isEmpty then [] else [rs']) ↔ rs = rs' ∧ rs ≠ [] := by
  cases rs' with
  | nil => simp
  | cons r rs' => simp +contextual

/-- A completion opens the window of its command, a STATUS read or WAIT with BUSY = 0 and a taken interrupt close every one
(20_memory.md R97, R98). -/
theorem windowRule : WindowRule := by
  refine ⟨fun i s t job hbusy hnext rs => ?_, fun s x hruns => ?_, fun s hruns => ?_⟩
  · rw [exec_busy i hbusy] at hnext
    cases hnext
    rw [complete_unobserved, List.mem_append, mem_ifNonempty_iff]
  · obtain hruns | hruns := hruns
    · refine ⟨_, step_of_hostRuns_rd (r := .status) hruns, ?_⟩
      rw [advance_unobserved, assign_unobserved, afterRead]
      cases hbusy : isBusy s with
      | true =>
        have hstill : ¬ (Reg.status = .status ∧ isBusy (takeTurn s) = false) := fun h => by cases hbusy.symm.trans h.2
        rw [if_neg hstill]
        rfl
      | false =>
        have hobserved : Reg.status = .status ∧ isBusy (takeTurn s) = false := ⟨rfl, hbusy⟩
        rw [if_pos hobserved]
        rfl
    · cases hbusy : isBusy s with
      | true => exact ⟨_, step_wait_of_busy hruns hbusy, rfl⟩
      | false => exact ⟨_, step_wait_of_idle hruns hbusy, rfl⟩
  · have hstep : step s = if irq s then .next (advance (observeIdle (takeTurn s))) else .next (takeTurn s) :=
      step_of_hostRuns hruns
    cases hirq : irq s <;> rw [hirq] at hstep
    · exact ⟨_, hstep, rfl⟩
    · exact ⟨_, hstep, rfl⟩

/-! ### The host's steps -/

theorem hostStore_host (p : Params) (s : State) (a : Nat) (b : Byte) : (hostStore p s a b).host = s.host := by
  obtain ⟨e, m, n, heq, -⟩ := interfere_eq p (touches · a) { s with mem := memWrite s.mem a b }
  rw [hostStore, heq]

theorem hostLoadEffect_host (p : Params) (s : State) (a : Nat) : (hostLoadEffect p s a).host = s.host := by
  rw [hostLoadEffect]
  split
  · obtain ⟨e, m, n, heq, -⟩ := interfere_eq p (touchesOutput · a) { s with freeCount := s.freeCount + 1 }
    rw [heq]
  · rfl

/-- The host's store and load statements are the two accesses, and the host moves on. -/
theorem hostAccessSteps : HostAccessSteps := by
  intro s a ha s'
  have hexists : addressExists Config.params a = true := (addressExists_iff a).2 ha
  refine ⟨fun b hruns => ?_, fun x hruns => ?_⟩
  · have hstep : step s = .next (advance (hostStore Config.params s' a b)) :=
      (step_of_hostRuns hruns).trans (if_pos hexists)
    rw [hstep, advance, hostStore_host]
    rfl
  · have hstep : step s = .next (advance (assign x ((hostLoadValue Config.params s a).setWidth 32)
        (hostLoadEffect Config.params s' a))) := (step_of_hostRuns hruns).trans (if_pos hexists)
    have hhost : (hostLoadEffect Config.params s' a).host = s.host := hostLoadEffect_host ..
    refine ⟨_, hstep, tableGet_tableSet_self .., congrArg (·.pc + 1) hhost, ?_⟩
    rw [← hhost]
    rfl

/-! ### A raced completion -/

/-- The output bytes of a raced command are free when it completes (20_memory.md R98). -/
theorem memRead_complete_raced (p : Params) (rs : List Region) (r : CmdResult) (s : State) {a : Nat}
    (ha : addressExists p a = true) (hout : a ∈ outputAddrs rs) :
    memRead (complete p rs true r s).mem a = Config.freeByte s.freeCount a := by
  cases r <;> exact (memRead_scramble ..).trans (if_pos ⟨hout, ha⟩)

/-- Settles O57: the rules of an access are those of `interfere`, the rules of a completion those of `settleRace` and `retire`. -/
theorem racedCompletionLeavesFreeOutputBytes : Obligations.RacedCompletionLeavesFreeOutputBytes := by
  refine ⟨hostWriteRule, hostReadRule, windowRule, hostAccessSteps, fun s job a b hbusy hnone => ?_,
    fun i s t job hbusy hraced hnext => ?_⟩
  · obtain ⟨e, m, n, heq, -, hengine, -⟩ := interfere_eq Config.params (touches · a) { s with mem := memWrite s.mem a b }
    refine ⟨?_, ?_⟩
    · rw [hostStore, heq]
      exact hengine job hbusy
    · simp [hostStore, memRead_interfere, hnone]
  · rw [exec_busy i hbusy] at hnext
    cases hnext
    refine ⟨fun a ha hout => ?_, fun a => memRead_complete_of_outside _ i job.snap job.raced s⟩
    rw [hraced]
    exact memRead_complete_raced _ _ _ s ((addressExists_iff a).2 ha) ((mem_outputAddrs ..).2 hout)

end

end Sys2Proof.Machine

/-! DCT.EMBED, for every collaborator: the bit and the fault of a block, the output, the errors in order
(spec/44_dct_engine.md R260 to R270). -/

namespace Sys2Proof.Machine

section
open Sys2Proof.Claim

/-! ### The bit a block carries -/

/-- The bits of the message and its terminator (R266). -/
theorem getElem?_framedBits (s : State) (o : Snapshot) {i : Nat} (h : i < 7 * (o.regs.msgLen.toNat + 1)) :
    (framedBits o s.mem)[i]? = some (framedBit s o.regs.msgAddr.toNat o.regs.msgLen.toNat i) := by
  have hlen : (messageToBits (messageOf o s.mem)).length = 7 * o.regs.msgLen.toNat := by
    rw [messageToBits_length, messageOf_length]
  have hzero : messageToBits [0] = List.replicate 7 false := by decide
  rw [framedBits, messageToBits_append, hzero, framedBit]
  by_cases hi : i < 7 * o.regs.msgLen.toNat
  · rw [List.getElem?_append_left (hi.trans_eq hlen.symm), messageOf, messageToBits_memReadBytes hi, decide_eq_true hi,
      Bool.true_and]
  · rw [List.getElem?_append_right (hlen.trans_le (not_lt.1 hi)), hlen, List.getElem?_replicate, if_pos (by omega),
      decide_eq_false hi, Bool.false_and]

theorem bitOfBlock_eq_carried (s : State) (o : Snapshot) (i : Nat) : bitOfBlock o s.mem i = carried s o i := by
  rw [bitOfBlock, carried]
  refine if_ctx_congr Iff.rfl (fun hi => ?_) fun _ => rfl
  exact getElem?_framedBits s o (lt_of_lt_of_le hi (min_le_left _ _))

/-! ### The fault of a block -/

theorem allFinite_eq_true_iff {B : Nat} (M : BlockMatrix B) : allFinite M = true ↔ ∀ u v, f64Finite (M u v) = true := by
  simp [allFinite]

/-- The search for a fault looks at each block as the claims name it (R268). -/
theorem embedCollaboratorError_eq (p : Params) (s : State) (o : Snapshot) : embedCollaboratorError p o s.mem =
    (List.range (blocks o)).findSome? fun i =>
      embedBlockFault p (target o) (factor o) i (ofSamples (block s o o.regs.srcAddr.toNat i)) (carried s o i) := by
  simp only [← bitOfBlock_eq_carried]
  rfl

section Fault
variable {p : Params} {s : State} {o : Snapshot} {i : Nat}

theorem forwardFault_iff_forwardFaults : forwardFault p (target o) (factor o) (ofSamples (block s o o.regs.srcAddr.toNat i))
    (carried s o i) = true ↔ ForwardFaults p s o i := by
  rw [ForwardFaults]
  cases carried s o i with
  | none => simp [forwardFault]
  | some b => simp [forwardFault, targetOf]

theorem allFinite_inverseOf_iff : allFinite (inverseOf p s o i) = true ↔ ¬ InverseFaults p s o i := by
  simp [allFinite_eq_true_iff, InverseFaults]

/-- A forward fault comes before an inverse one (R268). -/
theorem embedBlockFault_of_forwardFaults (h : ForwardFaults p s o i) :
    embedBlockFault p (target o) (factor o) i (ofSamples (block s o o.regs.srcAddr.toNat i)) (carried s o i) =
      some ⟨.collaboratorFault, wordOf i, 0⟩ := if_pos (forwardFault_iff_forwardFaults.2 h)

theorem embedBlockFault_of_inverseFaults (h : ¬ ForwardFaults p s o i) (h' : InverseFaults p s o i) :
    embedBlockFault p (target o) (factor o) i (ofSamples (block s o o.regs.srcAddr.toNat i)) (carried s o i) =
      some ⟨.collaboratorFault, wordOf i, 1⟩ :=
  (if_neg (mt forwardFault_iff_forwardFaults.1 h)).trans (if_neg (mt allFinite_inverseOf_iff.1 (not_not.2 h')))

theorem embedBlockFault_of_no_fault (h : ¬ ForwardFaults p s o i ∧ ¬ InverseFaults p s o i) :
    embedBlockFault p (target o) (factor o) i (ofSamples (block s o o.regs.srcAddr.toNat i)) (carried s o i) = none :=
  (if_neg (mt forwardFault_iff_forwardFaults.1 h.1)).trans (if_pos (allFinite_inverseOf_iff.2 h.2))

/-- No block faults: no error (R268). -/
theorem embedCollaboratorError_of_no_fault (h : ∀ i < blocks o, ¬ ForwardFaults p s o i ∧ ¬ InverseFaults p s o i) :
    embedCollaboratorError p o s.mem = none := by
  rw [embedCollaboratorError_eq]
  exact List.findSome?_eq_none_iff.2 fun i hi => embedBlockFault_of_no_fault (h i (List.mem_range.1 hi))

/-- The smallest block that faults is reported with its fault (R268). -/
theorem embedCollaboratorError_of_first (hi : i < blocks o)
    (hfirst : ∀ j < i, ¬ ForwardFaults p s o j ∧ ¬ InverseFaults p s o j) {x : CmdError}
    (hx : embedBlockFault p (target o) (factor o) i (ofSamples (block s o o.regs.srcAddr.toNat i)) (carried s o i) = some x) :
    embedCollaboratorError p o s.mem = some x := by
  rw [embedCollaboratorError_eq]
  exact findSome?_range_of_first hi (fun j hj => embedBlockFault_of_no_fault (hfirst j hj)) hx

end Fault

/-! ### Rows and columns -/

theorem mul_add_lt_mul {y x r c : Nat} (hy : y < r) (hx : x < c) : y * c + x < r * c :=
  calc y * c + x < y * c + c := Nat.add_lt_add_left hx _
    _ = (y + 1) * c := (Nat.succ_mul y c).symm
    _ ≤ r * c := Nat.mul_le_mul_right c hy

theorem mul_add_div_of_lt (y : Nat) {x c : Nat} (hx : x < c) : (y * c + x) / c = y := by
  rw [Nat.mul_comm, Nat.mul_add_div (Nat.zero_lt_of_lt hx), Nat.div_eq_of_lt hx, Nat.add_zero]

theorem mul_add_mod_of_lt (y : Nat) {x c : Nat} (hx : x < c) : (y * c + x) % c = x := by
  rw [Nat.mul_comm, Nat.mul_add_mod, Nat.mod_eq_of_lt hx]

/-- Block `i` is in a whole block row and a whole block column (R260). -/
theorem block_row_col_lt {o : Snapshot} {i : Nat} (hi : i < blocks o) :
    i / (cols o / bsize o) < rows o / bsize o ∧ i % (cols o / bsize o) < cols o / bsize o := by
  have hcols : 0 < cols o / bsize o := Nat.pos_of_ne_zero fun h => by simp [blocks, h] at hi
  exact ⟨Nat.div_lt_of_lt_mul (Nat.mul_comm _ _ ▸ hi), Nat.mod_lt _ hcols⟩

/-- There are no more blocks than samples. -/
theorem blocks_le (o : Snapshot) : blocks o ≤ rows o * cols o :=
  Nat.mul_le_mul (Nat.div_le_self ..) (Nat.div_le_self ..)

/-! ### The output of DCT.EMBED -/

section Output
variable (fwd inv : (B : Nat) → BlockMatrix B → BlockMatrix B) (s : State) (o : Snapshot)

/-- A sample inside the whole blocks is its block's (R264 to R266). -/
theorem outSample_of_block {i : Nat} (hi : i < blocks o) (u v : Fin (bsize o)) :
    outSample (withTransform fwd inv) o s.mem (i / (cols o / bsize o) * bsize o + u) (i % (cols o / bsize o) * bsize o + v) =
      blockSamples (withTransform fwd inv) (target o) (factor o) (ofSamples (block s o o.regs.srcAddr.toNat i))
        (carried s o i) u v := by
  obtain ⟨hrow, hcol⟩ := block_row_col_lt hi
  have hindex : blockIndex o (i / (cols o / bsize o) * bsize o + u) (i % (cols o / bsize o) * bsize o + v) = i := by
    have h₁ := mul_add_div_of_lt (i / (cols o / bsize o)) u.isLt
    have h₂ := mul_add_div_of_lt (i % (cols o / bsize o)) v.isLt
    exact (congrArg₂ (fun y x => y * (cols o / bsize o) + x) h₁ h₂).trans (Nat.div_add_mod' i _)
  refine (if_pos ⟨mul_add_lt_mul hrow u.isLt, mul_add_lt_mul hcol v.isLt⟩).trans ?_
  rw [hindex, bitOfBlock_eq_carried]
  have hu := mul_add_mod_of_lt (i / (cols o / bsize o)) u.isLt
  have hv := mul_add_mod_of_lt (i % (cols o / bsize o)) v.isLt
  have hsample (S : Fin (bsize o) → Fin (bsize o) → Byte) :
      sampleAt S ((i / (cols o / bsize o) * bsize o + u) % bsize o) ((i % (cols o / bsize o) * bsize o + v) % bsize o) =
        S u v := by
    rw [hu, hv]
    exact dif_pos ⟨u.isLt, v.isLt⟩
  exact hsample _

/-- A sample of the border is the input's (R270). -/
theorem outSample_of_border {y x : Nat} (h : rows o / bsize o * bsize o ≤ y ∨ cols o / bsize o * bsize o ≤ x) :
    outSample (withTransform fwd inv) o s.mem y x = memRead s.mem (o.regs.srcAddr.toNat + y * cols o + x) :=
  if_neg fun hinside => h.elim (not_le.2 hinside.1) (not_le.2 hinside.2)

/-- What DCT.EMBED does when no check fails (R266). -/
def dctEmbedEffect : Effect where
  base := o.regs.dstAddr.toNat
  bytes := outChannel (withTransform fwd inv) o s.mem
  result0 := wordOf (embedded o)
  result1 := wordOf (dctCapacityOf o)
  outDim0 := wordOf (rows o)
  outDim1 := wordOf (cols o)

/-- The checks of DCT.EMBED in order, then its output (R266). -/
theorem dctEmbed_withTransform : dctEmbed (withTransform fwd inv) o s.mem =
    unlessError
      ((configError o).or <| (dctShapeError Config.params o).or <|
        (regionError Config.params (embedRegions o (rows o * cols o))).or <| (capacityError o (dctCapacityOf o)).or <|
          (characterError (messageOf o s.mem)).or <| embedCollaboratorError (withTransform fwd inv) o s.mem)
      (dctEmbedEffect fwd inv s o) := rfl

theorem dctEmbedEffect_length : (dctEmbedEffect fwd inv s o).bytes.length = rows o * cols o := outChannel_length ..

variable {fwd inv s o} {t : State}
  (hmem : t.mem = memWriteBytes s.mem (dctEmbedEffect fwd inv s o).base (dctEmbedEffect fwd inv s o).bytes)
include hmem

/-- Row `y`, column `x` of the output in memory (20_memory.md R84). -/
theorem memRead_of_dctEmbedEffect {y x : Nat} (hy : y < rows o) (hx : x < cols o) :
    memRead t.mem (o.regs.dstAddr.toNat + (y * cols o + x)) = outSample (withTransform fwd inv) o s.mem y x := by
  have hlen : y * cols o + x < (dctEmbedEffect fwd inv s o).bytes.length :=
    (mul_add_lt_mul hy hx).trans_eq (dctEmbedEffect_length ..).symm
  have hget : (dctEmbedEffect fwd inv s o).bytes[y * cols o + x] =
      outSample (withTransform fwd inv) o s.mem ((y * cols o + x) / cols o) ((y * cols o + x) % cols o) :=
    (List.getElem_map _).trans (congrArg (fun j => outSample (withTransform fwd inv) o s.mem (j / cols o) (j % cols o))
      (List.getElem_range _))
  rw [hmem]
  refine (memRead_memWriteBytes _ _ _ _ hlen).trans ?_
  rw [hget, mul_add_div_of_lt y hx, mul_add_mod_of_lt y hx]

/-- Block `i` of the output (R264 to R266). -/
theorem block_of_dctEmbedEffect {i : Nat} (hi : i < blocks o) (u v : Fin (bsize o)) :
    block t o o.regs.dstAddr.toNat i u v = blockSamples (withTransform fwd inv) (target o) (factor o)
      (ofSamples (block s o o.regs.srcAddr.toNat i)) (carried s o i) u v := by
  obtain ⟨hrow, hcol⟩ := block_row_col_lt hi
  have hy : i / (cols o / bsize o) * bsize o + u < rows o :=
    (mul_add_lt_mul hrow u.isLt).trans_le (Nat.div_mul_le_self ..)
  have hx : i % (cols o / bsize o) * bsize o + v < cols o :=
    (mul_add_lt_mul hcol v.isLt).trans_le (Nat.div_mul_le_self ..)
  rw [block, Nat.add_assoc, memRead_of_dctEmbedEffect hmem hy hx, outSample_of_block fwd inv s o hi]

/-- The samples outside whole blocks are the input's (R270), and no byte outside the output is written. -/
theorem border_of_dctEmbedEffect :
    (∀ y < rows o, ∀ x < cols o, rows o / bsize o * bsize o ≤ y ∨ cols o / bsize o * bsize o ≤ x →
      memRead t.mem (o.regs.dstAddr.toNat + y * cols o + x) = memRead s.mem (o.regs.srcAddr.toNat + y * cols o + x)) ∧
    SameOutside s t o.regs.dstAddr.toNat (rows o * cols o) := by
  refine ⟨fun y hy x hx hborder => ?_, fun a ha => ?_⟩
  · rw [Nat.add_assoc, memRead_of_dctEmbedEffect hmem hy hx, outSample_of_border fwd inv s o hborder]
  · rw [hmem]
    refine memRead_memWriteBytes_of_outside _ _ _ ?_
    rwa [dctEmbedEffect_length]

end Output

/-! ### DCT.EMBED -/

/-- The default build's DCT.EMBED is that with the machine's own collaborator. -/
theorem command_dctEmbed (s : State) (o : Snapshot) :
    command Config.params .dctEmbed o s.mem = dctEmbed (withTransform Config.fwd2D Config.inv2D) o s.mem := rfl

/-- Settles O43: the checks of DCT.EMBED in order, the collaborator's fault last, then the blocks of its output. -/
theorem dctEmbedHidesTheMessage : Obligations.DctEmbedHidesTheMessage := by
  refine ⟨rfl, fun s job hbusy hraced => ?_⟩
  extract_lets p o src dst msg l n
  have hcmd := (command_dctEmbed s o).trans (dctEmbed_withTransform ..)
  have hready (h : DctReady o) := hcmd.trans (congrArg (unlessError · _) (dctChecks_of_ready h _))
  have hmessage (h : DctReady o) (hregions : DctEmbedRegions o) : command Config.params .dctEmbed o s.mem =
      unlessError ((capacityError o (dctCapacityOf o)).or <| (characterError (messageOf o s.mem)).or <|
        embedCollaboratorError p o s.mem) (dctEmbedEffect Config.fwd2D Config.inv2D s o) := by
    obtain ⟨hsrc, hdst, hmsg, hapart, hapart'⟩ := hregions
    rw [hready h, regionError_embedRegions_eq_none hsrc hdst hmsg hapart hapart', Option.none_or]
    rfl
  obtain ⟨hconfig, hrank, hsamples⟩ := endsWith_dctChecks (i := .dctEmbed) hbusy hraced fun x hx => by
    rw [hcmd, ← Option.or_assoc, hx, Option.some_or, unlessError_some]
  refine ⟨fun h hregions hcap hchars => ?_, hconfig, hrank, hsamples, fun h => ?_, fun h hregions hcap => ?_,
    fun k h hregions hcap hbad => ?_⟩
  · refine ⟨_, exec_busy .dctEmbed hbusy, ?_⟩
    rw [hmessage h hregions, capacityError_eq_none.2 hcap, Option.none_or, messageOf,
      characterError_memReadBytes_eq_none hchars, Option.none_or, hraced]
    refine ⟨fun hnone => ?_, fun i hi hfirst => ⟨fun hf => ?_, fun hf hi' => ?_⟩⟩
    · rw [embedCollaboratorError_of_no_fault hnone, unlessError_none]
      obtain ⟨hborder, houtside⟩ := border_of_dctEmbedEffect (t := complete p _ false
        (.ok (dctEmbedEffect Config.fwd2D Config.inv2D s o)) s) rfl
      exact ⟨complete_ok_succeeds .., complete_ok_keepsConfig _ _ _ _ rfl, rfl, wordOf_toNat _, wordOf_toNat _,
        fun i hi => block_of_dctEmbedEffect rfl hi, hborder, houtside⟩
    · rw [embedCollaboratorError_of_first hi hfirst (embedBlockFault_of_forwardFaults hf), unlessError_some]
      exact complete_error_fails ..
    · rw [embedCollaboratorError_of_first hi hfirst (embedBlockFault_of_inverseFaults hf hi'), unlessError_some]
      exact complete_error_fails ..
  · refine embedRegionErrors_of_command hbusy hraced fun x hx => ?_
    rw [hready h, hx, Option.some_or, unlessError_some]
  · refine endsWith_of_command_error hbusy (.inl hraced)
      (x := ⟨.capacityExceeded, o.regs.msgLen, wordOf (dctCapacityOf o)⟩) ?_
    rw [hmessage h hregions, capacityError_of_lt hcap, Option.some_or, unlessError_some]
  · refine endsWith_of_command_error hbusy (.inl hraced)
      (x := ⟨.invalidCharacter, wordOf k, wordOf (memRead s.mem (msg + k)).toNat⟩) ?_
    rw [hmessage h hregions, capacityError_eq_none.2 hcap, Option.none_or, messageOf,
      characterError_memReadBytes_of_firstBad hbad, Option.some_or, unlessError_some]

end

end Sys2Proof.Machine

/-! What DCT.EMBED and DCT.EXTRACT owe to the collaborator: passed blocks, finite coefficients and the round trip
(spec/44_dct_engine.md R265, R276, R280, R282). -/

namespace Sys2Proof.Machine

section
open Sys2Proof.Claim

/-! ### Meanings with another collaborator -/

/-- DCT.EMBED that shows no error has passed its checks and had its effect (60_exceptions.md R302, R303). -/
theorem embedWith_of_no_error {fwd inv : (B : Nat) → BlockMatrix B → BlockMatrix B} {s t : State} {job : Job}
    (hbusy : s.engine = .busy job) (hraced : job.raced = false)
    (hnext : embedWith fwd inv s = .next t) (herr : t.status.err = false) :
    (DctReady job.snap ∧ job.snap.regs.msgLen.toNat ≤ dctCapacityOf job.snap ∧
      ∀ c ∈ messageOf job.snap s.mem, c.toNat ≤ 127) ∧
    t.mem = memWriteBytes s.mem (dctEmbedEffect fwd inv s job.snap).base (dctEmbedEffect fwd inv s job.snap).bytes := by
  rw [embedWith, perform_busy _ _ _ hbusy, hraced] at hnext
  cases hnext
  cases hcmd : dctEmbed (withTransform fwd inv) job.snap s.mem with
  | error x =>
    rw [hcmd, (complete_error ..).1] at herr
    cases herr
  | ok e =>
    obtain ⟨hnone, rfl⟩ := unlessError_eq_ok.1 ((dctEmbed_withTransform ..).symm.trans hcmd)
    simp only [Option.or_eq_none_iff] at hnone
    obtain ⟨hvalid, hshape, -, hcap, hchars, -⟩ := hnone
    refine ⟨⟨⟨configError_eq_none.1 hvalid, dctShapeError_eq_none.1 hshape⟩, capacityError_eq_none.1 hcap,
      characterError_eq_none.1 hchars⟩, complete_mem_of_not_raced ..⟩

/-- Settles O46: a block past the message carries no bit, and the assumption is about what it then returns. -/
theorem passedBlocksAreUnchangedIfTheTransformIsExact : Obligations.PassedBlocksAreUnchangedIfTheTransformIsExact := by
  intro fwd inv s t job hbusy hraced _ hexact hnext herr i hpast hi
  obtain ⟨-, hmem⟩ := embedWith_of_no_error hbusy hraced hnext herr
  have hcarried : carried s job.snap i = none := if_neg (not_lt.2 hpast)
  funext u v
  rw [block_of_dctEmbedEffect hmem hi, hcarried, (hexact _ _ _).2]

/-! ### Finite coefficients -/

/-- A sample as binary64 is finite and at most 255 (R262). -/
theorem boundedFinite_ofSamples {B : Nat} (X : Fin B → Fin B → Byte) : BoundedFinite (ofSamples X) := by
  intro u v
  have hbyte : (X u v).toNat < 2 ^ 8 := (X u v).isLt
  have hsmall : ((X u v).toNat : Int).natAbs ≤ 2 ^ 53 := by omega
  have hB : 1 ≤ B ^ 2 := Nat.one_le_pow _ _ (Nat.zero_lt_of_lt u.isLt)
  refine ⟨(smallIntegersAreExact _ hsmall).1, ?_⟩
  rw [ofSamples, (fp_whole hsmall).2, Int.natAbs_natCast]
  refine Nat.mul_le_mul_right _ ?_
  omega

theorem f64Finite_entryAt {B : Nat} {M : BlockMatrix B} (h : allFinite M = true) (uv : Nat × Nat) :
    f64Finite (entryAt M uv) = true := by
  rw [entryAt]
  split
  · exact (allFinite_eq_true_iff M).1 h _ _
  · decide

/-- With a finite collaborator every target coefficient is finite (R276, R282). -/
theorem extractCollaboratorError_of_finiteResults {p : Params} {o : Snapshot} (h : FiniteResults p (bsize o)) (s : State) :
    extractCollaboratorError p o s.mem = none :=
  extractCollaboratorError_of_finite fun _ _ => f64Finite_entryAt (h _ (boundedFinite_ofSamples _)).1 _

/-- The checks of DCT.EXTRACT in order, then its message stored (R274). -/
theorem dctExtract_withTransform (fwd inv : (B : Nat) → BlockMatrix B → BlockMatrix B) (s : State) (o : Snapshot) :
    dctExtract (withTransform fwd inv) o s.mem =
      unlessError
        ((configError o).or <| (dctShapeError Config.params o).or <|
          (regionError Config.params (extractRegions o (rows o * cols o))).or <|
            extractCollaboratorError (withTransform fwd inv) o s.mem)
        (storeMessage o.regs.msgAddr.toNat o.regs.msgLen.toNat (bitsToMessage
          ((List.range (blocks o)).map (extractedBit (withTransform fwd inv) s o o.regs.srcAddr.toNat)))) := rfl

/-- Settles O47: of the checks of DCT.EXTRACT only the collaborator's reports COLLABORATOR_FAULT, and it passes. -/
theorem finiteCollaboratorNeverFaultsExtract : Obligations.FiniteCollaboratorNeverFaultsExtract := by
  intro fwd inv s t job hbusy hcode _ hfinite hnext
  rw [extractWith, perform_busy _ _ _ hbusy] at hnext
  cases hnext
  cases hcmd : dctExtract (withTransform fwd inv) job.snap s.mem with
  | ok e =>
    rw [(complete_ok ..).1]
    exact hcode
  | error x =>
    rw [(complete_error ..).1, statusError]
    rw [dctExtract_withTransform, extractCollaboratorError_of_finiteResults hfinite, Option.or_none,
      unlessError_eq_error] at hcmd
    simp only [Option.or_eq_some_iff] at hcmd
    obtain h | ⟨-, h | ⟨-, h⟩⟩ := hcmd
    · simp [configError_code h]
    · simp [dctShapeError_code h]
    · obtain h | h := regionError_code h <;> simp [h]

/-! ### The round trip -/

/-- The first bits read are the framed bits exactly if they are the message's bits and its terminator (R266, R274). -/
theorem take_eq_framed_iff {s : State} {o : Snapshot} {T : Nat} {f : Nat → Bool}
    (hT : 7 * (o.regs.msgLen.toNat + 1) ≤ T) :
    ((List.range T).map f).take (7 * (o.regs.msgLen.toNat + 1)) =
        messageToBits (messageOf o s.mem) ++ List.replicate 7 false ↔
      ∀ i < 7 * (o.regs.msgLen.toNat + 1), f i = framedBit s o.regs.msgAddr.toNat o.regs.msgLen.toNat i := by
  have hframed : messageToBits (messageOf o s.mem) ++ List.replicate 7 false = framedBits o s.mem := by
    rw [framedBits, messageToBits_append]
    rfl
  have hlen : (framedBits o s.mem).length = 7 * (o.regs.msgLen.toNat + 1) := by
    rw [framedBits, messageToBits_length, List.length_append, messageOf_length, List.length_singleton]
  rw [hframed, ← List.map_take, List.take_range, min_eq_left hT]
  constructor
  · intro heq i hi
    have hget := congrArg (·[i]?) heq
    simpa [getElem?_framedBits s o hi, List.getElem?_range hi] using hget
  · intro hbits
    refine List.ext_getElem? fun i => ?_
    by_cases hi : i < 7 * (o.regs.msgLen.toNat + 1)
    · rw [getElem?_framedBits s o hi, List.getElem?_map, List.getElem?_range hi, Option.map_some, hbits i hi]
    · rw [List.getElem?_eq_none (by simpa using hi), List.getElem?_eq_none (by omega)]

/-- The decoded message is `m` exactly if the sequence begins with the bits of `m` and its terminator (R144). -/
theorem bitsToMessage_eq_iff_take {b : Bits} {m : List Byte} (hlen : 7 * (m.length + 1) ≤ b.length)
    (hchars : ∀ c ∈ m, c.toNat ≤ 127) (hnonzero : ∀ c ∈ m, c ≠ 0) :
    bitsToMessage b = m ↔ b.take (7 * (m.length + 1)) = messageToBits m ++ List.replicate 7 false := by
  refine ⟨take_of_bitsToMessage hlen, fun htake => ?_⟩
  have hsplit : b = messageToBits m ++ (List.replicate 7 false ++ b.drop (7 * (m.length + 1))) := by
    rw [← List.append_assoc, ← htake, List.take_append_drop]
  rw [hsplit]
  exact (framingLaws.1 m _ hchars hnonzero).2 (.inr (List.take_left' (List.length_replicate ..)))

/-- A stored message is the one in memory exactly if the results and the buffer show that one (R280). -/
theorem stores_message_iff {s s' u : State} {o : Snapshot} {a c : Nat} {m : List Byte} (h : Stores s' u a c m)
    (hlen : m.length < 2 ^ 32) (hbuf : o.regs.msgLen.toNat ≤ c) :
    (u.status.done = true ∧ u.result1 = o.regs.msgLen ∧
      ∀ k < o.regs.msgLen.toNat, memRead u.mem (a + k) = memRead s.mem (o.regs.msgAddr.toNat + k)) ↔
      m = messageOf o s.mem := by
  have hword : wordOf m.length = o.regs.msgLen ↔ m.length = o.regs.msgLen.toNat := by
    rw [← BitVec.toNat_inj, wordOf, BitVec.toNat_ofNat, Nat.mod_eq_of_lt hlen]
  rw [h.ends.result1, hword]
  constructor
  · rintro ⟨-, hcount, hbytes⟩
    refine List.ext_getElem (hcount.trans (messageOf_length ..).symm) fun k hk hk' => ?_
    rw [← h.written k hk (by omega), hbytes k (by omega)]
    exact (getElem_memReadBytes ..).symm
  · intro heq
    have hcount : m.length = o.regs.msgLen.toNat := heq ▸ messageOf_length ..
    refine ⟨h.ends.done, hcount, fun k hk => ?_⟩
    have hk' : k < m.length := hcount.symm ▸ hk
    have hchar : m[k] = (messageOf o s.mem)[k]'(heq ▸ hk') := by simp only [heq]
    rw [h.written k hk' (by omega), hchar]
    exact getElem_memReadBytes ..

theorem extractCollaboratorError_eq_none_iff {p : Params} {s : State} {o : Snapshot} :
    extractCollaboratorError p o s.mem = none ↔
      ∀ i < blocks o, f64Finite (targetOf p s o o.regs.srcAddr.toNat i) = true := by
  refine ⟨fun h i hi => ?_, extractCollaboratorError_of_finite⟩
  have hblock := List.findSome?_eq_none_iff.1 h i (List.mem_range.2 hi)
  by_contra hbad
  exact absurd (hblock.symm.trans (if_pos (Bool.eq_false_iff.2 hbad))) nofun

/-- DCT.EXTRACT of a channel with room for a message returns that message exactly if every coefficient is finite and the first
bits are the framed bits: it stores what its bits decode to, or ends with an error (R274, R280). -/
theorem extractWith_returns_message_iff (fwd inv : (B : Nat) → BlockMatrix B → BlockMatrix B) {s t : State} {o : Snapshot}
    {job : Job} (hbusy : t.engine = .busy job) (hraced : job.raced = false)
    (hnotDone : t.status.done = false) (hready : DctReady job.snap)
    (hregions : ExtractRegions job.snap (rows job.snap * cols job.snap))
    (hcap : 7 * (o.regs.msgLen.toNat + 1) ≤ blocks job.snap) (hbuf : o.regs.msgLen.toNat ≤ job.snap.regs.msgLen.toNat)
    (hchars : ∀ c ∈ messageOf o s.mem, c.toNat ≤ 127) (hnonzero : ∀ c ∈ messageOf o s.mem, c ≠ 0) :
    ∃ u, extractWith fwd inv t = .next u ∧
      ((u.status.done = true ∧ u.result1 = o.regs.msgLen ∧ ∀ k < o.regs.msgLen.toNat,
          memRead u.mem (job.snap.regs.msgAddr.toNat + k) = memRead s.mem (o.regs.msgAddr.toNat + k)) ↔
        (∀ i < blocks job.snap,
          f64Finite (targetOf (withTransform fwd inv) t job.snap job.snap.regs.srcAddr.toNat i) = true) ∧
        ∀ i < 7 * (o.regs.msgLen.toNat + 1),
          extractedBit (withTransform fwd inv) t job.snap job.snap.regs.srcAddr.toNat i =
            framedBit s o.regs.msgAddr.toNat o.regs.msgLen.toNat i) := by
  refine ⟨_, perform_busy _ _ _ hbusy, ?_⟩
  rw [dctExtract_withTransform, dctChecks_of_ready hready, regionError_extractRegions_eq_none hregions, Option.none_or,
    hraced, ← extractCollaboratorError_eq_none_iff]
  cases extractCollaboratorError (withTransform fwd inv) job.snap t.mem with
  | some x =>
    rw [unlessError_some, (complete_error ..).1, statusError, hnotDone]
    exact iff_of_false (fun h => Bool.false_ne_true h.1) fun h => Option.some_ne_none x h.1
  | none =>
    rw [unlessError_none]
    generalize hbits : (List.range (blocks job.snap)).map
      (extractedBit (withTransform fwd inv) t job.snap job.snap.regs.srcAddr.toNat) = bits
    have hcount : bits.length = blocks job.snap := by rw [← hbits, List.length_map, List.length_range]
    have hlen : (messageOf o s.mem).length = o.regs.msgLen.toNat := messageOf_length ..
    have hshort : (bitsToMessage bits).length < 2 ^ 32 := by
      have hblocks := blocks_le job.snap
      have hdecoded := bitsToMessage_length_le bits
      obtain ⟨-, -, hsamples⟩ := hready
      omega
    rw [stores_message_iff (complete_storeMessage_stores ..) hshort hbuf,
      bitsToMessage_eq_iff_take (by rwa [hlen, hcount]) hchars hnonzero, hlen, ← hbits, take_eq_framed_iff hcap]
    exact (and_iff_right rfl).symm

/-- Settles O45: DCT.EMBED without error has checked the shape, the capacity and the characters, and DCT.EXTRACT reads with the
same shape and configuration. -/
theorem dctRoundTripIffBitsSurvive : Obligations.DctRoundTripIffBitsSurvive := by
  refine ⟨rfl, rfl, ?_⟩
  intro fwd inv s t s' job job' hbusy hraced _ hnext herr p o o' l src' hseven hnonzero hbusy' hraced' hnotDone _ hact
    hvalid hrank hdim0 hdim1 _ hbuf hregions
  obtain ⟨⟨⟨-, hrank2, hsamples⟩, hcap, hchars⟩, -⟩ := embedWith_of_no_error hbusy hraced hnext herr
  have hrows : rows o' = rows o := congrArg BitVec.toNat hdim0
  have hcols : cols o' = cols o := congrArg BitVec.toNat hdim1
  have hblocks : blocks o' = blocks o := by
    rw [blocks, hrows, hcols, bsize, hact]
    rfl
  have hfits : 7 * (l + 1) ≤ blocks o' := by
    have hcap' : l ≤ (blocks o - 7) / 7 := hcap
    omega
  rw [← hblocks]
  refine extractWith_returns_message_iff fwd inv hbusy' hraced' hnotDone ⟨hvalid, hrank ▸ hrank2, ?_⟩ ?_ hfits hbuf hchars ?_
  · exact hrows ▸ hcols ▸ hsamples
  · exact hrows ▸ hcols ▸ hregions
  · rw [messageOf, memReadBytes, List.forall_mem_map]
    exact fun k hk => hnonzero k (List.mem_range.1 hk)

end

end Sys2Proof.Machine
